-- ==== Sys2Proof/Word.lean ====
section
/-! DEFINITION. The bit-vector types of the block: the W-bit register value, the bus word, the byte
and the window offset (spec/00_scope.md R5, R9). -/

namespace Sys2Proof

/-- A W = 256-bit register value: an unsigned integer in [0, 2^256) (R5, R9). -/
abbrev Word := BitVec 256

/-- A 32-bit host word or command word (R5: BUS_WIDTH, CMD_WIDTH). -/
abbrev BusWord := BitVec 32

/-- One byte of an output string (R12). -/
abbrev Byte := BitVec 8

/-- A 12-bit byte offset in the register window (R5: WINDOW, R80). -/
abbrev Offset := BitVec 12

end Sys2Proof
end

