-- ==== Sys2Proof/Syntax.lean ====
section
/-! DEFINITION. The command set as syntax: one constructor per row of the opcode map (spec/30_encoding.md R113).
Operand fields are register numbers in their own ranges (R111); there are no immediates (R118). -/

namespace Sys2Proof

/-- An X field: it names one of the 16 integer registers, and all 16 values are legal (R111). -/
abbrev XReg := Fin 16

/-- A legal P field: it names one of the 8 point registers (R111). -/
abbrev PReg := Fin 8

/-- The legal values of the MS field (R111): the modulus of a field command. -/
inductive ModSel where
  /-- MS = 0: MOD (suffix .m). -/
  | m
  /-- MS = 1: CURVE_P (suffix .p). -/
  | p
  /-- MS = 2: CURVE_N (suffix .n). -/
  | n
deriving DecidableEq, Repr

/-- The 21 commands, operands in field order F1, F2, ... with unused fields left out (R113, R119). -/
inductive Instr where
  | fred (ms : ModSel) (xd xa : XReg)
  | fadd (ms : ModSel) (xd xa xb : XReg)
  | fsub (ms : ModSel) (xd xa xb : XReg)
  | fmul (ms : ModSel) (xd xa xb : XReg)
  | fdiv (ms : ModSel) (xd xa xb : XReg)
  | finv (ms : ModSel) (xd xa : XReg)
  | fpow (ms : ModSel) (xd xa xb : XReg)
  | feq (ms : ModSel) (xa xb : XReg)
  | pset (pd : PReg) (xx xy : XReg)
  | pinf (pd : PReg)
  | pgen (pd : PReg)
  | pget (xd xe : XReg) (ps : PReg)
  | peq (pa pb : PReg)
  | padd (pd pa pb : PReg)
  | pdbl (pd pa : PReg)
  | pmul (pd pa : PReg) (xk : XReg)
  | keygen (pd : PReg) (xs : XReg)
  | esign (xr xs xz xd xk : XReg)
  | everify (xz xr xs : XReg) (pq : PReg)
  | derenc (xr xs : XReg)
  | secenc (compressed : Bool) (pp : PReg)
deriving DecidableEq, Repr

end Sys2Proof
end

