-- ==== Sys2Proof/WellFormed.lean ====
section
/-! DEFINITION. Which terms of the syntax are commands: the distinct-field constraints of decode
(spec/30_encoding.md R114, clause 3). The ranges of register numbers and of MS are in the types. -/

namespace Sys2Proof

/-- PGET and ESIGN name two different destination registers (R114, 92_eei_decisions.md D34). -/
def Instr.wellFormed : Instr → Bool
  | .pget xd xe _ => xd ≠ xe
  | .esign xr xs _ _ _ => xr ≠ xs
  | .fred .. | .fadd .. | .fsub .. | .fmul .. | .fdiv .. | .finv .. | .fpow .. | .feq ..
  | .pset .. | .pinf .. | .pgen .. | .peq .. | .padd .. | .pdbl .. | .pmul .. | .keygen ..
  | .everify .. | .derenc .. | .secenc .. => true

end Sys2Proof
end

