-- ==== Sys2Proof/Decode.lean ====
section
/-! DEFINITION. From a 32-bit command word to a command or a named rejection, and back
(spec/30_encoding.md R110, R111, R113, R114), with the match/mask table of R113 as data. -/

namespace Sys2Proof

/-- The nine fields of a command word (R110). -/
structure Fields where
  op  : BitVec 6
  f1  : BitVec 4
  f2  : BitVec 4
  f3  : BitVec 4
  f4  : BitVec 4
  f5  : BitVec 4
  ms  : BitVec 2
  rsv : BitVec 3
  c   : BitVec 1
deriving DecidableEq, Repr

/-- The fields at their bit positions (R110). -/
def Fields.ofWord (w : BusWord) : Fields where
  op  := w.extractLsb' 26 6
  f1  := w.extractLsb' 22 4
  f2  := w.extractLsb' 18 4
  f3  := w.extractLsb' 14 4
  f4  := w.extractLsb' 10 4
  f5  := w.extractLsb' 6 4
  ms  := w.extractLsb' 4 2
  rsv := w.extractLsb' 1 3
  c   := w.extractLsb' 0 1

/-- The word that holds the given fields (R110). -/
def Fields.toWord (f : Fields) : BusWord :=
  f.op ++ f.f1 ++ f.f2 ++ f.f3 ++ f.f4 ++ f.f5 ++ f.ms ++ f.rsv ++ f.c

/-- Why a word is illegal (R114, R115). Every reason gives the one error E_ILLEGAL. -/
inductive Illegal where
  /-- OP is one of the 43 values outside the table. -/
  | reservedOp
  /-- A field the opcode does not use, RSV, MS or C, is not 0. -/
  | unusedField
  /-- MS = 3 in a field command. -/
  | reservedModulus
  /-- A P field of 8..15. -/
  | badPoint
  /-- F1 = F2 in PGET or ESIGN. -/
  | sameDestination
deriving DecidableEq, Repr

/-- An X field: every value is a register number (R111). -/
def xField (v : BitVec 4) : XReg := v.toFin

/-- A P field: bit 3 must be 0 (R111). -/
def pField (v : BitVec 4) : Except Illegal PReg :=
  if h : v.toNat < 8 then .ok ⟨v.toNat, h⟩ else .error .badPoint

/-- The MS field of a field command (R111). -/
def msField (v : BitVec 2) : Except Illegal ModSel :=
  match v with
  | 0#2 => .ok .m
  | 1#2 => .ok .p
  | 2#2 => .ok .n
  | _ => .error .reservedModulus

/-- A field the opcode leaves unused must be 0 (R111). -/
def zeroField {k : Nat} (v : BitVec k) : Except Illegal Unit :=
  if v = 0 then .ok () else .error .unusedField

/-- RSV and C are 0 in every command but SECENC (R113). -/
def plainTail (f : Fields) : Except Illegal Unit := do
  zeroField f.rsv
  zeroField f.c

/-- The operands of `xd, xa` and `xd, xa, xb` field commands, with their MS (R113). -/
def field2 (f : Fields) : Except Illegal (ModSel × XReg × XReg) := do
  plainTail f
  zeroField f.f3; zeroField f.f4; zeroField f.f5
  let ms ← msField f.ms
  return (ms, xField f.f1, xField f.f2)

/-- See `field2`. -/
def field3 (f : Fields) : Except Illegal (ModSel × XReg × XReg × XReg) := do
  plainTail f
  zeroField f.f4; zeroField f.f5
  let ms ← msField f.ms
  return (ms, xField f.f1, xField f.f2, xField f.f3)

/-- The rows of the opcode map (R113), field by field, with the extra constraints of R114. -/
def decodeFields (f : Fields) : Except Illegal Instr :=
  match f.op with
  | 0x01#6 => do let (ms, xd, xa) ← field2 f; return .fred ms xd xa
  | 0x02#6 => do let (ms, xd, xa, xb) ← field3 f; return .fadd ms xd xa xb
  | 0x03#6 => do let (ms, xd, xa, xb) ← field3 f; return .fsub ms xd xa xb
  | 0x04#6 => do let (ms, xd, xa, xb) ← field3 f; return .fmul ms xd xa xb
  | 0x05#6 => do let (ms, xd, xa, xb) ← field3 f; return .fdiv ms xd xa xb
  | 0x06#6 => do let (ms, xd, xa) ← field2 f; return .finv ms xd xa
  | 0x07#6 => do let (ms, xd, xa, xb) ← field3 f; return .fpow ms xd xa xb
  | 0x08#6 => do
    plainTail f; zeroField f.f1; zeroField f.f4; zeroField f.f5
    let ms ← msField f.ms
    return .feq ms (xField f.f2) (xField f.f3)
  | 0x10#6 => do
    plainTail f; zeroField f.ms; zeroField f.f4; zeroField f.f5
    let pd ← pField f.f1
    return .pset pd (xField f.f2) (xField f.f3)
  | 0x11#6 => do
    plainTail f; zeroField f.ms; zeroField f.f2; zeroField f.f3; zeroField f.f4; zeroField f.f5
    let pd ← pField f.f1
    return .pinf pd
  | 0x12#6 => do
    plainTail f; zeroField f.ms; zeroField f.f2; zeroField f.f3; zeroField f.f4; zeroField f.f5
    let pd ← pField f.f1
    return .pgen pd
  | 0x13#6 => do
    plainTail f; zeroField f.ms; zeroField f.f4; zeroField f.f5
    let ps ← pField f.f3
    if f.f1 = f.f2 then .error .sameDestination
    else return .pget (xField f.f1) (xField f.f2) ps
  | 0x14#6 => do
    plainTail f; zeroField f.ms; zeroField f.f1; zeroField f.f4; zeroField f.f5
    let pa ← pField f.f2
    let pb ← pField f.f3
    return .peq pa pb
  | 0x15#6 => do
    plainTail f; zeroField f.ms; zeroField f.f4; zeroField f.f5
    let pd ← pField f.f1
    let pa ← pField f.f2
    let pb ← pField f.f3
    return .padd pd pa pb
  | 0x16#6 => do
    plainTail f; zeroField f.ms; zeroField f.f3; zeroField f.f4; zeroField f.f5
    let pd ← pField f.f1
    let pa ← pField f.f2
    return .pdbl pd pa
  | 0x18#6 => do
    plainTail f; zeroField f.ms; zeroField f.f4; zeroField f.f5
    let pd ← pField f.f1
    let pa ← pField f.f2
    return .pmul pd pa (xField f.f3)
  | 0x19#6 => do
    plainTail f; zeroField f.ms; zeroField f.f3; zeroField f.f4; zeroField f.f5
    let pd ← pField f.f1
    return .keygen pd (xField f.f2)
  | 0x20#6 => do
    plainTail f; zeroField f.ms
    if f.f1 = f.f2 then .error .sameDestination
    else return .esign (xField f.f1) (xField f.f2) (xField f.f3) (xField f.f4) (xField f.f5)
  | 0x21#6 => do
    plainTail f; zeroField f.ms; zeroField f.f1
    let pq ← pField f.f5
    return .everify (xField f.f2) (xField f.f3) (xField f.f4) pq
  | 0x28#6 => do
    plainTail f; zeroField f.ms; zeroField f.f1; zeroField f.f4; zeroField f.f5
    return .derenc (xField f.f2) (xField f.f3)
  | 0x29#6 => do
    zeroField f.rsv; zeroField f.ms
    zeroField f.f1; zeroField f.f3; zeroField f.f4; zeroField f.f5
    let pp ← pField f.f2
    return .secenc (f.c = 1#1) pp
  | _ => .error .reservedOp

/-- The command a word stands for, or why it is illegal (R114). Total on every word. -/
def decode (w : BusWord) : Except Illegal Instr :=
  decodeFields (Fields.ofWord w)

/-- What the host's table reads: one 32-bit word, bits numbered as the table numbers them (R110, R117).
Bits above `nbits` are 0; no command is longer than one word. -/
def decodeTableWord (nbits w : Nat) : Option Instr :=
  if nbits ≤ 32 then
    match decode (BitVec.ofNat 32 (w % 2 ^ nbits)) with
    | .ok i => some i
    | .error _ => none
  else none

/-! ### The encoder -/

/-- The field that names an integer register (R111). -/
def xBits (r : XReg) : BitVec 4 := BitVec.ofFin r

/-- The field that names a point register: bit 3 is 0 (R111). -/
def pBits (r : PReg) : BitVec 4 := BitVec.ofNat 4 r.val

/-- The MS field (R111). -/
def msBits : ModSel → BitVec 2
  | .m => 0#2
  | .p => 1#2
  | .n => 2#2

/-- The fields of a command, from the opcode map (R113); unused fields are 0. -/
def fieldsOf : Instr → Fields
  | .fred ms xd xa    => ⟨0x01#6, xBits xd, xBits xa, 0, 0, 0, msBits ms, 0, 0⟩
  | .fadd ms xd xa xb => ⟨0x02#6, xBits xd, xBits xa, xBits xb, 0, 0, msBits ms, 0, 0⟩
  | .fsub ms xd xa xb => ⟨0x03#6, xBits xd, xBits xa, xBits xb, 0, 0, msBits ms, 0, 0⟩
  | .fmul ms xd xa xb => ⟨0x04#6, xBits xd, xBits xa, xBits xb, 0, 0, msBits ms, 0, 0⟩
  | .fdiv ms xd xa xb => ⟨0x05#6, xBits xd, xBits xa, xBits xb, 0, 0, msBits ms, 0, 0⟩
  | .finv ms xd xa    => ⟨0x06#6, xBits xd, xBits xa, 0, 0, 0, msBits ms, 0, 0⟩
  | .fpow ms xd xa xb => ⟨0x07#6, xBits xd, xBits xa, xBits xb, 0, 0, msBits ms, 0, 0⟩
  | .feq ms xa xb     => ⟨0x08#6, 0, xBits xa, xBits xb, 0, 0, msBits ms, 0, 0⟩
  | .pset pd xx xy    => ⟨0x10#6, pBits pd, xBits xx, xBits xy, 0, 0, 0, 0, 0⟩
  | .pinf pd          => ⟨0x11#6, pBits pd, 0, 0, 0, 0, 0, 0, 0⟩
  | .pgen pd          => ⟨0x12#6, pBits pd, 0, 0, 0, 0, 0, 0, 0⟩
  | .pget xd xe ps    => ⟨0x13#6, xBits xd, xBits xe, pBits ps, 0, 0, 0, 0, 0⟩
  | .peq pa pb        => ⟨0x14#6, 0, pBits pa, pBits pb, 0, 0, 0, 0, 0⟩
  | .padd pd pa pb    => ⟨0x15#6, pBits pd, pBits pa, pBits pb, 0, 0, 0, 0, 0⟩
  | .pdbl pd pa       => ⟨0x16#6, pBits pd, pBits pa, 0, 0, 0, 0, 0, 0⟩
  | .pmul pd pa xk    => ⟨0x18#6, pBits pd, pBits pa, xBits xk, 0, 0, 0, 0, 0⟩
  | .keygen pd xs     => ⟨0x19#6, pBits pd, xBits xs, 0, 0, 0, 0, 0, 0⟩
  | .esign xr xs xz xd xk => ⟨0x20#6, xBits xr, xBits xs, xBits xz, xBits xd, xBits xk, 0, 0, 0⟩
  | .everify xz xr xs pq  => ⟨0x21#6, 0, xBits xz, xBits xr, xBits xs, pBits pq, 0, 0, 0⟩
  | .derenc xr xs     => ⟨0x28#6, 0, xBits xr, xBits xs, 0, 0, 0, 0, 0⟩
  | .secenc c pp      => ⟨0x29#6, 0, pBits pp, 0, 0, 0, 0, 0, BitVec.ofBool c⟩

/-- The command word of a command (R110, R113): the `enc` of the pseudo-instruction ISSUE (R120). -/
def encode (i : Instr) : BusWord := (fieldsOf i).toWord

/-! ### The match/mask table -/

/-- One row of the opcode map: a word has the row's shape exactly when `w AND mask = match` (R113). -/
structure Row where
  mnemonic : String
  pattern  : BusWord
  mask     : BusWord
deriving DecidableEq, Repr

/-- The field commands' rows (R113). -/
def fieldRows : List Row :=
  [ ⟨"FRED", 0x04000000#32, 0xFC03FFCF#32⟩,
    ⟨"FADD", 0x08000000#32, 0xFC003FCF#32⟩,
    ⟨"FSUB", 0x0C000000#32, 0xFC003FCF#32⟩,
    ⟨"FMUL", 0x10000000#32, 0xFC003FCF#32⟩,
    ⟨"FDIV", 0x14000000#32, 0xFC003FCF#32⟩,
    ⟨"FINV", 0x18000000#32, 0xFC03FFCF#32⟩,
    ⟨"FPOW", 0x1C000000#32, 0xFC003FCF#32⟩,
    ⟨"FEQ",  0x20000000#32, 0xFFC03FCF#32⟩ ]

/-- The point, scalar, ECDSA and serialization rows (R113). -/
def otherRows : List Row :=
  [ ⟨"PSET", 0x40000000#32, 0xFE003FFF#32⟩,
    ⟨"PINF", 0x44000000#32, 0xFE3FFFFF#32⟩,
    ⟨"PGEN", 0x48000000#32, 0xFE3FFFFF#32⟩,
    ⟨"PGET", 0x4C000000#32, 0xFC023FFF#32⟩,
    ⟨"PEQ",  0x50000000#32, 0xFFE23FFF#32⟩,
    ⟨"PADD", 0x54000000#32, 0xFE223FFF#32⟩,
    ⟨"PDBL", 0x58000000#32, 0xFE23FFFF#32⟩,
    ⟨"PMUL", 0x60000000#32, 0xFE203FFF#32⟩,
    ⟨"KEYGEN", 0x64000000#32, 0xFE03FFFF#32⟩,
    ⟨"ESIGN", 0x80000000#32, 0xFC00003F#32⟩,
    ⟨"EVERIFY", 0x84000000#32, 0xFFC0023F#32⟩,
    ⟨"DERENC", 0xA0000000#32, 0xFFC03FFF#32⟩,
    ⟨"SECENC", 0xA4000000#32, 0xFFE3FFFE#32⟩ ]

/-- The whole opcode map (R113). -/
def opcodeTable : List Row := fieldRows ++ otherRows

/-- Does a word have a row's shape (R113)? -/
def Row.fits (r : Row) (w : BusWord) : Bool := w &&& r.mask = r.pattern

/-- The mnemonic of a command (R113). -/
def Instr.mnemonic : Instr → String
  | .fred .. => "FRED"
  | .fadd .. => "FADD"
  | .fsub .. => "FSUB"
  | .fmul .. => "FMUL"
  | .fdiv .. => "FDIV"
  | .finv .. => "FINV"
  | .fpow .. => "FPOW"
  | .feq .. => "FEQ"
  | .pset .. => "PSET"
  | .pinf .. => "PINF"
  | .pgen .. => "PGEN"
  | .pget .. => "PGET"
  | .peq .. => "PEQ"
  | .padd .. => "PADD"
  | .pdbl .. => "PDBL"
  | .pmul .. => "PMUL"
  | .keygen .. => "KEYGEN"
  | .esign .. => "ESIGN"
  | .everify .. => "EVERIFY"
  | .derenc .. => "DERENC"
  | .secenc .. => "SECENC"

end Sys2Proof
end

