-- ==== Sys2Proof/Config.lean ====
section
/-! DEFINITION. What is fixed for one machine: the block's constants, the secp256k1 reset values of the
curve registers, and the parameters and draws the spec leaves open, as opaque constants (spec/00_scope.md R5, R6). -/

namespace Sys2Proof.Config

/-- ID always reads 0x52544331, "RTC1" (spec/10_state.md R32). -/
def idWord : BusWord := 0x52544331#32

/-- CFG always reads 0x08100100: NP = 8, NX = 16, W = 256 (spec/10_state.md R33). -/
def cfgWord : BusWord := 0x08100100#32

/-- Reset value of CURVE_P: p = 2^256 - 2^32 - 977 (spec/10_state.md R40; log 9). -/
def secpP : Word := 0xFFFFFFFFFFFFFFFFFFFFFFFFFFFFFFFFFFFFFFFFFFFFFFFFFFFFFFFEFFFFFC2F#256

/-- Reset value of CURVE_A (R40). -/
def secpA : Word := 0#256

/-- Reset value of CURVE_B (R40). -/
def secpB : Word := 7#256

/-- Reset value of CURVE_GX (R40; log 9). -/
def secpGX : Word := 0x79BE667EF9DCBBAC55A06295CE870B07029BFCDB2DCE28D959F2815B16F81798#256

/-- Reset value of CURVE_GY (R40; log 9). -/
def secpGY : Word := 0x483ADA7726A3C4655DA4FBFC0E1108A8FD17B448A68554199C47D08FFB10D4B8#256

/-- Reset value of CURVE_N (R40; log 9). -/
def secpN : Word := 0xFFFFFFFFFFFFFFFFFFFFFFFFFFFFFFFEBAAEDCE6AF48A03BBFD25E8CD0364141#256

/-- The open part of NONCE_RETRY_MAX: nothing is known of it (R6; DESIGN CHOICE, safe, log 4). -/
opaque nonceRetryExtra : Nat

/-- NONCE_RETRY_MAX, an integer of at least 1 (R6): the most nonces one ESIGN draws (90_conflicts.md C15). -/
def nonceRetryMax : Nat := nonceRetryExtra + 1

/-- The raw internal entropy of the i-th draw: a free value (R52; DESIGN CHOICE, safe, log 2). -/
opaque nonceRaw : Nat → Nat

end Sys2Proof.Config
end

