-- ==== Sys2Proof/Machine/State.lean ====
section
/-! DEFINITION. The state of the block (spec/10_state.md R30: nothing else is state) as plain data, with
the model's own three fields for the host side, and the state after reset (spec/70_reset_and_hazards.md R300). -/

namespace Sys2Proof.Machine

/-- The error codes a command can end in (spec/60_exceptions.md R270). The reserved code 0x0B is never
raised, so it has no constructor (spec/93_implementation_defined.md I10). -/
inductive ErrCode where
  /-- 0x01 E_ILLEGAL. -/
  | illegal
  /-- 0x02 E_BAD_MODULUS. -/
  | badModulus
  /-- 0x03 E_NO_ORDER. -/
  | noOrder
  /-- 0x04 E_RANGE. -/
  | range
  /-- 0x05 E_NOT_INVERTIBLE. -/
  | notInvertible
  /-- 0x06 E_NOT_ON_CURVE. -/
  | notOnCurve
  /-- 0x07 E_EMPTY_POINT. -/
  | emptyPoint
  /-- 0x08 E_INF_OPERAND. -/
  | infOperand
  /-- 0x09 E_KEY_RANGE. -/
  | keyRange
  /-- 0x0A E_NONCE. -/
  | nonce
deriving DecidableEq, Repr

/-- The value of a point register (spec/10_state.md R45). -/
inductive PointReg where
  /-- EMPTY: holds no point. -/
  | empty
  /-- INF: the point at infinity. -/
  | inf
  /-- AFF(x, y): an affine point. -/
  | aff (x y : Word)
deriving DecidableEq, Repr

/-- A point as the group law computes with it (spec/41_point.md R180): INF, or AFF with exact integer
coordinates (spec/00_scope.md R9). -/
inductive Point where
  | inf
  | aff (x y : Nat)
deriving DecidableEq, Repr

/-- The engine state (spec/10_state.md R51). -/
inductive Engine where
  /-- IDLE. -/
  | idle
  /-- BUSY(w): w is the accepted command word. -/
  | busy (w : BusWord)
deriving DecidableEq, Repr

/-- The stored fields of CTRL (spec/10_state.md R34); SRST is an action and reads 0. -/
structure Ctrl where
  /-- Bit 0, IE: interrupt enable. -/
  ie   : Bool
  /-- Bit 1, NSRC: nonce source of ESIGN; true is the host-supplied register. -/
  nsrc : Bool
deriving DecidableEq, Repr

/-- The stored fields of STATUS (spec/10_state.md R36); BUSY is read from the engine state (R51). -/
structure Status where
  /-- Bit 1. -/
  done    : Bool
  /-- Bit 2. -/
  err     : Bool
  /-- Bit 3. -/
  eq      : Bool
  /-- Bit 4. -/
  vok     : Bool
  /-- Bit 5. -/
  oinf    : Bool
  /-- Bit 6. -/
  drop    : Bool
  /-- Bit 7. -/
  buserr  : Bool
  /-- Bits [15:8], ERRCODE; `none` reads 0x00 (R270). -/
  errcode : Option ErrCode
deriving DecidableEq, Repr

/-- What a host access does (spec/20_memory.md R81). -/
inductive AccessOp where
  | read
  | write (v : BusWord)
deriving DecidableEq, Repr

/-- One host access as the block sees it: a window offset, the access width in bits, the enabled byte
lanes, and a read or a write (spec/20_memory.md R80, R81, R83). -/
structure Access where
  off   : Offset
  width : Nat
  lanes : BitVec 4
  op    : AccessOp
deriving DecidableEq, Repr

/-- One turn of an agent, in the one total order of spec/20_memory.md R89 (log 1). -/
inductive Turn where
  /-- The host performs one access. -/
  | host (a : Access)
  /-- The engine takes its completion step, if it is BUSY. -/
  | engine
  /-- The platform asserts the hardware reset (spec/70_reset_and_hazards.md R300). -/
  | reset
deriving DecidableEq, Repr

/-- The machine: the block's whole architectural state (R30), then three fields of the model's own. -/
structure State where
  /-- x[0]..x[15] (R47). -/
  x       : Vector Word 16
  /-- pt[0]..pt[7] (R45). -/
  pt      : Vector PointReg 8
  /-- CURVE_P (R40). -/
  curveP  : Word
  /-- CURVE_A (R41). -/
  curveA  : Word
  /-- CURVE_B (R41). -/
  curveB  : Word
  /-- CURVE_GX (R40). -/
  curveGX : Word
  /-- CURVE_GY (R40). -/
  curveGY : Word
  /-- CURVE_N (R40). -/
  curveN  : Word
  /-- CURVE_NVALID.NVALID (R42). -/
  nvalid  : Bool
  /-- MOD (R44). -/
  modulus : Word
  /-- CTRL (R34). -/
  ctrl    : Ctrl
  /-- STATUS (R36). -/
  status  : Status
  /-- ERRCMD (R39). -/
  errcmd  : BusWord
  /-- OLEN[6:0] (R49). -/
  olen    : BitVec 7
  /-- OBUF[0]..OBUF[71] (R49). -/
  obuf    : Vector Byte 72
  /-- The engine state (R51). -/
  engine  : Engine
  /-- The model's own: the turns not yet processed, oldest first (R89; log 1). -/
  turns     : List Turn
  /-- The model's own: the values answered to host reads, newest first (log 3). -/
  responses : List BusWord
  /-- The model's own: how many internal nonces have been drawn (R52; log 2). -/
  drawn     : Nat
deriving DecidableEq, Repr

/-- No behaviour of the spec stops the machine (spec/93_implementation_defined.md: of stuck states "No item of
this block uses it"), so no fault exists. -/
inductive Fault
deriving DecidableEq, Repr

/-- Why a step has no meaning. -/
inductive Refusal where
  /-- Raised by an arm of exec whose instruction has no meaning yet; safe. No arm raises it. -/
  | notModelled (mnemonic : String)
deriving DecidableEq, Repr

/-- The reset value of STATUS: 0x00000000 (R36, R300). -/
def Status.reset : Status :=
  { done := false, err := false, eq := false, vok := false, oinf := false, drop := false,
    buserr := false, errcode := none }

/-- The state after reset (R300, R40). The model's own fields: no turn is pending, nothing has been
answered, nothing has been drawn (DESIGN CHOICE, log 1, log 2, log 3). -/
def State.reset : State where
  x := Vector.replicate 16 0#256
  pt := Vector.replicate 8 .empty
  curveP := Config.secpP
  curveA := Config.secpA
  curveB := Config.secpB
  curveGX := Config.secpGX
  curveGY := Config.secpGY
  curveN := Config.secpN
  nvalid := true
  modulus := 0#256
  ctrl := { ie := false, nsrc := false }
  status := Status.reset
  errcmd := 0#32
  olen := 0#7
  obuf := Vector.replicate 72 0#8
  engine := .idle
  turns := []
  responses := []
  drawn := 0

end Sys2Proof.Machine
end

