-- ==== Sys2Proof/Machine/Arith.lean ====
section
/-! DEFINITION. The arithmetic and byte-string primitives of spec/00_scope.md R9, R11, R12, exact on
unbounded integers, and the limb views of a W-bit register (spec/10_state.md R48). -/

namespace Sys2Proof.Machine

/-- `v mod m` of an exact integer, also a negative one: the representative in [0, m) (R11). -/
def imod (v : Int) (m : Nat) : Nat := (v % (m : Int)).toNat

/-- The extended Euclidean iteration on remainders and coefficients; the coefficients are kept as residues
mod `m`. `fuel` bounds the number of divisions; `r1` many always suffice. The method is unobservable (R11, R153; log 11). -/
def egcd (m : Nat) : (fuel : Nat) → (r0 r1 t0 t1 : Nat) → Nat
  | 0, _, _, t0, _ => t0
  | fuel + 1, r0, r1, t0, t1 =>
    if r1 = 0 then t0
    else egcd m fuel r1 (r0 % r1) t1 ((t0 + (m - (r0 / r1 * t1) % m)) % m)

/-- The unique inverse of a unit `a` mod `m` (R11). -/
def inverse (a m : Nat) : Nat := egcd m (m + 1) m (a % m) 0 1

/-- `ModInv(a, m)`: E_NOT_INVERTIBLE unless gcd(a mod m, m) = 1, and otherwise the unique v in [1, m)
with (a * v) mod m = 1 (R11). -/
def modInv (a m : Nat) : Except ErrCode Nat :=
  if Nat.gcd (a % m) m = 1 then .ok (inverse a m) else .error .notInvertible

/-- Repeated squaring: `acc * b ^ e mod m`; `fuel` of at least bitlen(e) suffices (spec/40_field.md R148). -/
def powLoop (m : Nat) : (fuel : Nat) → (b e acc : Nat) → Nat
  | 0, _, _, acc => acc
  | fuel + 1, b, e, acc =>
    if e = 0 then acc
    else powLoop m fuel (b * b % m) (e / 2) (if e % 2 = 1 then acc * b % m else acc)

/-- `b ^ e mod m`, with b ^ 0 = 1 for every b (R148). -/
def powMod (b e m : Nat) : Nat := powLoop m e (b % m) e (1 % m)

/-- `be(v, L)`: the L-byte big-endian representation, zero-padded on the left (R12). -/
def be (v : Nat) : (len : Nat) → List Byte
  | 0 => []
  | len + 1 => BitVec.ofNat 8 (v / 256 ^ len) :: be v len

/-- The integer a big-endian byte string stands for: what `be` and `minbe` represent (R12). -/
def bytesValue (bs : List Byte) : Nat := bs.foldl (fun acc b => acc * 256 + b.toNat) 0

/-- `minbe(v)` of a register value: the big-endian bytes with leading zero bytes stripped; one zero byte
for v = 0 (R12, spec/44_serialize.md R251). -/
def minbe (v : Word) : List Byte :=
  match (be v.toNat 32).dropWhile (· = 0#8) with
  | [] => [0#8]
  | bs => bs

/-- Limb j of a W-bit register: bits [32j+31:32j] (R48). -/
def getLimb (v : Word) (j : Fin 8) : BusWord := v.extractLsb' (32 * j.val) 32

/-- A W-bit register with limb j replaced and the other 224 bits unchanged (R48). -/
def setLimb (v : Word) (j : Fin 8) (l : BusWord) : Word :=
  (v &&& ~~~((0xFFFFFFFF#256) <<< (32 * j.val))) ||| ((l.setWidth 256) <<< (32 * j.val))

end Sys2Proof.Machine
end

