-- ==== Sys2Proof/Machine/Ops.lean ====
section
/-! DEFINITION. The shared operations on registers: the one home of every register read and write by a
command, the completion step with its error entry, the recovery from an error, and the reset. -/

namespace Sys2Proof.Machine

/-! ### Integer and point registers -/

/-- x[i] as an exact unsigned integer (spec/00_scope.md R9, R10). -/
def State.getX (s : State) (i : XReg) : Nat := s.x[i].toNat

/-- `x[i] <- v`; every rule shows that v fits (R9). -/
def State.setX (s : State) (i : XReg) (v : Nat) : State :=
  { s with x := s.x.set i.val (BitVec.ofNat 256 v) }

/-- A point value as a register value (spec/10_state.md R45). -/
def Point.toReg : Point → PointReg
  | .inf => .inf
  | .aff x y => .aff (BitVec.ofNat 256 x) (BitVec.ofNat 256 y)

/-- `pt[i] <- V` (R10). -/
def State.setPt (s : State) (i : PReg) (v : Point) : State :=
  { s with pt := s.pt.set i.val v.toReg }

/-- What a curve write leaves of a point register: AFF becomes EMPTY, INF and EMPTY stay (R43). -/
def PointReg.invalidate : PointReg → PointReg
  | .empty => .empty
  | .inf => .inf
  | .aff _ _ => .empty

/-- Every AFF point register becomes EMPTY (R43). -/
def State.invalidatePoints (s : State) : State :=
  { s with pt := Vector.ofFn fun i => s.pt[i].invalidate }

/-- All 72 bytes of OBUF set to 0, then a byte string written from OBUF[0] on (R49). -/
def fillObuf (out : List Byte) : Vector Byte 72 :=
  ⟨((out ++ List.replicate 72 0#8).take 72).toArray, by simp⟩

/-- OBUF and OLEN receive a byte string (R49). -/
def State.setOutput (s : State) (out : List Byte) : State :=
  { s with obuf := fillObuf out, olen := BitVec.ofNat 7 out.length }

/-! ### Completion, error entry and recovery -/

/-- The end of every command: BUSY clear, DONE set, engine IDLE (spec/60_exceptions.md R274). -/
def State.finish (s : State) : State :=
  { s with engine := .idle, status := { s.status with done := true } }

/-- The command word in execution, as ERRCMD receives it (R275). An IDLE engine holds none and never
completes a command, so ERRCMD keeps its value there (DESIGN CHOICE, safe, log 12). -/
def State.wordForErrcmd (s : State) : BusWord :=
  match s.engine with
  | .busy w => w
  | .idle => s.errcmd

/-- Error entry, the block's one exception (R275): ERR, ERRCODE and ERRCMD, then the end of the command;
nothing else is written. -/
def State.errorEntry (s : State) (c : ErrCode) : State :=
  { s with
    status := { s.status with err := true, errcode := some c }
    errcmd := s.wordForErrcmd }.finish

/-- Error recovery, the return from it (R276, spec/10_state.md R37): clearing ERR sets ERRCODE to 0x00 and
changes nothing else. -/
def Status.clearErr (st : Status) : Status := { st with err := false, errcode := none }

/-- The completion step of a command whose execution gives either the state with its writes or an error
code (R271, R274). -/
def complete (s : State) (outcome : Except ErrCode State) : Host.Outcome State Fault Refusal :=
  match outcome with
  | .ok t => .next t.finish
  | .error c => .next (s.errorEntry c)

/-! ### Reset -/

/-- Hardware and soft reset (spec/70_reset_and_hazards.md R300): every piece of state of the block takes its
reset value. The host side of the model goes on: its turns, its answers, and the count of draws (log 5). -/
def State.doReset (s : State) : State :=
  { State.reset with turns := s.turns, responses := s.responses, drawn := s.drawn }

end Sys2Proof.Machine
end

