-- ==== Sys2Proof/Machine/Flags.lean ====
section
/-! DEFINITION. The flags: the result flags EQ, VOK and OINF (spec/10_state.md R50), the sticky host flags
DROP and BUSERR, the STATUS and CTRL words, the write-1-to-clear rule, and the interrupt output. -/

namespace Sys2Proof.Machine

/-- `STATUS.EQ <- b` (spec/40_field.md R149, spec/41_point.md R176). -/
def State.setEQ (s : State) (b : Bool) : State :=
  { s with status := { s.status with eq := b } }

/-- `STATUS.VOK <- b` (spec/43_ecdsa.md R230). -/
def State.setVOK (s : State) (b : Bool) : State :=
  { s with status := { s.status with vok := b } }

/-- `STATUS.OINF <- b` (spec/44_serialize.md R250, R253). -/
def State.setOINF (s : State) (b : Bool) : State :=
  { s with status := { s.status with oinf := b } }

/-- `STATUS.DROP <- 1` (spec/20_memory.md R86). -/
def State.setDrop (s : State) : State :=
  { s with status := { s.status with drop := true } }

/-- `STATUS.BUSERR <- 1` (spec/20_memory.md R83, R84). -/
def State.setBusErr (s : State) : State :=
  { s with status := { s.status with buserr := true } }

/-- STATUS.BUSY reads 1 exactly when the engine is BUSY (R51). -/
def State.busy (s : State) : Bool :=
  match s.engine with
  | .busy _ => true
  | .idle => false

/-- The numeric error codes (spec/60_exceptions.md R270). -/
def ErrCode.code : ErrCode → Byte
  | .illegal => 0x01#8
  | .badModulus => 0x02#8
  | .noOrder => 0x03#8
  | .range => 0x04#8
  | .notInvertible => 0x05#8
  | .notOnCurve => 0x06#8
  | .emptyPoint => 0x07#8
  | .infOperand => 0x08#8
  | .keyRange => 0x09#8
  | .nonce => 0x0A#8

/-- STATUS.ERRCODE: 0x00 when no error is latched (R270). -/
def Status.errByte (st : Status) : Byte :=
  match st.errcode with
  | none => 0x00#8
  | some c => c.code

/-- One bit at a bit position of a host word. -/
def bitAt (b : Bool) (k : Nat) : BusWord := (BitVec.ofBool b).setWidth 32 <<< k

/-- The STATUS word as the host reads it (R36); bits [31:16] read 0. -/
def State.statusWord (s : State) : BusWord :=
  bitAt s.busy 0 ||| bitAt s.status.done 1 ||| bitAt s.status.err 2 ||| bitAt s.status.eq 3 |||
  bitAt s.status.vok 4 ||| bitAt s.status.oinf 5 ||| bitAt s.status.drop 6 |||
  bitAt s.status.buserr 7 ||| (s.status.errByte.setWidth 32 <<< 8)

/-- The CTRL word as the host reads it (R34); SRST and the reserved bits read 0. -/
def Ctrl.word (c : Ctrl) : BusWord := bitAt c.ie 0 ||| bitAt c.nsrc 1

/-- CTRL from a written word with bit 2 = 0; reserved bits are ignored (R34). -/
def Ctrl.ofWord (v : BusWord) : Ctrl := { ie := v.getLsbD 0, nsrc := v.getLsbD 1 }

/-- A host write of v to STATUS (R37): each of bits 1, 2, 6, 7 that is 1 clears its flag; clearing ERR is
the error recovery of R276; all other bits are ignored. -/
def Status.clear (st : Status) (v : BusWord) : Status :=
  let st := if v.getLsbD 1 then { st with done := false } else st
  let st := if v.getLsbD 2 then st.clearErr else st
  let st := if v.getLsbD 6 then { st with drop := false } else st
  if v.getLsbD 7 then { st with buserr := false } else st

/-- The interrupt output IRQ = CTRL.IE AND STATUS.DONE, a level (spec/60_exceptions.md R283). -/
def State.irq (s : State) : Bool := s.ctrl.ie && s.status.done

end Sys2Proof.Machine
end

