-- ==== Sys2Proof/Machine/Operands.lean ====
section
/-! DEFINITION. How a command reads its operands and checks its configuration: SelMod, Elem, ReadPt,
CurveOK, GenOK, OrderOK and OnCurve, each with the error it raises (spec/40_field.md R140, R141, R150,
spec/41_point.md R170, R171, R177, spec/42_scalar.md R202). -/

namespace Sys2Proof.Machine

/-- `FieldOK(m)`: a legal modulus is greater than 2 (R140); no primality check. -/
def fieldOK (m : Nat) : Except ErrCode Unit :=
  if m ≤ 2 then .error .badModulus else .ok ()

/-- `SelMod(MS)`: the modulus of a field command (R141). -/
def selMod (s : State) : ModSel → Except ErrCode Nat
  | .m => do fieldOK s.modulus.toNat; return s.modulus.toNat
  | .p => do fieldOK s.curveP.toNat; return s.curveP.toNat
  | .n =>
    if s.nvalid = false then .error .noOrder
    else do fieldOK s.curveN.toNat; return s.curveN.toNat

/-- `Elem(v, m)`: v as a field element; a value not below m is refused, never reduced (R150). -/
def elem (v m : Nat) : Except ErrCode Nat :=
  if m ≤ v then .error .range else .ok v

/-- `ReadPt(i)`: an EMPTY register is no operand (R177). -/
def readPt (s : State) (i : PReg) : Except ErrCode Point :=
  match s.pt[i] with
  | .empty => .error .emptyPoint
  | .inf => .ok .inf
  | .aff x y => .ok (.aff x.toNat y.toNat)

/-- `OnCurve(x, y)`: (y^2 - (x^3 + A x + B)) mod CURVE_P = 0, computed exactly (R170). -/
def onCurve (s : State) (x y : Nat) : Bool :=
  imod ((y : Int) ^ 2 - ((x : Int) ^ 3 + s.curveA.toNat * x + s.curveB.toNat)) s.curveP.toNat = 0

/-- `CurveOK()` (R171). -/
def curveOK (s : State) : Except ErrCode Unit := do
  fieldOK s.curveP.toNat
  let _ ← elem s.curveA.toNat s.curveP.toNat
  let _ ← elem s.curveB.toNat s.curveP.toNat

/-- `GenOK()`: the checked generator, an affine point (R171). -/
def genOK (s : State) : Except ErrCode Point := do
  curveOK s
  let gx ← elem s.curveGX.toNat s.curveP.toNat
  let gy ← elem s.curveGY.toNat s.curveP.toNat
  if onCurve s gx gy then .ok (.aff gx gy) else .error .notOnCurve

/-- `OrderOK()`: the known group order n (R202). -/
def orderOK (s : State) : Except ErrCode Nat :=
  if s.nvalid = false then .error .noOrder
  else if s.curveN.toNat ≤ 2 then .error .badModulus
  else .ok s.curveN.toNat

end Sys2Proof.Machine
end

