-- ==== Sys2Proof/Machine/Group.lean ====
section
/-! DEFINITION. The group law (spec/41_point.md R180) and the scalar multiplier (spec/42_scalar.md R200), step
by step as their pseudocode, over CURVE_P = p and CURVE_A = a. -/

namespace Sys2Proof.Machine

/-- The third point of a line of slope `lam` through (x1, y1), mirrored: x3 = lam^2 - x1 - x2 and
y3 = lam (x1 - x3) - y1, mod p (R180). -/
def thirdPoint (p lam x1 y1 x2 : Nat) : Point :=
  let x3 := imod ((lam : Int) ^ 2 - x1 - x2) p
  let y3 := imod (lam * ((x1 : Int) - x3) - y1) p
  .aff x3 y3

/-- `PointDouble(V)` (R180). -/
def pointDouble (p a : Nat) : Point → Except ErrCode Point
  | .inf => .ok .inf
  | .aff x1 y1 =>
    if y1 = 0 then .ok .inf
    else do
      let inv ← modInv ((2 * y1) % p) p
      let lam := ((3 * x1 ^ 2 + a) % p * inv) % p
      return thirdPoint p lam x1 y1 x1

/-- `PointAdd(V1, V2)` (R180). -/
def pointAdd (p a : Nat) : Point → Point → Except ErrCode Point
  | .inf, v2 => .ok v2
  | .aff x1 y1, .inf => .ok (.aff x1 y1)
  | .aff x1 y1, .aff x2 y2 =>
    if x1 = x2 ∧ y1 = y2 then pointDouble p a (.aff x1 y1)
    else if x1 = x2 then .ok .inf
    else do
      let inv ← modInv (imod ((x2 : Int) - x1) p) p
      let lam := (imod ((y2 : Int) - y1) p * inv) % p
      return thirdPoint p lam x1 y1 x2

/-- `if k[0] = 1 then result <- PointAdd(result, current)` (R200). -/
def addIfOdd (p a k : Nat) (result current : Point) : Except ErrCode Point :=
  if k % 2 = 1 then pointAdd p a result current else .ok result

/-- The double-and-add loop from the least-significant bit, the doubling of the last iteration included
(R200). It runs bitlen(k) times; `fuel` of at least bitlen(k) suffices. -/
def scalarLoop (p a : Nat) : (fuel : Nat) → (k : Nat) → (result current : Point) → Except ErrCode Point
  | 0, _, result, _ => .ok result
  | fuel + 1, k, result, current =>
    if k = 0 then .ok result
    else do
      let result ← addIfOdd p a k result current
      let current ← pointAdd p a current current
      scalarLoop p a fuel (k / 2) result current

/-- The scalar as the loop uses it: reduced mod CURVE_N when the order is known and V is not INF (R200). -/
def reduceScalar (s : State) (k : Nat) (v : Point) : Except ErrCode Nat :=
  if s.nvalid = true ∧ v ≠ .inf then
    if s.curveN.toNat ≤ 2 then .error .badModulus else .ok (k % s.curveN.toNat)
  else .ok k

/-- `ScalarMul(k, V)` (R200). -/
def scalarMul (s : State) (k : Nat) (v : Point) : Except ErrCode Point := do
  let k ← reduceScalar s k v
  scalarLoop s.curveP.toNat s.curveA.toNat k k .inf v

end Sys2Proof.Machine
end

