-- ==== Sys2Proof/Machine/Scalar.lean ====
section
/-! DEFINITION. The scalar commands (spec/42_scalar.md R203, R204). -/

namespace Sys2Proof.Machine

/-- PMUL (R203): any 256-bit scalar is accepted. -/
def execPmul (pd pa : PReg) (xk : XReg) (s : State) : Host.Outcome State Fault Refusal :=
  complete s (do
    let v ← readPt s pa
    let r ← scalarMul s (s.getX xk) v
    return s.setPt pd r)

/-- A secret lies in [1, n - 1], or E_KEY_RANGE (R204, spec/43_ecdsa.md R222). -/
def secretOK (d n : Nat) : Except ErrCode Unit :=
  if d = 0 ∨ n ≤ d then .error .keyRange else .ok ()

/-- KEYGEN (R204). -/
def execKeygen (pd : PReg) (xs : XReg) (s : State) : Host.Outcome State Fault Refusal :=
  complete s (do
    let n ← orderOK s
    let g ← genOK s
    secretOK (s.getX xs) n
    let r ← scalarMul s (s.getX xs) g
    return s.setPt pd r)

end Sys2Proof.Machine
end

