-- ==== Sys2Proof/Machine/Ecdsa.lean ====
section
/-! DEFINITION. The ECDSA engines (spec/43_ecdsa.md R220 to R223, R230). The internal nonces are the free values
of Config, one per draw, indexed by the count of draws in State (spec/10_state.md R52; log 2). -/

namespace Sys2Proof.Machine

/-- `draw_nonce(n)`: the i-th draw, some value in [1, n - 1] (spec/00_scope.md R6). -/
def drawNonce (n i : Nat) : Nat := 1 + Config.nonceRaw i % (n - 1)

/-- Low-S: s above floor(n / 2) is replaced by n - s (R223). -/
def lowS (n s : Nat) : Nat := if n / 2 < s then n - s else s

/-- One pass of the sign loop for one nonce (R222): a signature (r, s), or `none` where the nonce is rejected. -/
def signOnce (st : State) (n : Nat) (g : Point) (z d k : Nat) : Except ErrCode (Option (Nat × Nat)) := do
  match ← scalarMul st k g with
  | .inf => return none
  | .aff rx _ =>
    let r := rx % n
    if r = 0 then return none
    else
      let inv ← modInv k n
      let s := inv * ((z + r * d) % n) % n
      if s = 0 then return none
      else return some (r, lowS n s)

/-- The loop over internal draws (R221, R222): draws number i, i+1, ... are tried, at most `tries` of them; when
every one is rejected, E_NONCE. It also answers how many were drawn in all. -/
def signLoop (attempt : Nat → Except ErrCode (Option (Nat × Nat))) (draw : Nat → Nat) :
    (tries : Nat) → (i : Nat) → Except ErrCode (Nat × Nat) × Nat
  | 0, i => (.error .nonce, i)
  | tries + 1, i =>
    match attempt (draw i) with
    | .error e => (.error e, i + 1)
    | .ok (some sig) => (.ok sig, i + 1)
    | .ok none => signLoop attempt draw tries (i + 1)

/-- The host-supplied nonce (R221): out of [1, n - 1] or rejected gives E_NONCE, with no retry. -/
def signHost (attempt : Nat → Except ErrCode (Option (Nat × Nat))) (n k : Nat) : Except ErrCode (Nat × Nat) :=
  if k = 0 ∨ n ≤ k then .error .nonce
  else do
    match ← attempt k with
    | some sig => return sig
    | none => .error .nonce

/-- The checks of ESIGN before any nonce is used, in order (R222): n and G. -/
def signChecks (d : Nat) (s : State) : Except ErrCode (Nat × Point) := do
  let n ← orderOK s
  let g ← genOK s
  secretOK d n
  return (n, g)

/-- The signature ESIGN computes, and the count of draws after it (R221, R222). -/
def signature (z d k : Nat) (s : State) : Except ErrCode (Nat × Nat) × Nat :=
  match signChecks d s with
  | .error e => (.error e, s.drawn)
  | .ok (n, g) =>
    if s.ctrl.nsrc then (signHost (signOnce s n g z d) n k, s.drawn)
    else signLoop (signOnce s n g z d) (drawNonce n) Config.nonceRetryMax s.drawn

/-- ESIGN (R222). The draws count as made whether or not the command ends in an error (log 2). -/
def execEsign (xr xs xz xd xk : XReg) (s : State) : Host.Outcome State Fault Refusal :=
  match signature (s.getX xz) (s.getX xd) (s.getX xk) s with
  | (sig, drawn) =>
    complete { s with drawn := drawn } (do
      let (r, v) ← sig
      return ({ s with drawn := drawn }.setX xr r).setX xs v)

/-- The verification of R230 once Q, n and G are there: is (r, sv) a signature of z under Q? -/
def verifySig (st : State) (n : Nat) (g q : Point) (z r sv : Nat) : Except ErrCode Bool :=
  let s1 := sv % n
  if Nat.gcd s1 n ≠ 1 then .ok false
  else do
    let w ← modInv s1 n
    let u := z * w % n
    let v := r * w % n
    let t1 ← scalarMul st u g
    let t2 ← scalarMul st v q
    match ← pointAdd st.curveP.toNat st.curveA.toNat t1 t2 with
    | .inf => return false
    | .aff tx _ => return decide (tx % n = r % n)

/-- EVERIFY (R230): a signature that fails verification is no error. -/
def execEverify (xz xr xs : XReg) (pq : PReg) (s : State) : Host.Outcome State Fault Refusal :=
  complete s (do
    let q ← readPt s pq
    let n ← orderOK s
    let g ← genOK s
    let ok ← verifySig s n g q (s.getX xz) (s.getX xr) (s.getX xs)
    return s.setVOK ok)

end Sys2Proof.Machine
end

