-- ==== Sys2Proof/Machine/Field.lean ====
section
/-! DEFINITION. The field commands (spec/40_field.md R142 to R149). Check order (R152): SelMod, Elem of F2, Elem
of F3, the arithmetic; one destination register, or STATUS.EQ for FEQ. -/

namespace Sys2Proof.Machine

/-- A field command over one range-checked operand F2 that writes `f m a` to its destination (R152). -/
def fieldUnary (s : State) (ms : ModSel) (xd xa : XReg) (f : Nat → Nat → Except ErrCode Nat) :
    Host.Outcome State Fault Refusal :=
  complete s (do
    let m ← selMod s ms
    let a ← elem (s.getX xa) m
    let r ← f m a
    return s.setX xd r)

/-- A field command over two range-checked operands F2, F3 that writes `f m a b` to its destination (R152). -/
def fieldBinary (s : State) (ms : ModSel) (xd xa xb : XReg) (f : Nat → Nat → Nat → Except ErrCode Nat) :
    Host.Outcome State Fault Refusal :=
  complete s (do
    let m ← selMod s ms
    let a ← elem (s.getX xa) m
    let b ← elem (s.getX xb) m
    let r ← f m a b
    return s.setX xd r)

/-- FRED (R142): the one command that reduces an arbitrary value. -/
def execFred (ms : ModSel) (xd xa : XReg) (s : State) : Host.Outcome State Fault Refusal :=
  complete s (do
    let m ← selMod s ms
    return s.setX xd (s.getX xa % m))

/-- FADD (R143). -/
def execFadd (ms : ModSel) (xd xa xb : XReg) (s : State) : Host.Outcome State Fault Refusal :=
  fieldBinary s ms xd xa xb fun m a b => .ok ((a + b) % m)

/-- FSUB (R144). -/
def execFsub (ms : ModSel) (xd xa xb : XReg) (s : State) : Host.Outcome State Fault Refusal :=
  fieldBinary s ms xd xa xb fun m a b => .ok (imod ((a : Int) - b) m)

/-- FMUL (R145): the product for every legal modulus, even or odd (R153). -/
def execFmul (ms : ModSel) (xd xa xb : XReg) (s : State) : Host.Outcome State Fault Refusal :=
  fieldBinary s ms xd xa xb fun m a b => .ok (a * b % m)

/-- FDIV (R146). -/
def execFdiv (ms : ModSel) (xd xa xb : XReg) (s : State) : Host.Outcome State Fault Refusal :=
  fieldBinary s ms xd xa xb fun m a b => do
    let v ← modInv b m
    return a * v % m

/-- FINV (R147). -/
def execFinv (ms : ModSel) (xd xa : XReg) (s : State) : Host.Outcome State Fault Refusal :=
  fieldUnary s ms xd xa fun m a => modInv a m

/-- FPOW (R148): the exponent is an element too, used as a non-negative integer. -/
def execFpow (ms : ModSel) (xd xa xb : XReg) (s : State) : Host.Outcome State Fault Refusal :=
  fieldBinary s ms xd xa xb fun m a e => .ok (powMod a e m)

/-- FEQ (R149). -/
def execFeq (ms : ModSel) (xa xb : XReg) (s : State) : Host.Outcome State Fault Refusal :=
  complete s (do
    let m ← selMod s ms
    let a ← elem (s.getX xa) m
    let b ← elem (s.getX xb) m
    return s.setEQ (decide (a = b)))

end Sys2Proof.Machine
end

