-- ==== Sys2Proof/Machine/PointOps.lean ====
section
/-! DEFINITION. The point commands (spec/41_point.md R172 to R176, R181, R182). Check order (R179): ReadPt in
field order, configuration, Elem, the command's own checks, the arithmetic. -/

namespace Sys2Proof.Machine

/-- PSET (R172). -/
def execPset (pd : PReg) (xx xy : XReg) (s : State) : Host.Outcome State Fault Refusal :=
  complete s (do
    curveOK s
    let x ← elem (s.getX xx) s.curveP.toNat
    let y ← elem (s.getX xy) s.curveP.toNat
    if onCurve s x y then return s.setPt pd (.aff x y)
    else .error .notOnCurve)

/-- PINF (R173): no check beyond decode. -/
def execPinf (pd : PReg) (s : State) : Host.Outcome State Fault Refusal :=
  complete s (.ok (s.setPt pd .inf))

/-- PGEN (R174). -/
def execPgen (pd : PReg) (s : State) : Host.Outcome State Fault Refusal :=
  complete s (do
    let g ← genOK s
    return s.setPt pd g)

/-- PGET (R175): INF has no coordinates. -/
def execPget (xd xe : XReg) (ps : PReg) (s : State) : Host.Outcome State Fault Refusal :=
  complete s (do
    match ← readPt s ps with
    | .inf => .error .infOperand
    | .aff x y => return (s.setX xd x).setX xe y)

/-- PEQ (R176). -/
def execPeq (pa pb : PReg) (s : State) : Host.Outcome State Fault Refusal :=
  complete s (do
    let v1 ← readPt s pa
    let v2 ← readPt s pb
    return s.setEQ (decide (v1 = v2)))

/-- PADD, the point adder (R181). -/
def execPadd (pd pa pb : PReg) (s : State) : Host.Outcome State Fault Refusal :=
  complete s (do
    let v1 ← readPt s pa
    let v2 ← readPt s pb
    let v ← pointAdd s.curveP.toNat s.curveA.toNat v1 v2
    return s.setPt pd v)

/-- PDBL, the point doubler (R182). -/
def execPdbl (pd pa : PReg) (s : State) : Host.Outcome State Fault Refusal :=
  complete s (do
    let v1 ← readPt s pa
    let v ← pointDouble s.curveP.toNat s.curveA.toNat v1
    return s.setPt pd v)

end Sys2Proof.Machine
end

