-- ==== Sys2Proof/Machine/Serialize.lean ====
section
/-! DEFINITION. The DER signature encoder and the SEC point encoder (spec/44_serialize.md R250 to R257). -/

namespace Sys2Proof.Machine

/-- The content bytes of a DER INTEGER: minimal big-endian, a 0x00 in front where the high bit is set (R250). -/
def derInt (v : Word) : List Byte :=
  match minbe v with
  | [] => []
  | b :: bs => if 0x80 ≤ b.toNat then 0x00#8 :: b :: bs else b :: bs

/-- A tag byte, a one-byte length, and the content (R250, R252: the short length form always applies). -/
def derTlv (tag : Byte) (content : List Byte) : List Byte :=
  tag :: BitVec.ofNat 8 content.length :: content

/-- The DER string of a signature (R250). -/
def derSignature (r s : Word) : List Byte :=
  derTlv 0x30#8 (derTlv 0x02#8 (derInt r) ++ derTlv 0x02#8 (derInt s))

/-- The SEC string of an affine point: uncompressed (R254) or compressed (R256), coordinates always 32
bytes wide (R257). -/
def secPoint (compressed : Bool) (x y : Nat) : List Byte :=
  if compressed then BitVec.ofNat 8 (0x02 + y % 2) :: be x 32
  else 0x04#8 :: be x 32 ++ be y 32

/-- DERENC (R250): no range check and no error. -/
def execDerenc (xr xs : XReg) (s : State) : Host.Outcome State Fault Refusal :=
  complete s (.ok ((s.setOutput (derSignature s.x[xr.val] s.x[xs.val])).setOINF false))

/-- SECENC (R253): INF gives OLEN = 0 and OINF = 1, no error (R255). -/
def execSecenc (compressed : Bool) (pp : PReg) (s : State) : Host.Outcome State Fault Refusal :=
  complete s (do
    match ← readPt s pp with
    | .inf => return (s.setOutput []).setOINF true
    | .aff x y => return (s.setOutput (secPoint compressed x y)).setOINF false)

end Sys2Proof.Machine
end

