-- ==== Sys2Proof/Machine/Dispatch.lean ====
section
/-! DEFINITION. The one dispatch from a command to its meaning (spec/60_exceptions.md R271, R274). -/

namespace Sys2Proof.Machine

def exec (i : Instr) (s : State) : Host.Outcome State Fault Refusal :=
  match i with
  | .fred ms xd xa => Sys2Proof.Machine.execFred ms xd xa s
  | .fadd ms xd xa xb => Sys2Proof.Machine.execFadd ms xd xa xb s
  | .fsub ms xd xa xb => Sys2Proof.Machine.execFsub ms xd xa xb s
  | .fmul ms xd xa xb => Sys2Proof.Machine.execFmul ms xd xa xb s
  | .fdiv ms xd xa xb => Sys2Proof.Machine.execFdiv ms xd xa xb s
  | .finv ms xd xa => Sys2Proof.Machine.execFinv ms xd xa s
  | .fpow ms xd xa xb => Sys2Proof.Machine.execFpow ms xd xa xb s
  | .feq ms xa xb => Sys2Proof.Machine.execFeq ms xa xb s
  | .pset pd xx xy => Sys2Proof.Machine.execPset pd xx xy s
  | .pinf pd => Sys2Proof.Machine.execPinf pd s
  | .pgen pd => Sys2Proof.Machine.execPgen pd s
  | .pget xd xe ps => Sys2Proof.Machine.execPget xd xe ps s
  | .peq pa pb => Sys2Proof.Machine.execPeq pa pb s
  | .padd pd pa pb => Sys2Proof.Machine.execPadd pd pa pb s
  | .pdbl pd pa => Sys2Proof.Machine.execPdbl pd pa s
  | .pmul pd pa xk => Sys2Proof.Machine.execPmul pd pa xk s
  | .keygen pd xs => Sys2Proof.Machine.execKeygen pd xs s
  | .esign xr xs xz xd xk => Sys2Proof.Machine.execEsign xr xs xz xd xk s
  | .everify xz xr xs pq => Sys2Proof.Machine.execEverify xz xr xs pq s
  | .derenc xr xs => Sys2Proof.Machine.execDerenc xr xs s
  | .secenc compressed pp => Sys2Proof.Machine.execSecenc compressed pp s

end Sys2Proof.Machine
end

