-- ==== Sys2Proof/Machine/Window.lean ====
section
/-! DEFINITION. The register window: what stands at an offset (spec/10_state.md R54), and what a host access
does (spec/20_memory.md R81 to R87, spec/60_exceptions.md R272). Also which agent moves next (R89, R274). -/

namespace Sys2Proof.Machine

/-- The six W-bit curve registers (spec/10_state.md R40). -/
inductive CurveReg where
  | p | a | b | gx | gy | n
deriving DecidableEq, Repr

/-- A mapped word of the register window (R54). -/
inductive Loc where
  | id
  | cfg
  | ctrl
  | status
  | cmd
  | errcmd
  | olen
  | obuf (k : Fin 18)
  | curve (r : CurveReg) (j : Fin 8)
  | nvalid
  | modulus (j : Fin 8)
  | x (i : Fin 16) (j : Fin 8)
  | ptTag (i : Fin 8)
  | ptX (i : Fin 8) (j : Fin 8)
  | ptY (i : Fin 8) (j : Fin 8)
deriving DecidableEq, Repr

/-- The curve registers in window order (R54). -/
def CurveReg.ofIndex (k : Nat) : CurveReg :=
  match k with
  | 0 => .p
  | 1 => .a
  | 2 => .b
  | 3 => .gx
  | 4 => .gy
  | _ => .n

/-- The place of a curve register in window order (R54). -/
def CurveReg.index : CurveReg → Nat
  | .p => 0
  | .a => 1
  | .b => 2
  | .gx => 3
  | .gy => 4
  | .n => 5

/-- The limb an offset names in a W-bit register that starts at a multiple of 0x20 (R48). -/
def limbAt (off : Nat) : Fin 8 := Fin.ofNat 8 (off % 0x20 / 4)

/-- The mapped word of a point register at its 128-byte block offset (spec/10_state.md R46). -/
def locatePt (i : Fin 8) (o : Nat) : Option Loc :=
  if o = 0 then some (.ptTag i)
  else if 0x20 ≤ o ∧ o < 0x40 then some (.ptX i (limbAt o))
  else if 0x40 ≤ o ∧ o < 0x60 then some (.ptY i (limbAt o))
  else none

/-- The register map (R54): the mapped word at a word-aligned offset, or `none` where it is unmapped. -/
def locate (offset : Offset) : Option Loc :=
  let off := offset.toNat
  if off = 0x000 then some .id
  else if off = 0x004 then some .cfg
  else if off = 0x008 then some .ctrl
  else if off = 0x00C then some .status
  else if off = 0x010 then some .cmd
  else if off = 0x014 then some .errcmd
  else if off = 0x018 then some .olen
  else if 0x100 ≤ off ∧ off < 0x148 then some (.obuf (Fin.ofNat 18 ((off - 0x100) / 4)))
  else if 0x200 ≤ off ∧ off < 0x2C0 then some (.curve (.ofIndex ((off - 0x200) / 0x20)) (limbAt off))
  else if off = 0x2C0 then some .nvalid
  else if 0x2E0 ≤ off ∧ off < 0x300 then some (.modulus (limbAt off))
  else if 0x400 ≤ off ∧ off < 0x600 then some (.x (Fin.ofNat 16 ((off - 0x400) / 0x20)) (limbAt off))
  else if 0x800 ≤ off ∧ off < 0xC00 then locatePt (Fin.ofNat 8 ((off - 0x800) / 0x80)) (off % 0x80)
  else none

/-- The offset of a mapped word (R54). -/
def Loc.offset : Loc → Offset
  | .id => 0x000#12
  | .cfg => 0x004#12
  | .ctrl => 0x008#12
  | .status => 0x00C#12
  | .cmd => 0x010#12
  | .errcmd => 0x014#12
  | .olen => 0x018#12
  | .obuf k => BitVec.ofNat 12 (0x100 + 4 * k.val)
  | .curve r j => BitVec.ofNat 12 (0x200 + 0x20 * r.index + 4 * j.val)
  | .nvalid => 0x2C0#12
  | .modulus j => BitVec.ofNat 12 (0x2E0 + 4 * j.val)
  | .x i j => BitVec.ofNat 12 (0x400 + 0x20 * i.val + 4 * j.val)
  | .ptTag i => BitVec.ofNat 12 (0x800 + 0x80 * i.val)
  | .ptX i j => BitVec.ofNat 12 (0x800 + 0x80 * i.val + 0x20 + 4 * j.val)
  | .ptY i j => BitVec.ofNat 12 (0x800 + 0x80 * i.val + 0x40 + 4 * j.val)

/-! ### Reads -/

/-- A curve register (R40). -/
def State.getCurve (s : State) : CurveReg → Word
  | .p => s.curveP
  | .a => s.curveA
  | .b => s.curveB
  | .gx => s.curveGX
  | .gy => s.curveGY
  | .n => s.curveN

/-- TAG reads 0 for EMPTY, 1 for INF and 2 for AFF (R46). -/
def PointReg.tag : PointReg → BusWord
  | .empty => 0#32
  | .inf => 1#32
  | .aff _ _ => 2#32

/-- The X words read 0 unless the value is AFF (R46). -/
def PointReg.xWord : PointReg → Word
  | .aff x _ => x
  | .empty | .inf => 0#256

/-- The Y words read 0 unless the value is AFF (R46). -/
def PointReg.yWord : PointReg → Word
  | .aff _ y => y
  | .empty | .inf => 0#256

/-- OBUF word k: byte 4k in bits [7:0], and so on (R49). -/
def obufWord (b : Vector Byte 72) (k : Fin 18) : BusWord :=
  b[4 * k.val + 3]'(by omega) ++ b[4 * k.val + 2]'(by omega) ++
  b[4 * k.val + 1]'(by omega) ++ b[4 * k.val]'(by omega)

/-- What a host read of a mapped word returns (R54; CMD reads 0, R38). -/
def readLoc (s : State) : Loc → BusWord
  | .id => Config.idWord
  | .cfg => Config.cfgWord
  | .ctrl => s.ctrl.word
  | .status => s.statusWord
  | .cmd => 0#32
  | .errcmd => s.errcmd
  | .olen => s.olen.setWidth 32
  | .obuf k => obufWord s.obuf k
  | .curve r j => getLimb (s.getCurve r) j
  | .nvalid => bitAt s.nvalid 0
  | .modulus j => getLimb s.modulus j
  | .x i j => getLimb s.x[i.val] j
  | .ptTag i => s.pt[i.val].tag
  | .ptX i j => getLimb s.pt[i.val].xWord j
  | .ptY i j => getLimb s.pt[i.val].yWord j

/-! ### Writes -/

/-- A curve register replaced (R40). -/
def State.setCurve (s : State) (r : CurveReg) (v : Word) : State :=
  match r with
  | .p => { s with curveP := v }
  | .a => { s with curveA := v }
  | .b => { s with curveB := v }
  | .gx => { s with curveGX := v }
  | .gy => { s with curveGY := v }
  | .n => { s with curveN := v }

/-- A write to a command input: dropped while BUSY (R86). CURVE_NVALID counts as a curve register (R43; log 13). -/
def State.unlessBusy (s t : State) : State := if s.busy then s.setDrop else t

/-- A write to CMD: acceptance of the word as a command, or a drop while BUSY or ERR (R272). -/
def State.issue (s : State) (w : BusWord) : State :=
  if s.busy || s.status.err then s.setDrop
  else { s with engine := .busy w, status := { s.status with done := false } }

/-- A write to CTRL: SRST resets at any time and the other bits are ignored (R35); otherwise IE and NSRC,
dropped while BUSY (R34, R86). -/
def State.writeCtrl (s : State) (v : BusWord) : State :=
  if v.getLsbD 2 then s.doReset
  else s.unlessBusy { s with ctrl := Ctrl.ofWord v }

/-- What a supported host write of v to a mapped word does (R84, R86). -/
def writeLoc (s : State) (v : BusWord) : Loc → State
  | .ctrl => s.writeCtrl v
  | .status => { s with status := s.status.clear v }
  | .cmd => s.issue v
  | .curve r j => s.unlessBusy (s.setCurve r (setLimb (s.getCurve r) j v)).invalidatePoints
  | .nvalid => s.unlessBusy { s with nvalid := v.getLsbD 0 }.invalidatePoints
  | .modulus j => s.unlessBusy { s with modulus := setLimb s.modulus j v }
  | .x i j => s.unlessBusy { s with x := s.x.set i.val (setLimb s.x[i.val] j v) }
  | .id | .cfg | .errcmd | .olen | .obuf _ | .ptTag _ | .ptX _ _ | .ptY _ _ => s.setBusErr

/-! ### One host access -/

/-- The block answers a host read. -/
def State.respond (s : State) (v : BusWord) : State := { s with responses := v :: s.responses }

/-- A supported access: word-aligned, 32 bits wide, all four byte lanes (R81, R83). -/
def Access.supported (a : Access) : Bool :=
  a.off.toNat % 4 = 0 && a.width = 32 && a.lanes = 0xF#4

/-- An unsupported or unmapped access: BUSERR is set, a read returns 0, a write changes nothing else (R83, R84). -/
def State.badAccess (s : State) (op : AccessOp) : State :=
  match op with
  | .read => s.setBusErr.respond 0#32
  | .write _ => s.setBusErr

/-- One host access (R83, R84): the address and width check comes before the busy check. -/
def hostAccess (s : State) (a : Access) : State :=
  if a.supported then
    match locate a.off, a.op with
    | none, op => s.badAccess op
    | some l, .read => s.respond (readLoc s l)
    | some l, .write v => writeLoc s v l
  else s.badAccess a.op

/-! ### Whose turn it is -/

/-- What the next step does. -/
inductive Move where
  /-- The engine completes the command word w (R274). -/
  | command (w : BusWord)
  /-- The step ends here, with the state given beside it. -/
  | finished
deriving DecidableEq, Repr

/-- The engine's turn: a completion step exactly when it is BUSY (R274). -/
def State.engineTurn (s : State) : Move × State :=
  match s.engine with
  | .busy w => (.command w, s)
  | .idle => (.finished, s)

/-- The next move (R7, R89, R274): the oldest turn is taken; with no turn left, a BUSY engine completes (weak
fairness) and an IDLE one waits (R286). -/
def State.nextMove (s : State) : Move × State :=
  match s.turns with
  | [] => s.engineTurn
  | .engine :: rest => { s with turns := rest }.engineTurn
  | .host a :: rest => (.finished, hostAccess { s with turns := rest } a)
  | .reset :: rest => (.finished, { s with turns := rest }.doReset)

/-- An illegal word completes with E_ILLEGAL (spec/30_encoding.md R114, R271). -/
def completeIllegal (s : State) : Host.Outcome State Fault Refusal :=
  complete s (.error .illegal)

end Sys2Proof.Machine
end

