-- ==== Sys2Proof/Machine/Step.lean ====
section
/-! DEFINITION. One step of the machine: the oldest pending turn, or the engine's completion (spec/00_scope.md R7,
spec/60_exceptions.md R274). -/

namespace Sys2Proof.Machine

/-- One step: a host access, a reset, or the completion of the accepted command (R7). -/
def step (s : State) : Host.Outcome State Fault Refusal :=
  match s.nextMove with
  | (.finished, t) => .next t
  | (.command w, t) =>
    match decode w with
    | .ok i => exec i t
    | .error _ => completeIllegal t

/-- The state with a command word accepted into the engine and the engine's turn put first, so that the very next
step completes it (log 14). -/
def State.withFetchWord (s : State) (nbits w : Nat) : State :=
  { s with engine := .busy (BitVec.ofNat 32 (w % 2 ^ nbits)), turns := .engine :: s.turns }

end Sys2Proof.Machine
end

