-- ==== Sys2Proof/Machine/Assembler.lean ====
section
/-! DEFINITION. The assembler syntax of commands (spec/30_encoding.md R119), on lists of characters: a printer and
a parser. Spaces between tokens are free, and a register number has no leading zero (DESIGN CHOICE, log 15). -/

namespace Sys2Proof.Machine

/-- An operand: `x` 0..15 or `pt` 0..7 (R119). -/
inductive Operand where
  | x (r : XReg)
  | pt (r : PReg)
deriving DecidableEq, Repr

/-! ### Printing -/

/-- A register number below 20 in decimal. -/
def regDigits (n : Nat) : List Char :=
  if n < 10 then [Char.ofNat (48 + n)] else ['1', Char.ofNat (38 + n)]

/-- An operand as text. -/
def Operand.text : Operand → List Char
  | .x r => 'x' :: regDigits r.val
  | .pt r => 'p' :: 't' :: regDigits r.val

/-- The mandatory suffix of a field command (R119). -/
def msSuffix : ModSel → Char
  | .m => 'm'
  | .p => 'p'
  | .n => 'n'

/-- Operands in field order, separated by commas (R119). -/
def operandsText : List Operand → List Char
  | [] => []
  | [o] => o.text
  | o :: os => o.text ++ ',' :: ' ' :: operandsText os

/-- A command line: mnemonic, suffix, operands (R119). -/
def commandText (mnemonic : String) (suffix : Option Char) (ops : List Operand) : List Char :=
  mnemonic.toList ++
    (match suffix with
      | none => []
      | some c => ['.', c]) ++ ' ' :: operandsText ops

/-- A command in assembler syntax (R119). -/
def asmText : Instr → List Char
  | .fred ms xd xa => commandText "FRED" (msSuffix ms) [.x xd, .x xa]
  | .fadd ms xd xa xb => commandText "FADD" (msSuffix ms) [.x xd, .x xa, .x xb]
  | .fsub ms xd xa xb => commandText "FSUB" (msSuffix ms) [.x xd, .x xa, .x xb]
  | .fmul ms xd xa xb => commandText "FMUL" (msSuffix ms) [.x xd, .x xa, .x xb]
  | .fdiv ms xd xa xb => commandText "FDIV" (msSuffix ms) [.x xd, .x xa, .x xb]
  | .finv ms xd xa => commandText "FINV" (msSuffix ms) [.x xd, .x xa]
  | .fpow ms xd xa xb => commandText "FPOW" (msSuffix ms) [.x xd, .x xa, .x xb]
  | .feq ms xa xb => commandText "FEQ" (msSuffix ms) [.x xa, .x xb]
  | .pset pd xx xy => commandText "PSET" none [.pt pd, .x xx, .x xy]
  | .pinf pd => commandText "PINF" none [.pt pd]
  | .pgen pd => commandText "PGEN" none [.pt pd]
  | .pget xd xe ps => commandText "PGET" none [.x xd, .x xe, .pt ps]
  | .peq pa pb => commandText "PEQ" none [.pt pa, .pt pb]
  | .padd pd pa pb => commandText "PADD" none [.pt pd, .pt pa, .pt pb]
  | .pdbl pd pa => commandText "PDBL" none [.pt pd, .pt pa]
  | .pmul pd pa xk => commandText "PMUL" none [.pt pd, .pt pa, .x xk]
  | .keygen pd xs => commandText "KEYGEN" none [.pt pd, .x xs]
  | .esign xr xs xz xd xk => commandText "ESIGN" none [.x xr, .x xs, .x xz, .x xd, .x xk]
  | .everify xz xr xs pq => commandText "EVERIFY" none [.x xz, .x xr, .x xs, .pt pq]
  | .derenc xr xs => commandText "DERENC" none [.x xr, .x xs]
  | .secenc compressed pp => commandText "SECENC" (if compressed then some 'c' else none) [.pt pp]

/-! ### Parsing -/

/-- A space or a tab. -/
def isBlank (c : Char) : Bool := c = ' ' || c = '\t'

/-- Text without blanks at its two ends. -/
def trimBlanks (cs : List Char) : List Char :=
  ((cs.dropWhile isBlank).reverse.dropWhile isBlank).reverse

/-- Text cut at its commas. -/
def splitCommas : List Char → List (List Char)
  | [] => [[]]
  | c :: cs =>
    if c = ',' then [] :: splitCommas cs
    else
      match splitCommas cs with
      | [] => [[c]]
      | t :: ts => (c :: t) :: ts

/-- The register below `k` whose number a text spells. -/
def parseReg (k : Nat) (cs : List Char) : Option (Fin k) :=
  (List.finRange k).find? fun r => regDigits r.val = cs

/-- One operand (R119). -/
def parseOperand (cs : List Char) : Option Operand :=
  match trimBlanks cs with
  | 'x' :: ds => (parseReg 16 ds).map Operand.x
  | 'p' :: 't' :: ds => (parseReg 8 ds).map Operand.pt
  | _ => none

/-- The operand list of a command; no command has none (R119). -/
def parseOperands (cs : List Char) : Option (List Operand) := (splitCommas cs).mapM parseOperand

/-- A field command; there is no default modulus (R119). -/
def buildField (mnemonic : List Char) (ms : ModSel) : List Operand → Option Instr
  | [.x a, .x b] =>
    if mnemonic = "FRED".toList then some (.fred ms a b)
    else if mnemonic = "FINV".toList then some (.finv ms a b)
    else if mnemonic = "FEQ".toList then some (.feq ms a b)
    else none
  | [.x a, .x b, .x c] =>
    if mnemonic = "FADD".toList then some (.fadd ms a b c)
    else if mnemonic = "FSUB".toList then some (.fsub ms a b c)
    else if mnemonic = "FMUL".toList then some (.fmul ms a b c)
    else if mnemonic = "FDIV".toList then some (.fdiv ms a b c)
    else if mnemonic = "FPOW".toList then some (.fpow ms a b c)
    else none
  | _ => none

/-- A command without a suffix (R119). -/
def buildPlain (mnemonic : List Char) : List Operand → Option Instr
  | [.pt a] =>
    if mnemonic = "PINF".toList then some (.pinf a)
    else if mnemonic = "PGEN".toList then some (.pgen a)
    else if mnemonic = "SECENC".toList then some (.secenc false a)
    else none
  | [.pt a, .pt b] =>
    if mnemonic = "PEQ".toList then some (.peq a b)
    else if mnemonic = "PDBL".toList then some (.pdbl a b)
    else none
  | [.pt a, .x b] => if mnemonic = "KEYGEN".toList then some (.keygen a b) else none
  | [.x a, .x b] => if mnemonic = "DERENC".toList then some (.derenc a b) else none
  | [.pt a, .x b, .x c] => if mnemonic = "PSET".toList then some (.pset a b c) else none
  | [.x a, .x b, .pt c] => if mnemonic = "PGET".toList then some (.pget a b c) else none
  | [.pt a, .pt b, .pt c] => if mnemonic = "PADD".toList then some (.padd a b c) else none
  | [.pt a, .pt b, .x c] => if mnemonic = "PMUL".toList then some (.pmul a b c) else none
  | [.x a, .x b, .x c, .pt d] => if mnemonic = "EVERIFY".toList then some (.everify a b c d) else none
  | [.x a, .x b, .x c, .x d, .x e] => if mnemonic = "ESIGN".toList then some (.esign a b c d e) else none
  | _ => none

/-- A command from its mnemonic, its suffix text and its operands (R119). -/
def buildCommand (mnemonic : List Char) (suffix : Option (List Char)) (ops : List Operand) : Option Instr :=
  match suffix with
  | none => buildPlain mnemonic ops
  | some ['m'] => buildField mnemonic .m ops
  | some ['p'] => buildField mnemonic .p ops
  | some ['n'] => buildField mnemonic .n ops
  | some ['c'] =>
    match ops with
    | [.pt a] => if mnemonic = "SECENC".toList then some (.secenc true a) else none
    | _ => none
  | some _ => none

/-- The suffix text after a dot, and the rest of the line (R119). -/
def takeSuffix : List Char → Option (List Char) × List Char
  | '.' :: cs => (some (cs.takeWhile Char.isAlpha), cs.dropWhile Char.isAlpha)
  | cs => (none, cs)

/-- One command line, its comment left out; mnemonics are case-insensitive (R119). -/
def assemble (line : List Char) : Option Instr :=
  let code := trimBlanks (line.takeWhile (· ≠ ';'))
  let mnemonic := (code.takeWhile Char.isAlpha).map Char.toUpper
  let (suffix, rest) := takeSuffix (code.dropWhile Char.isAlpha)
  match parseOperands rest with
  | some ops => buildCommand mnemonic suffix ops
  | none => none

end Sys2Proof.Machine
end

