-- ==== Sys2Proof/Machine/HostOps.lean ====
section
/-! DEFINITION. What a host does to the window: MemRead and MemWrite at BASE_ADDR (spec/00_scope.md R13,
spec/20_memory.md R80) and the host pseudo-instructions (spec/30_encoding.md R120), as turns of the host. -/

namespace Sys2Proof.Machine

/-- The access of n bytes at a host address, for a block placed at `base`: the block responds to no address
outside its 4096-byte window (R80; log 7). -/
def hostTurn (base addr n : Nat) (op : AccessOp) : List Turn :=
  if base ≤ addr ∧ addr < base + 4096 then
    [.host { off := BitVec.ofNat 12 (addr - base), width := 8 * n, lanes := 0xF#4, op := op }]
  else []

/-- `MemRead(addr, n)` (R13). -/
def memRead (base addr n : Nat) : List Turn := hostTurn base addr n .read

/-- `MemWrite(addr, n, v)` (R13). -/
def memWrite (base addr n : Nat) (v : BusWord) : List Turn := hostTurn base addr n (.write v)

/-- The supported read at a window offset: what `RD off` expands to (R81, R120). -/
def readTurn (off : Offset) : Turn := .host { off := off, width := 32, lanes := 0xF#4, op := .read }

/-- The supported write at a window offset: what `WR off, v` expands to (R81, R120). -/
def writeTurn (off : Offset) (v : BusWord) : Turn :=
  .host { off := off, width := 32, lanes := 0xF#4, op := .write v }

/-- `RD off` (R120). -/
def rd (base : Nat) (off : Offset) : List Turn := memRead base (base + off.toNat) 4

/-- `WR off, v` (R120). -/
def wr (base : Nat) (off : Offset) (v : BusWord) : List Turn := memWrite base (base + off.toNat) 4 v

/-- The limb numbers 0 to 7, in that order (R120). -/
def limbs : List (Fin 8) := [0, 1, 2, 3, 4, 5, 6, 7]

/-- `SETX xi, V` (R120). -/
def setxProg (base : Nat) (i : XReg) (v : Word) : List Turn :=
  limbs.flatMap fun j => wr base (Loc.x i j).offset (getLimb v j)

/-- `GETX xi` (R120). -/
def getxProg (base : Nat) (i : XReg) : List Turn :=
  limbs.flatMap fun j => rd base (Loc.x i j).offset

/-- The value that eight limbs read in order, limb 0 first, stand for (R120). -/
def limbsValue : List BusWord → Nat
  | [] => 0
  | l :: ls => l.toNat + 2 ^ 32 * limbsValue ls

/-- `SETR NAME, V` for a curve register (R120). -/
def setrProg (base : Nat) (r : CurveReg) (v : Word) : List Turn :=
  limbs.flatMap fun j => wr base (Loc.curve r j).offset (getLimb v j)

/-- `SETR MOD, V` (R120). -/
def setmodProg (base : Nat) (v : Word) : List Turn :=
  limbs.flatMap fun j => wr base (Loc.modulus j).offset (getLimb v j)

/-- `SETNV b` (R120). -/
def setnvProg (base : Nat) (b : BusWord) : List Turn := wr base Loc.nvalid.offset b

/-- `ISSUE cmd` (R120). -/
def issueProg (base : Nat) (i : Instr) : List Turn := wr base Loc.cmd.offset (encode i)

/-- `WAIT` where `busyReads` reads of STATUS still see BUSY, then the engine takes its turn, then one read sees
BUSY = 0 (R120; log 1). -/
def waitProg (base busyReads : Nat) : List Turn :=
  (List.replicate busyReads (rd base Loc.status.offset)).flatten ++ .engine :: rd base Loc.status.offset

/-- `RUN cmd` (R120). -/
def runProg (base busyReads : Nat) (i : Instr) : List Turn := issueProg base i ++ waitProg base busyReads

/-- `CLRERR` (R120). -/
def clrerrProg (base : Nat) : List Turn := wr base Loc.status.offset 0x00000006#32

/-- `GETOBUF`, once the host knows OLEN (R120). -/
def getobufProg (base olen : Nat) : List Turn :=
  rd base Loc.olen.offset ++
  (List.range ((olen + 3) / 4)).flatMap fun k => rd base (BitVec.ofNat 12 (0x100 + 4 * k))

end Sys2Proof.Machine
end

