-- ==== Sys2Proof/Safety.lean ====
section
/-! DEFINITION. The invariants of the block that every step keeps (spec/10_state.md R36, R45, R49, R51,
spec/41_point.md R178, spec/44_serialize.md R252, R255, spec/60_exceptions.md R272, R275). No step stops, so a safe
run is a run whose states all meet them. -/

namespace Sys2Proof.Machine

/-- The curve configuration passes CurveOK (R171). -/
def CurveLegal (s : State) : Prop :=
  2 < s.curveP.toNat ∧ s.curveA.toNat < s.curveP.toNat ∧ s.curveB.toNat < s.curveP.toNat

/-- The equation of R170, `y^2 = x^3 + A x + B (mod CURVE_P)`, on exact integers. -/
def CurveEquation (s : State) (x y : Nat) : Prop :=
  (s.curveP.toNat : Int) ∣ (y : Int) ^ 2 - ((x : Int) ^ 3 + s.curveA.toNat * x + s.curveB.toNat)

/-- A point register value that belongs to the current curve (R45, R178). -/
def PointReg.OnCurrentCurve (s : State) : PointReg → Prop
  | .empty => True
  | .inf => True
  | .aff x y =>
    CurveLegal s ∧ x.toNat < s.curveP.toNat ∧ y.toNat < s.curveP.toNat ∧ CurveEquation s x.toNat y.toNat

/-- Every point register holds a value of the current curve (R43, R45, R178). -/
def PointsOnCurve (s : State) : Prop := ∀ i : PReg, s.pt[i.val].OnCurrentCurve s

/-- ERRCODE is nonzero exactly while ERR is set (R36, R275). -/
def ErrorLatch (s : State) : Prop := s.status.err = s.status.errcode.isSome

/-- A BUSY engine was accepted with ERR = 0 and DONE = 0, and neither is set before completion (R272, R274). -/
def BusyFlags (s : State) : Prop := s.busy = true → s.status.err = false ∧ s.status.done = false

/-- OLEN is at most 72, every byte of OBUF at index OLEN or above is 0, and OINF = 1 only with OLEN = 0 (R49,
R252, R255). -/
def OutputForm (s : State) : Prop :=
  s.olen.toNat ≤ 72 ∧ (∀ j : Fin 72, s.olen.toNat ≤ j.val → s.obuf[j.val] = 0#8) ∧
  (s.status.oinf = true → s.olen = 0#7)

/-- All the invariants together. -/
structure Invariant (s : State) : Prop where
  points : PointsOnCurve s
  errors : ErrorLatch s
  busy : BusyFlags s
  output : OutputForm s

end Sys2Proof.Machine
end

