-- ==== Sys2Proof/Certificates/Slice0/Obligations.lean ====
section
/-! DEFINITION. The statements for the provers. Each is about every state and every operand that meets its hypotheses;
each docstring names the rule of spec/ it follows. The words the statements share stand first, in Sys2Proof.Claims. -/

namespace Sys2Proof.Claims

open Sys2Proof.Machine

/-! ### Words the statements share -/

/-- The end of a command without error (R274): engine IDLE, DONE set, all else as the command left it. -/
def succeeded (s : State) : State :=
  { s with engine := .idle, status := { s.status with done := true } }

/-- The end of the command word w with an error (R275), and nothing else. -/
def failed (s : State) (w : BusWord) (c : ErrCode) : State :=
  { s with
    engine := .idle
    status := { s.status with done := true, err := true, errcode := some c }
    errcmd := w }

/-- m is the modulus the MS field names (R111, R141). -/
def IsModulus (s : State) (ms : ModSel) (m : Nat) : Prop :=
  match ms with
  | .m => m = s.modulus.toNat
  | .p => m = s.curveP.toNat
  | .n => s.nvalid = true ∧ m = s.curveN.toNat

/-- The error a field command over the given range-checked operands ends in before its arithmetic (R141, R150, R152). -/
def FieldError (s : State) (ms : ModSel) (operands : List XReg) : ErrCode → Prop
  | .noOrder => ms = .n ∧ s.nvalid = false
  | .badModulus => ∃ m, IsModulus s ms m ∧ m ≤ 2
  | .range => ∃ m, IsModulus s ms m ∧ 2 < m ∧ ∃ r ∈ operands, m ≤ s.x[r.val].toNat
  | _ => False

/-- GenOK passes (R171). -/
def GenLegal (s : State) : Prop :=
  CurveLegal s ∧ s.curveGX.toNat < s.curveP.toNat ∧ s.curveGY.toNat < s.curveP.toNat ∧
  CurveEquation s s.curveGX.toNat s.curveGY.toNat

/-- The error KEYGEN, ESIGN and EVERIFY end in at OrderOK and then GenOK (R171, R202, R277). -/
def ConfigError (s : State) : ErrCode → Prop
  | .noOrder => s.nvalid = false
  | .badModulus => s.nvalid = true ∧ (s.curveN.toNat ≤ 2 ∨ s.curveP.toNat ≤ 2)
  | .range =>
    s.nvalid = true ∧ 2 < s.curveN.toNat ∧ 2 < s.curveP.toNat ∧
    (s.curveP.toNat ≤ s.curveA.toNat ∨ s.curveP.toNat ≤ s.curveB.toNat ∨
     s.curveP.toNat ≤ s.curveGX.toNat ∨ s.curveP.toNat ≤ s.curveGY.toNat)
  | .notOnCurve =>
    s.nvalid = true ∧ 2 < s.curveN.toNat ∧ CurveLegal s ∧
    s.curveGX.toNat < s.curveP.toNat ∧ s.curveGY.toNat < s.curveP.toNat ∧
    ¬ CurveEquation s s.curveGX.toNat s.curveGY.toNat
  | _ => False

/-- The value of an ERRCODE field (R270). -/
def codeValue : Option ErrCode → Nat
  | none => 0x00
  | some .illegal => 0x01
  | some .badModulus => 0x02
  | some .noOrder => 0x03
  | some .range => 0x04
  | some .notInvertible => 0x05
  | some .notOnCurve => 0x06
  | some .emptyPoint => 0x07
  | some .infOperand => 0x08
  | some .keyRange => 0x09
  | some .nonce => 0x0A

/-- The value of a one-bit field. -/
def bit (b : Bool) : Nat := if b then 1 else 0

/-- Limb j of a W-bit value: bits [32j+31:32j] (R48). -/
def limb (v j : Nat) : Nat := v / 2 ^ (32 * j) % 2 ^ 32

/-- The value the host reads at each mapped word (R32 to R34, R36, R38, R39, R42, R46, R48, R49). -/
def readValue (s : State) : Loc → Nat
  | .id => 0x52544331
  | .cfg => 0x08100100
  | .ctrl => bit s.ctrl.ie + 2 * bit s.ctrl.nsrc
  | .status =>
    (match s.engine with | .busy _ => 1 | .idle => 0) + 2 * bit s.status.done + 4 * bit s.status.err +
    8 * bit s.status.eq + 16 * bit s.status.vok + 32 * bit s.status.oinf + 64 * bit s.status.drop +
    128 * bit s.status.buserr + 256 * codeValue s.status.errcode
  | .cmd => 0
  | .errcmd => s.errcmd.toNat
  | .olen => s.olen.toNat
  | .obuf k =>
    (s.obuf[4 * k.val]'(by omega)).toNat + 2 ^ 8 * (s.obuf[4 * k.val + 1]'(by omega)).toNat +
    2 ^ 16 * (s.obuf[4 * k.val + 2]'(by omega)).toNat + 2 ^ 24 * (s.obuf[4 * k.val + 3]'(by omega)).toNat
  | .curve .p j => limb s.curveP.toNat j.val
  | .curve .a j => limb s.curveA.toNat j.val
  | .curve .b j => limb s.curveB.toNat j.val
  | .curve .gx j => limb s.curveGX.toNat j.val
  | .curve .gy j => limb s.curveGY.toNat j.val
  | .curve .n j => limb s.curveN.toNat j.val
  | .nvalid => bit s.nvalid
  | .modulus j => limb s.modulus.toNat j.val
  | .x i j => limb s.x[i.val].toNat j.val
  | .ptTag i => match s.pt[i.val] with | .empty => 0 | .inf => 1 | .aff _ _ => 2
  | .ptX i j => match s.pt[i.val] with | .aff x _ => limb x.toNat j.val | _ => 0
  | .ptY i j => match s.pt[i.val] with | .aff _ y => limb y.toNat j.val | _ => 0

/-- The integer registers a command writes when it succeeds (R47). -/
def xDests : Instr → List XReg
  | .fred _ xd _ | .fadd _ xd _ _ | .fsub _ xd _ _ | .fmul _ xd _ _ | .fdiv _ xd _ _
  | .finv _ xd _ | .fpow _ xd _ _ => [xd]
  | .pget xd xe _ => [xd, xe]
  | .esign xr xs _ _ _ => [xr, xs]
  | .feq .. | .pset .. | .pinf .. | .pgen .. | .peq .. | .padd .. | .pdbl .. | .pmul .. | .keygen ..
  | .everify .. | .derenc .. | .secenc .. => []

/-- The point registers a command writes when it succeeds (R45). -/
def ptDests : Instr → List PReg
  | .pset pd _ _ | .pinf pd | .pgen pd | .padd pd _ _ | .pdbl pd _ | .pmul pd _ _ | .keygen pd _ => [pd]
  | .fred .. | .fadd .. | .fsub .. | .fmul .. | .fdiv .. | .finv .. | .fpow .. | .feq ..
  | .pget .. | .peq .. | .esign .. | .everify .. | .derenc .. | .secenc .. => []

/-- Which command raises which error code (R270). E_ILLEGAL is raised by illegal words, which are no commands. -/
def mayRaise : Instr → ErrCode → Bool
  | .fred ms _ _, c => c = .badModulus || (c = .noOrder && ms = .n)
  | .fadd ms _ _ _, c | .fsub ms _ _ _, c | .fmul ms _ _ _, c | .fpow ms _ _ _, c | .feq ms _ _, c =>
    c = .badModulus || c = .range || (c = .noOrder && ms = .n)
  | .fdiv ms _ _ _, c | .finv ms _ _, c =>
    c = .badModulus || c = .range || c = .notInvertible || (c = .noOrder && ms = .n)
  | .pset .., c | .pgen _, c => c = .badModulus || c = .range || c = .notOnCurve
  | .pget .., c => c = .emptyPoint || c = .infOperand
  | .peq .., c | .secenc .., c => c = .emptyPoint
  | .padd .., c | .pdbl .., c => c = .emptyPoint || c = .notInvertible
  | .pmul .., c => c = .emptyPoint || c = .badModulus || c = .notInvertible
  | .keygen .., c =>
    c = .noOrder || c = .badModulus || c = .range || c = .notOnCurve || c = .keyRange || c = .notInvertible
  | .esign .., c =>
    c = .noOrder || c = .badModulus || c = .range || c = .notOnCurve || c = .keyRange || c = .nonce ||
    c = .notInvertible
  | .everify .., c =>
    c = .emptyPoint || c = .noOrder || c = .badModulus || c = .range || c = .notOnCurve || c = .notInvertible
  | .pinf _, _ | .derenc .., _ => false

/-- A host access that is a soft reset: a supported write to CTRL with bit 2 = 1 (R35). -/
def IsSoftReset (a : Access) : Prop :=
  a.off = 0x008#12 ∧ a.width = 32 ∧ a.lanes = 0xF#4 ∧ ∃ v, a.op = .write v ∧ v.getLsbD 2 = true

/-- The values the reset table gives (R300). -/
def IsReset (t : State) : Prop :=
  (∀ i : XReg, t.x[i.val] = 0#256) ∧ (∀ i : PReg, t.pt[i.val] = .empty) ∧
  t.curveP.toNat = 2 ^ 256 - 2 ^ 32 - 977 ∧ t.curveA = 0#256 ∧ t.curveB = 7#256 ∧
  t.curveGX = 0x79BE667EF9DCBBAC55A06295CE870B07029BFCDB2DCE28D959F2815B16F81798#256 ∧
  t.curveGY = 0x483ADA7726A3C4655DA4FBFC0E1108A8FD17B448A68554199C47D08FFB10D4B8#256 ∧
  t.curveN = 0xFFFFFFFFFFFFFFFFFFFFFFFFFFFFFFFEBAAEDCE6AF48A03BBFD25E8CD0364141#256 ∧
  t.nvalid = true ∧ t.modulus = 0#256 ∧ t.ctrl = { ie := false, nsrc := false } ∧
  t.status = { done := false, err := false, eq := false, vok := false, oinf := false, drop := false,
               buserr := false, errcode := none } ∧
  t.errcmd = 0#32 ∧ t.olen = 0#7 ∧ (∀ j : Fin 72, t.obuf[j.val] = 0#8) ∧ t.engine = .idle

/-- The content bytes of the DER INTEGER of v (R12, R250, R251): big-endian, not empty, no byte that can be left
out, high bit clear. -/
def IsDerInt (v : Nat) (bs : List Byte) : Prop :=
  bytesValue bs = v ∧ bs ≠ [] ∧ (∀ b ∈ bs.head?, b.toNat < 0x80) ∧
  (∀ b0 b1 rest, bs = b0 :: b1 :: rest → b0 = 0#8 → 0x80 ≤ b1.toNat)

/-! ### The group of a curve over a prime field, from Mathlib -/

/-- The Weierstrass curve y^2 = x^3 + A x + B over Z/CURVE_P (R170). -/
def curveOf (s : State) : WeierstrassCurve.Affine (ZMod s.curveP.toNat) where
  a₁ := 0
  a₂ := 0
  a₃ := 0
  a₄ := (s.curveA.toNat : ZMod s.curveP.toNat)
  a₆ := (s.curveB.toNat : ZMod s.curveP.toNat)

/-- A point register that stands for a nonsingular point of the curve: INF for the identity, AFF for its canonical
coordinates. -/
def Stands (s : State) (r : PointReg) (P : (curveOf s).Point) : Prop :=
  (r = .inf ∧ P = .zero) ∨
  ∃ (x y : Word) (h : (curveOf s).Nonsingular (x.toNat : ZMod s.curveP.toNat) (y.toNat : ZMod s.curveP.toNat)),
    r = .aff x y ∧ x.toNat < s.curveP.toNat ∧ y.toNat < s.curveP.toNat ∧ P = .some _ _ h

end Sys2Proof.Claims

open Sys2Proof Sys2Proof.Machine Sys2Proof.Claims

/-! ### Encoding -/

/-- Every command comes back from its word, with every operand at every value (R110, R111, R113, R114). -/
def Obligations.DecodeInvertsEncode : Prop :=
  ∀ i : Instr, i.wellFormed = true → decode (encode i) = .ok i

/-- A legal word has no bit that decoding drops, and it stands for a well-formed command (R110, R113, R114). -/
def Obligations.EncodeInvertsDecode : Prop :=
  ∀ (w : BusWord) (i : Instr), decode w = .ok i → encode i = w ∧ i.wellFormed = true

/-- R114: a word is legal exactly when one row of R113 matches it, MS is not 3 in a field command, and F1 differs from
F2 in PGET and ESIGN; the command is that row's; at most one row matches; and an illegal word, when the engine
completes it, ends in E_ILLEGAL and changes nothing else. -/
def Obligations.LegalWordsAreThoseOfTheTable : Prop :=
  (∀ w : BusWord, (∃ i, decode w = .ok i) ↔
    ∃ r ∈ opcodeTable, w &&& r.mask = r.pattern ∧
      (r ∈ fieldRows → w.extractLsb' 4 2 ≠ 3#2) ∧
      (r.mnemonic = "PGET" ∨ r.mnemonic = "ESIGN" → w.extractLsb' 22 4 ≠ w.extractLsb' 18 4)) ∧
  (∀ (w : BusWord) (i : Instr), decode w = .ok i →
    ∀ r ∈ opcodeTable, w &&& r.mask = r.pattern → i.mnemonic = r.mnemonic) ∧
  (∀ w : BusWord, ∀ r ∈ opcodeTable, ∀ r' ∈ opcodeTable,
    w &&& r.mask = r.pattern → w &&& r'.mask = r'.pattern → r = r') ∧
  (∀ (s : State) (w : BusWord) (e : Illegal), s.engine = .busy w → decode w = .error e →
    (s.turns = [] → step s = .next (failed s w .illegal)) ∧
    (∀ rest, s.turns = .engine :: rest → step s = .next (failed { s with turns := rest } w .illegal)))

/-- The worked encodings of R121 decode to their commands, and its counter-examples are illegal. -/
def Obligations.WorkedEncodingsDecode : Prop :=
  decode 0x08C48000#32 = .ok (.fadd .m 3 1 2) ∧
  decode 0x11048010#32 = .ok (.fmul .p 4 1 2) ∧
  decode 0x6080C000#32 = .ok (.pmul 2 0 3) ∧
  decode 0x4D9C8000#32 = .ok (.pget 6 7 2) ∧
  decode 0x8048D140#32 = .ok (.esign 1 2 3 4 5) ∧
  decode 0x840C4800#32 = .ok (.everify 3 1 2 0) ∧
  decode 0xA4040001#32 = .ok (.secenc true 1) ∧
  decode 0x00000000#32 = .error .reservedOp ∧
  decode 0x08C48030#32 = .error .reservedModulus ∧
  decode 0x56000000#32 = .error .badPoint

/-- Assembling the text of a command gives the command back (R119; spacing and register spelling: log 15). -/
def Obligations.AssembleInvertsPrinting : Prop :=
  ∀ i : Instr, assemble (asmText i) = some i

/-- The register map is one to one (R54): each mapped word is found at its offset, and at no other aligned offset. -/
def Obligations.RegisterMapIsOneToOne : Prop :=
  (∀ l : Loc, l.offset.toNat % 4 = 0 ∧ locate l.offset = some l) ∧
  (∀ (off : Offset) (l : Loc), off.toNat % 4 = 0 → locate off = some l → l.offset = off)

/-! ### The step, acceptance and completion -/

/-- R271, R274: when the engine is BUSY(w) and takes its turn, or no turn is left, and w decodes to i, the step is the
execution of i; an engine turn is used up. -/
def Obligations.StepRunsTheDecodedCommand : Prop :=
  ∀ (s : State) (w : BusWord) (i : Instr), s.engine = .busy w → decode w = .ok i →
    (s.turns = [] → step s = exec i s) ∧
    (∀ rest, s.turns = .engine :: rest → step s = exec i { s with turns := rest })

/-- R272: a write of w to CMD is dropped, with DROP set and nothing else changed, while BUSY = 1 or ERR = 1; otherwise
the engine becomes BUSY(w) and DONE is cleared. -/
def Obligations.AcceptanceOfACommandWord : Prop :=
  ∀ (s : State) (w : BusWord) (rest : List Turn), s.turns = writeTurn 0x010#12 w :: rest →
    ((∃ v, s.engine = .busy v) ∨ s.status.err = true →
      step s = .next { s with turns := rest, status := { s.status with drop := true } }) ∧
    (s.engine = .idle → s.status.err = false →
      step s = .next { s with turns := rest, engine := .busy w, status := { s.status with done := false } })

/-- R275: a command that completes with an error sets ERR, ERRCODE, ERRCMD and DONE, makes the engine IDLE, and writes
nothing else; and every command completes, in an error or with ERR, ERRCODE and ERRCMD as they were. (The count of
draws is the model's own, log 2.) -/
def Obligations.ErrorsWriteNothingElse : Prop :=
  ∀ (i : Instr) (s : State) (w : BusWord), s.engine = .busy w →
    ∃ (t : State) (d : Nat), exec i s = .next t ∧
      ((∃ c, t = { failed s w c with drawn := d }) ∨
       (t.engine = .idle ∧ t.status.done = true ∧ t.status.err = s.status.err ∧
        t.status.errcode = s.status.errcode ∧ t.errcmd = s.errcmd))

/-- A command frames (R36, R45, R47, R49): no command writes the curve registers, MOD, CTRL, DROP or BUSERR; only its
destination registers change among x and pt; only DERENC and SECENC write OBUF, OLEN and OINF; only FEQ and PEQ write
EQ; only EVERIFY writes VOK; only ESIGN draws nonces. -/
def Obligations.CommandsWriteOnlyTheirDestinations : Prop :=
  ∀ (i : Instr) (s t : State), exec i s = .next t →
    t.curveP = s.curveP ∧ t.curveA = s.curveA ∧ t.curveB = s.curveB ∧ t.curveGX = s.curveGX ∧
    t.curveGY = s.curveGY ∧ t.curveN = s.curveN ∧ t.nvalid = s.nvalid ∧ t.modulus = s.modulus ∧
    t.ctrl = s.ctrl ∧ t.status.drop = s.status.drop ∧ t.status.buserr = s.status.buserr ∧
    t.turns = s.turns ∧ t.responses = s.responses ∧
    (∀ r : XReg, r ∉ xDests i → t.x[r.val] = s.x[r.val]) ∧
    (∀ r : PReg, r ∉ ptDests i → t.pt[r.val] = s.pt[r.val]) ∧
    ((∀ xr xs, i ≠ .derenc xr xs) → (∀ c pp, i ≠ .secenc c pp) →
      t.obuf = s.obuf ∧ t.olen = s.olen ∧ t.status.oinf = s.status.oinf) ∧
    ((∀ ms xa xb, i ≠ .feq ms xa xb) → (∀ pa pb, i ≠ .peq pa pb) → t.status.eq = s.status.eq) ∧
    ((∀ xz xr xs pq, i ≠ .everify xz xr xs pq) → t.status.vok = s.status.vok) ∧
    ((∀ xr xs xz xd xk, i ≠ .esign xr xs xz xd xk) → t.drawn = s.drawn)

/-- A command raises only the codes R270 lists for it; PINF and DERENC never fail. -/
def Obligations.CommandsRaiseOnlyTheirErrorCodes : Prop :=
  ∀ (i : Instr) (s t : State) (c : ErrCode), s.status.err = false → exec i s = .next t → t.status.err = true →
    t.status.errcode = some c → mayRaise i c = true

/-- R274 and R320: a BUSY engine completes. Whatever turns are pending, it is IDLE after at most one step more than
their number; and after host accesses alone, none of them a soft reset, it still holds its command word with no turn
left, so that the next step completes that command (LATENCY is the number of those accesses). -/
def Obligations.TheEngineAlwaysCompletes : Prop :=
  (∀ s : State, ∃ (k : Nat) (t : State), k ≤ s.turns.length + 1 ∧ core.run k s = .next t ∧ t.engine = .idle) ∧
  (∀ (s : State) (w : BusWord), s.engine = .busy w →
    (∀ turn ∈ s.turns, ∃ a, turn = .host a ∧ ¬ IsSoftReset a) →
    ∃ t : State, core.run s.turns.length s = .next t ∧ t.engine = .busy w ∧ t.turns = [] ∧
      t.x = s.x ∧ t.pt = s.pt ∧ core.run (s.turns.length + 1) s = step t)

/-! ### Invariants -/

/-- Every state a step reaches keeps every affine point register on the current curve (R43, R45, R178, R180): x and y
below CURVE_P, and y^2 = x^3 + A x + B. -/
def Obligations.EveryStepKeepsPointsOnTheCurve : Prop :=
  ∀ s t : State, PointsOnCurve s → step s = .next t → PointsOnCurve t

/-- Every step keeps: ERRCODE is nonzero exactly while ERR = 1, and a BUSY engine has ERR = 0 and DONE = 0 (R36, R37,
R272, R275). -/
def Obligations.EveryStepKeepsTheErrorLatch : Prop :=
  ∀ s t : State, ErrorLatch s → BusyFlags s → step s = .next t → ErrorLatch t ∧ BusyFlags t

/-- Every step keeps: OLEN is at most 72, every byte of OBUF at index OLEN or above is 0, and OINF = 1 only with
OLEN = 0 (R49, R252, R255). -/
def Obligations.EveryStepKeepsTheOutputForm : Prop :=
  ∀ s t : State, OutputForm s → step s = .next t → OutputForm t

/-- The state after reset meets every invariant (R300). -/
def Obligations.ResetMeetsTheInvariant : Prop := Invariant State.reset

/-! ### Reset -/

/-- R300: the hardware reset and the soft reset, each one step in any state, also while BUSY, give every register its
reset value, and IRQ is 0. -/
def Obligations.BothResetsGiveTheResetValues : Prop :=
  IsReset State.reset ∧
  ∀ (s : State) (v : BusWord) (rest : List Turn),
    (s.turns = .reset :: rest ∨ (v.getLsbD 2 = true ∧ s.turns = writeTurn 0x008#12 v :: rest)) →
    ∃ t : State, step s = .next t ∧ IsReset t ∧ t.irq = false

/-! ### Field commands -/

/-- FRED (R142): any value is reduced mod a legal modulus; SelMod's errors are its only errors (R141). -/
def Obligations.FredReduces : Prop :=
  ∀ (ms : ModSel) (xd xa : XReg) (s : State),
    (∀ m, IsModulus s ms m → 2 < m →
      exec (.fred ms xd xa) s =
        .next (succeeded { s with x := s.x.set xd.val (BitVec.ofNat 256 (s.x[xa.val].toNat % m)) })) ∧
    (∀ w c, s.engine = .busy w → FieldError s ms [] c → exec (.fred ms xd xa) s = .next (failed s w c))

/-- FADD, FSUB and FMUL (R143, R144, R145): the exact sum, difference and product as the representative in [0, m), for
every legal modulus, even or odd; E_NO_ORDER, E_BAD_MODULUS and E_RANGE are the only errors (R152). -/
def Obligations.FieldSumDifferenceAndProduct : Prop :=
  ∀ (ms : ModSel) (xd xa xb : XReg) (s : State),
    (∀ m, IsModulus s ms m → 2 < m → s.x[xa.val].toNat < m → s.x[xb.val].toNat < m →
      exec (.fadd ms xd xa xb) s =
        .next (succeeded { s with
          x := s.x.set xd.val (BitVec.ofNat 256 ((s.x[xa.val].toNat + s.x[xb.val].toNat) % m)) }) ∧
      exec (.fsub ms xd xa xb) s =
        .next (succeeded { s with
          x := s.x.set xd.val (BitVec.ofNat 256
            (if s.x[xb.val].toNat ≤ s.x[xa.val].toNat then s.x[xa.val].toNat - s.x[xb.val].toNat
             else s.x[xa.val].toNat + m - s.x[xb.val].toNat)) }) ∧
      exec (.fmul ms xd xa xb) s =
        .next (succeeded { s with
          x := s.x.set xd.val (BitVec.ofNat 256 (s.x[xa.val].toNat * s.x[xb.val].toNat % m)) })) ∧
    (∀ w c, s.engine = .busy w → FieldError s ms [xa, xb] c →
      exec (.fadd ms xd xa xb) s = .next (failed s w c) ∧
      exec (.fsub ms xd xa xb) s = .next (failed s w c) ∧
      exec (.fmul ms xd xa xb) s = .next (failed s w c))

/-- FINV and FDIV (R146, R147, R11): where the divisor has gcd 1 with m they complete with its one inverse v in [1, m),
and with a v mod m; where it has not, E_NOT_INVERTIBLE. -/
def Obligations.InverseAndQuotient : Prop :=
  ∀ (ms : ModSel) (xd xa xb : XReg) (s : State),
    (∀ m, IsModulus s ms m → 2 < m → s.x[xa.val].toNat < m → s.x[xb.val].toNat < m →
      (Nat.gcd s.x[xb.val].toNat m = 1 →
        ∃ v, 1 ≤ v ∧ v < m ∧ s.x[xb.val].toNat * v % m = 1 ∧
          exec (.finv ms xd xb) s = .next (succeeded { s with x := s.x.set xd.val (BitVec.ofNat 256 v) }) ∧
          exec (.fdiv ms xd xa xb) s =
            .next (succeeded { s with
              x := s.x.set xd.val (BitVec.ofNat 256 (s.x[xa.val].toNat * v % m)) })) ∧
      (∀ w, s.engine = .busy w → Nat.gcd s.x[xb.val].toNat m ≠ 1 →
        exec (.finv ms xd xb) s = .next (failed s w .notInvertible) ∧
        exec (.fdiv ms xd xa xb) s = .next (failed s w .notInvertible))) ∧
    (∀ w c, s.engine = .busy w →
      (FieldError s ms [xb] c → exec (.finv ms xd xb) s = .next (failed s w c)) ∧
      (FieldError s ms [xa, xb] c → exec (.fdiv ms xd xa xb) s = .next (failed s w c)))

/-- FPOW (R148): a^e mod m, with a^0 = 1 for every a; the exponent is range-checked too. -/
def Obligations.FpowRaisesToThePower : Prop :=
  ∀ (ms : ModSel) (xd xa xb : XReg) (s : State),
    (∀ m, IsModulus s ms m → 2 < m → s.x[xa.val].toNat < m → s.x[xb.val].toNat < m →
      exec (.fpow ms xd xa xb) s =
        .next (succeeded { s with
          x := s.x.set xd.val (BitVec.ofNat 256 (s.x[xa.val].toNat ^ s.x[xb.val].toNat % m)) })) ∧
    (∀ w c, s.engine = .busy w → FieldError s ms [xa, xb] c →
      exec (.fpow ms xd xa xb) s = .next (failed s w c))

/-- FEQ (R149): EQ says whether two elements of the field are equal; values not below m are refused. -/
def Obligations.FeqComparesElements : Prop :=
  ∀ (ms : ModSel) (xa xb : XReg) (s : State),
    (∀ m, IsModulus s ms m → 2 < m → s.x[xa.val].toNat < m → s.x[xb.val].toNat < m →
      exec (.feq ms xa xb) s =
        .next (succeeded { s with status := { s.status with eq := decide (s.x[xa.val] = s.x[xb.val]) } })) ∧
    (∀ w c, s.engine = .busy w → FieldError s ms [xa, xb] c →
      exec (.feq ms xa xb) s = .next (failed s w c))

/-! ### Point commands -/

/-- PSET (R172): under a legal curve configuration, coordinates below CURVE_P that satisfy the equation make the point;
the errors in their order. -/
def Obligations.PsetConstructsPointsOfTheCurve : Prop :=
  ∀ (pd : PReg) (xx xy : XReg) (s : State),
    (CurveLegal s → s.x[xx.val].toNat < s.curveP.toNat → s.x[xy.val].toNat < s.curveP.toNat →
      CurveEquation s s.x[xx.val].toNat s.x[xy.val].toNat →
      exec (.pset pd xx xy) s =
        .next (succeeded { s with pt := s.pt.set pd.val (.aff s.x[xx.val] s.x[xy.val]) })) ∧
    (∀ w, s.engine = .busy w →
      (s.curveP.toNat ≤ 2 → exec (.pset pd xx xy) s = .next (failed s w .badModulus)) ∧
      (2 < s.curveP.toNat →
        (s.curveP.toNat ≤ s.curveA.toNat ∨ s.curveP.toNat ≤ s.curveB.toNat ∨
         s.curveP.toNat ≤ s.x[xx.val].toNat ∨ s.curveP.toNat ≤ s.x[xy.val].toNat) →
        exec (.pset pd xx xy) s = .next (failed s w .range)) ∧
      (CurveLegal s → s.x[xx.val].toNat < s.curveP.toNat → s.x[xy.val].toNat < s.curveP.toNat →
        ¬ CurveEquation s s.x[xx.val].toNat s.x[xy.val].toNat →
        exec (.pset pd xx xy) s = .next (failed s w .notOnCurve)))

/-- PINF (R173) always loads INF; PGEN (R174) loads the generator when GenOK passes, whatever CURVE_NVALID is. -/
def Obligations.PinfAndPgenLoadTheirPoints : Prop :=
  ∀ (pd : PReg) (s : State),
    exec (.pinf pd) s = .next (succeeded { s with pt := s.pt.set pd.val .inf }) ∧
    (GenLegal s →
      exec (.pgen pd) s = .next (succeeded { s with pt := s.pt.set pd.val (.aff s.curveGX s.curveGY) })) ∧
    (∀ w, s.engine = .busy w →
      (s.curveP.toNat ≤ 2 → exec (.pgen pd) s = .next (failed s w .badModulus)) ∧
      (2 < s.curveP.toNat →
        (s.curveP.toNat ≤ s.curveA.toNat ∨ s.curveP.toNat ≤ s.curveB.toNat ∨
         s.curveP.toNat ≤ s.curveGX.toNat ∨ s.curveP.toNat ≤ s.curveGY.toNat) →
        exec (.pgen pd) s = .next (failed s w .range)) ∧
      (CurveLegal s → s.curveGX.toNat < s.curveP.toNat → s.curveGY.toNat < s.curveP.toNat →
        ¬ CurveEquation s s.curveGX.toNat s.curveGY.toNat →
        exec (.pgen pd) s = .next (failed s w .notOnCurve)))

/-- PGET (R175): both coordinates of an affine point; E_EMPTY_POINT and E_INF_OPERAND otherwise. -/
def Obligations.PgetReadsBothCoordinates : Prop :=
  ∀ (xd xe : XReg) (ps : PReg) (s : State), xd ≠ xe →
    (∀ x y, s.pt[ps.val] = .aff x y →
      exec (.pget xd xe ps) s = .next (succeeded { s with x := (s.x.set xd.val x).set xe.val y })) ∧
    (∀ w, s.engine = .busy w →
      (s.pt[ps.val] = .empty → exec (.pget xd xe ps) s = .next (failed s w .emptyPoint)) ∧
      (s.pt[ps.val] = .inf → exec (.pget xd xe ps) s = .next (failed s w .infOperand)))

/-- PEQ (R176): EQ says whether two points are the same; E_EMPTY_POINT for an EMPTY operand. -/
def Obligations.PeqComparesPoints : Prop :=
  ∀ (pa pb : PReg) (s : State),
    (s.pt[pa.val] ≠ .empty → s.pt[pb.val] ≠ .empty →
      exec (.peq pa pb) s =
        .next (succeeded { s with status := { s.status with eq := decide (s.pt[pa.val] = s.pt[pb.val]) } })) ∧
    (∀ w, s.engine = .busy w → s.pt[pa.val] = .empty ∨ s.pt[pb.val] = .empty →
      exec (.peq pa pb) s = .next (failed s w .emptyPoint))

/-- PADD of INF, of mutual inverses and of two points with different x (R180, R181): the chord rule, as congruences mod
CURVE_P; E_NOT_INVERTIBLE where x2 - x1 has no inverse, E_EMPTY_POINT for an EMPTY operand. -/
def Obligations.PaddFollowsTheChordRule : Prop :=
  ∀ (pd pa pb : PReg) (s : State),
    (s.pt[pa.val] = .inf → s.pt[pb.val] ≠ .empty →
      exec (.padd pd pa pb) s = .next (succeeded { s with pt := s.pt.set pd.val s.pt[pb.val] })) ∧
    (s.pt[pb.val] = .inf → s.pt[pa.val] ≠ .empty →
      exec (.padd pd pa pb) s = .next (succeeded { s with pt := s.pt.set pd.val s.pt[pa.val] })) ∧
    (∀ x y1 y2, s.pt[pa.val] = .aff x y1 → s.pt[pb.val] = .aff x y2 → y1 ≠ y2 →
      exec (.padd pd pa pb) s = .next (succeeded { s with pt := s.pt.set pd.val .inf })) ∧
    (∀ x1 y1 x2 y2, s.pt[pa.val] = .aff x1 y1 → s.pt[pb.val] = .aff x2 y2 → x1 ≠ x2 → 2 < s.curveP.toNat →
      (Int.gcd ((x2.toNat : Int) - x1.toNat) s.curveP.toNat = 1 →
        ∃ lam x3 y3 : Nat, x3 < s.curveP.toNat ∧ y3 < s.curveP.toNat ∧
          (lam * ((x2.toNat : Int) - x1.toNat) ≡ (y2.toNat : Int) - y1.toNat [ZMOD s.curveP.toNat]) ∧
          ((x3 : Int) ≡ (lam : Int) ^ 2 - x1.toNat - x2.toNat [ZMOD s.curveP.toNat]) ∧
          ((y3 : Int) ≡ lam * ((x1.toNat : Int) - x3) - y1.toNat [ZMOD s.curveP.toNat]) ∧
          exec (.padd pd pa pb) s =
            .next (succeeded { s with
              pt := s.pt.set pd.val (.aff (BitVec.ofNat 256 x3) (BitVec.ofNat 256 y3)) })) ∧
      (∀ w, s.engine = .busy w → Int.gcd ((x2.toNat : Int) - x1.toNat) s.curveP.toNat ≠ 1 →
        exec (.padd pd pa pb) s = .next (failed s w .notInvertible))) ∧
    (∀ w, s.engine = .busy w → s.pt[pa.val] = .empty ∨ s.pt[pb.val] = .empty →
      exec (.padd pd pa pb) s = .next (failed s w .emptyPoint))

/-- PDBL (R180, R182): INF and points with y = 0 double to INF; otherwise the tangent rule, as congruences mod CURVE_P;
and PADD of a register with itself, or with a register that holds the same point, is the same doubling. -/
def Obligations.PdblFollowsTheTangentRule : Prop :=
  ∀ (pd pa : PReg) (s : State),
    (s.pt[pa.val] = .inf → exec (.pdbl pd pa) s = .next (succeeded { s with pt := s.pt.set pd.val .inf })) ∧
    (∀ x, s.pt[pa.val] = .aff x 0#256 →
      exec (.pdbl pd pa) s = .next (succeeded { s with pt := s.pt.set pd.val .inf })) ∧
    (∀ x y, s.pt[pa.val] = .aff x y → y ≠ 0#256 → 2 < s.curveP.toNat →
      (Nat.gcd (2 * y.toNat) s.curveP.toNat = 1 →
        ∃ lam x3 y3 : Nat, x3 < s.curveP.toNat ∧ y3 < s.curveP.toNat ∧
          (lam * (2 * (y.toNat : Int)) ≡ 3 * (x.toNat : Int) ^ 2 + s.curveA.toNat [ZMOD s.curveP.toNat]) ∧
          ((x3 : Int) ≡ (lam : Int) ^ 2 - 2 * x.toNat [ZMOD s.curveP.toNat]) ∧
          ((y3 : Int) ≡ lam * ((x.toNat : Int) - x3) - y.toNat [ZMOD s.curveP.toNat]) ∧
          exec (.pdbl pd pa) s =
            .next (succeeded { s with
              pt := s.pt.set pd.val (.aff (BitVec.ofNat 256 x3) (BitVec.ofNat 256 y3)) })) ∧
      (∀ w, s.engine = .busy w → Nat.gcd (2 * y.toNat) s.curveP.toNat ≠ 1 →
        exec (.pdbl pd pa) s = .next (failed s w .notInvertible))) ∧
    (∀ w, s.engine = .busy w → s.pt[pa.val] = .empty →
      exec (.pdbl pd pa) s = .next (failed s w .emptyPoint)) ∧
    (∀ pb : PReg, s.pt[pb.val] = s.pt[pa.val] → exec (.padd pd pa pb) s = exec (.pdbl pd pa) s)

/-- PADD is commutative for every pair of operands on the current curve, errors included (R181). -/
def Obligations.PaddIsCommutative : Prop :=
  ∀ (pd pa pb : PReg) (s : State), PointsOnCurve s → exec (.padd pd pa pb) s = exec (.padd pd pb pa) s

/-! ### Scalar multiplication and key generation -/

/-- PMUL's corner cases (R200, R201, R203): INF times anything, anything times 0, and a multiple of a known order give
INF; 1 times V is V where the unused doubling of V does not fail. The errors in their order: EMPTY, a known order of at
most 2, and E_NOT_INVERTIBLE wherever ScalarMul fails; it fails for every scalar that is not 0 (mod a known order), the
scalar 1 with its unused last doubling among them, where V has no double (log 18: the loop is followed as R200 writes
it). -/
def Obligations.PmulCornerCases : Prop :=
  ∀ (pd pa : PReg) (xk : XReg) (s : State),
    (s.pt[pa.val] = .inf → exec (.pmul pd pa xk) s = .next (succeeded { s with pt := s.pt.set pd.val .inf })) ∧
    (∀ x y, s.pt[pa.val] = .aff x y → (s.nvalid = true → 2 < s.curveN.toNat) →
      (s.x[xk.val] = 0#256 ∨ (s.nvalid = true ∧ s.curveN.toNat ∣ s.x[xk.val].toNat) →
        exec (.pmul pd pa xk) s = .next (succeeded { s with pt := s.pt.set pd.val .inf })) ∧
      (s.x[xk.val] = 1#256 → 2 < s.curveP.toNat → y = 0#256 ∨ Nat.gcd (2 * y.toNat) s.curveP.toNat = 1 →
        exec (.pmul pd pa xk) s = .next (succeeded { s with pt := s.pt.set pd.val (.aff x y) }))) ∧
    (∀ w, s.engine = .busy w →
      (s.pt[pa.val] = .empty → exec (.pmul pd pa xk) s = .next (failed s w .emptyPoint)) ∧
      (∀ x y, s.pt[pa.val] = .aff x y → s.nvalid = true → s.curveN.toNat ≤ 2 →
        exec (.pmul pd pa xk) s = .next (failed s w .badModulus)) ∧
      (∀ x y, s.pt[pa.val] = .aff x y → (s.nvalid = true → 2 < s.curveN.toNat) →
        (s.x[xk.val] ≠ 0#256 ∧ (s.nvalid = true → ¬ s.curveN.toNat ∣ s.x[xk.val].toNat) →
          y ≠ 0#256 → Nat.gcd (2 * y.toNat) s.curveP.toNat ≠ 1 →
          exec (.pmul pd pa xk) s = .next (failed s w .notInvertible)) ∧
        (scalarMul s s.x[xk.val].toNat (.aff x.toNat y.toNat) = .error .notInvertible →
          exec (.pmul pd pa xk) s = .next (failed s w .notInvertible))))

/-- With a prime CURVE_P, PADD is the addition of Mathlib's group of the curve (R180, R201, derived): the model's affine
formulas refine the group law on nonsingular points. -/
def Obligations.PaddIsTheGroupLaw : Prop :=
  ∀ (pd pa pb : PReg) (s : State) [Fact s.curveP.toNat.Prime] (P Q : (curveOf s).Point),
    2 < s.curveP.toNat → Stands s s.pt[pa.val] P → Stands s s.pt[pb.val] Q →
    ∃ r : PointReg, Stands s r (P + Q) ∧
      exec (.padd pd pa pb) s = .next (succeeded { s with pt := s.pt.set pd.val r })

/-- With a prime CURVE_P (R201, derived), PMUL is the group multiple k V when NVALID = 0 and (k mod CURVE_N) V when
NVALID = 1, whatever the order of V; the latter is k V too when CURVE_N is a multiple of that order. -/
def Obligations.PmulIsTheGroupMultiple : Prop :=
  ∀ (pd pa : PReg) (xk : XReg) (s : State) [Fact s.curveP.toNat.Prime] (P : (curveOf s).Point),
    2 < s.curveP.toNat → Stands s s.pt[pa.val] P → (s.nvalid = true → 2 < s.curveN.toNat) →
    ∃ r : PointReg,
      exec (.pmul pd pa xk) s = .next (succeeded { s with pt := s.pt.set pd.val r }) ∧
      (s.nvalid = false → Stands s r (s.x[xk.val].toNat • P)) ∧
      (s.nvalid = true → Stands s r ((s.x[xk.val].toNat % s.curveN.toNat) • P)) ∧
      (s.nvalid = true → s.curveN.toNat • P = 0 → Stands s r (s.x[xk.val].toNat • P))

/-- KEYGEN (R204): for a secret in [1, n - 1] it is PMUL of the generator, and any other secret is E_KEY_RANGE. -/
def Obligations.KeygenMultipliesTheGenerator : Prop :=
  ∀ (pd : PReg) (xs : XReg) (s : State), s.nvalid = true → 2 < s.curveN.toNat → GenLegal s →
    (∀ pa : PReg, 1 ≤ s.x[xs.val].toNat → s.x[xs.val].toNat < s.curveN.toNat →
      s.pt[pa.val] = .aff s.curveGX s.curveGY → exec (.keygen pd xs) s = exec (.pmul pd pa xs) s) ∧
    (∀ w, s.engine = .busy w → s.x[xs.val] = 0#256 ∨ s.curveN.toNat ≤ s.x[xs.val].toNat →
      exec (.keygen pd xs) s = .next (failed s w .keyRange))

/-- KEYGEN on a curve over a prime field (R204, R201, derived): it completes with the group multiple d G. -/
def Obligations.KeygenIsTheGroupMultipleOfG : Prop :=
  ∀ (pd : PReg) (xs : XReg) (s : State) [Fact s.curveP.toNat.Prime] (G : (curveOf s).Point),
    s.nvalid = true → 2 < s.curveN.toNat → 2 < s.curveP.toNat →
    s.curveA.toNat < s.curveP.toNat → s.curveB.toNat < s.curveP.toNat →
    Stands s (.aff s.curveGX s.curveGY) G →
    1 ≤ s.x[xs.val].toNat → s.x[xs.val].toNat < s.curveN.toNat →
    ∃ r : PointReg, Stands s r (s.x[xs.val].toNat • G) ∧
      exec (.keygen pd xs) s = .next (succeeded { s with pt := s.pt.set pd.val r })

/-! ### ECDSA -/

/-- KEYGEN, ESIGN and EVERIFY check the configuration first, in one order (R202, R171, R277): OrderOK, then GenOK; EVERIFY
before that refuses an EMPTY key. -/
def Obligations.OrderCommandsCheckTheConfiguration : Prop :=
  ∀ (s : State) (w : BusWord) (c : ErrCode), s.engine = .busy w →
    (ConfigError s c →
      (∀ pd xs, exec (.keygen pd xs) s = .next (failed s w c)) ∧
      (∀ xr xs xz xd xk, xr ≠ xs → exec (.esign xr xs xz xd xk) s = .next (failed s w c)) ∧
      (∀ xz xr xs pq, s.pt[pq.val] ≠ .empty → exec (.everify xz xr xs pq) s = .next (failed s w c))) ∧
    (∀ (xz xr xs : XReg) (pq : PReg), s.pt[pq.val] = .empty →
      exec (.everify xz xr xs pq) s = .next (failed s w .emptyPoint))

/-- ESIGN with a host nonce (R222, R223): for a nonce that is not rejected, r = R.x mod n and the low-S form of
k^-1 (z + r d) mod n. -/
def Obligations.EsignSignsWithTheHostNonce : Prop :=
  ∀ (xr xs xz xd xk : XReg) (s : State) (rx ry v : Nat), xr ≠ xs → s.ctrl.nsrc = true →
    s.nvalid = true → 2 < s.curveN.toNat → GenLegal s →
    1 ≤ s.x[xd.val].toNat → s.x[xd.val].toNat < s.curveN.toNat →
    1 ≤ s.x[xk.val].toNat → s.x[xk.val].toNat < s.curveN.toNat →
    scalarMul s s.x[xk.val].toNat (.aff s.curveGX.toNat s.curveGY.toNat) = .ok (.aff rx ry) →
    rx % s.curveN.toNat ≠ 0 → v < s.curveN.toNat → s.x[xk.val].toNat * v % s.curveN.toNat = 1 →
    v * (s.x[xz.val].toNat + rx % s.curveN.toNat * s.x[xd.val].toNat) % s.curveN.toNat ≠ 0 →
    exec (.esign xr xs xz xd xk) s =
      .next (succeeded { s with
        x := (s.x.set xr.val (BitVec.ofNat 256 (rx % s.curveN.toNat))).set xs.val (BitVec.ofNat 256
          (if s.curveN.toNat / 2 <
              v * (s.x[xz.val].toNat + rx % s.curveN.toNat * s.x[xd.val].toNat) % s.curveN.toNat
           then s.curveN.toNat -
              v * (s.x[xz.val].toNat + rx % s.curveN.toNat * s.x[xd.val].toNat) % s.curveN.toNat
           else v * (s.x[xz.val].toNat + rx % s.curveN.toNat * s.x[xd.val].toNat) % s.curveN.toNat)) })

/-- ESIGN with a host nonce, the errors after the configuration's (R221, R222): E_KEY_RANGE for a secret out of
[1, n - 1]; E_NONCE for a nonce out of [1, n - 1] and for one that is rejected, because R is INF, or r is 0, or s is 0;
E_NOT_INVERTIBLE where k G fails (composite CURVE_P), and where r is not 0 but k has no inverse mod n (composite n). -/
def Obligations.EsignRefusesBadSecretsAndNonces : Prop :=
  ∀ (xr xs xz xd xk : XReg) (s : State) (w : BusWord), xr ≠ xs → s.engine = .busy w →
    s.nvalid = true → 2 < s.curveN.toNat → GenLegal s →
    (s.x[xd.val] = 0#256 ∨ s.curveN.toNat ≤ s.x[xd.val].toNat →
      exec (.esign xr xs xz xd xk) s = .next (failed s w .keyRange)) ∧
    (1 ≤ s.x[xd.val].toNat → s.x[xd.val].toNat < s.curveN.toNat → s.ctrl.nsrc = true →
      s.x[xk.val] = 0#256 ∨ s.curveN.toNat ≤ s.x[xk.val].toNat ∨
      scalarMul s s.x[xk.val].toNat (.aff s.curveGX.toNat s.curveGY.toNat) = .ok .inf ∨
      (∃ rx ry, rx % s.curveN.toNat = 0 ∧
        scalarMul s s.x[xk.val].toNat (.aff s.curveGX.toNat s.curveGY.toNat) = .ok (.aff rx ry)) ∨
      (∃ rx ry v, rx % s.curveN.toNat ≠ 0 ∧
        scalarMul s s.x[xk.val].toNat (.aff s.curveGX.toNat s.curveGY.toNat) = .ok (.aff rx ry) ∧
        v < s.curveN.toNat ∧ s.x[xk.val].toNat * v % s.curveN.toNat = 1 ∧
        v * (s.x[xz.val].toNat + rx % s.curveN.toNat * s.x[xd.val].toNat) % s.curveN.toNat = 0) →
      exec (.esign xr xs xz xd xk) s = .next (failed s w .nonce)) ∧
    (1 ≤ s.x[xd.val].toNat → s.x[xd.val].toNat < s.curveN.toNat → s.ctrl.nsrc = true →
      1 ≤ s.x[xk.val].toNat → s.x[xk.val].toNat < s.curveN.toNat →
      scalarMul s s.x[xk.val].toNat (.aff s.curveGX.toNat s.curveGY.toNat) = .error .notInvertible ∨
      (∃ rx ry, rx % s.curveN.toNat ≠ 0 ∧
        scalarMul s s.x[xk.val].toNat (.aff s.curveGX.toNat s.curveGY.toNat) = .ok (.aff rx ry) ∧
        Nat.gcd s.x[xk.val].toNat s.curveN.toNat ≠ 1) →
      exec (.esign xr xs xz xd xk) s = .next (failed s w .notInvertible))

/-- R223: every signature ESIGN writes, with either nonce source, has 1 <= r <= n - 1 and 1 <= s <= floor(n / 2). -/
def Obligations.EsignWritesLowSSignatures : Prop :=
  ∀ (xr xs xz xd xk : XReg) (s t : State), xr ≠ xs → s.status.err = false →
    exec (.esign xr xs xz xd xk) s = .next t → t.status.err = false →
    1 ≤ t.x[xr.val].toNat ∧ t.x[xr.val].toNat ≤ s.curveN.toNat - 1 ∧
    1 ≤ t.x[xs.val].toNat ∧ t.x[xs.val].toNat ≤ s.curveN.toNat / 2

/-- ESIGN's outcomes with internal nonces (R221, R224), whatever is drawn: at least one and at most NONCE_RETRY_MAX draws
are made, all in [1, n - 1]; it ends in the signature of a drawn nonce that is not rejected, all earlier draws having
been rejected; or in E_NONCE after NONCE_RETRY_MAX rejected draws; or in E_NOT_INVERTIBLE at a failing draw. -/
def Obligations.EsignOutcomesWithInternalNonces : Prop :=
  ∀ (xr xs xz xd xk : XReg) (s : State) (w : BusWord), xr ≠ xs → s.engine = .busy w → s.ctrl.nsrc = false →
    s.nvalid = true → 2 < s.curveN.toNat → GenLegal s →
    1 ≤ s.x[xd.val].toNat → s.x[xd.val].toNat < s.curveN.toNat →
    ∃ (t : State) (d : Nat), exec (.esign xr xs xz xd xk) s = .next t ∧
      1 ≤ d ∧ d ≤ Config.nonceRetryMax ∧ t.drawn = s.drawn + d ∧
      (∀ j, 1 ≤ drawNonce s.curveN.toNat j ∧ drawNonce s.curveN.toNat j ≤ s.curveN.toNat - 1) ∧
      (∀ j, j + 1 < d →
        signOnce s s.curveN.toNat (.aff s.curveGX.toNat s.curveGY.toNat) s.x[xz.val].toNat s.x[xd.val].toNat
          (drawNonce s.curveN.toNat (s.drawn + j)) = .ok none) ∧
      ((∃ r v, signOnce s s.curveN.toNat (.aff s.curveGX.toNat s.curveGY.toNat) s.x[xz.val].toNat
            s.x[xd.val].toNat (drawNonce s.curveN.toNat (s.drawn + (d - 1))) = .ok (some (r, v)) ∧
          t = succeeded { s with
            x := (s.x.set xr.val (BitVec.ofNat 256 r)).set xs.val (BitVec.ofNat 256 v), drawn := s.drawn + d }) ∨
       (d = Config.nonceRetryMax ∧
        signOnce s s.curveN.toNat (.aff s.curveGX.toNat s.curveGY.toNat) s.x[xz.val].toNat s.x[xd.val].toNat
          (drawNonce s.curveN.toNat (s.drawn + (d - 1))) = .ok none ∧
        t = { failed s w .nonce with drawn := s.drawn + d }) ∨
       (signOnce s s.curveN.toNat (.aff s.curveGX.toNat s.curveGY.toNat) s.x[xz.val].toNat s.x[xd.val].toNat
          (drawNonce s.curveN.toNat (s.drawn + (d - 1))) = .error .notInvertible ∧
        t = { failed s w .notInvertible with drawn := s.drawn + d }))

/-- EVERIFY (R230): VOK = 0 where s mod n has no inverse; otherwise VOK says whether T = u G + v Q is affine with
T.x = r (mod n), with u = z w and v = r w for w the inverse of s. Where T1 = u G, T2 = v Q or T1 + T2 fails (composite
CURVE_P), it ends in E_NOT_INVERTIBLE. -/
def Obligations.EverifyComparesTheXCoordinate : Prop :=
  ∀ (xz xr xs : XReg) (pq : PReg) (s : State) (q : Point), s.pt[pq.val] = q.toReg →
    (∀ x y, q = .aff x y → x < 2 ^ 256 ∧ y < 2 ^ 256) →
    s.nvalid = true → 2 < s.curveN.toNat → GenLegal s →
    (Nat.gcd (s.x[xs.val].toNat % s.curveN.toNat) s.curveN.toNat ≠ 1 →
      exec (.everify xz xr xs pq) s = .next (succeeded { s with status := { s.status with vok := false } })) ∧
    (∀ (w : Nat) (t1 t2 : Point), w < s.curveN.toNat → s.x[xs.val].toNat * w % s.curveN.toNat = 1 →
      scalarMul s (s.x[xz.val].toNat * w % s.curveN.toNat) (.aff s.curveGX.toNat s.curveGY.toNat) = .ok t1 →
      scalarMul s (s.x[xr.val].toNat * w % s.curveN.toNat) q = .ok t2 →
      (pointAdd s.curveP.toNat s.curveA.toNat t1 t2 = .ok .inf →
        exec (.everify xz xr xs pq) s = .next (succeeded { s with status := { s.status with vok := false } })) ∧
      (∀ tx ty, pointAdd s.curveP.toNat s.curveA.toNat t1 t2 = .ok (.aff tx ty) →
        exec (.everify xz xr xs pq) s =
          .next (succeeded { s with status := { s.status with
            vok := decide (tx % s.curveN.toNat = s.x[xr.val].toNat % s.curveN.toNat) } }))) ∧
    (∀ (c : BusWord) (w : Nat), s.engine = .busy c → w < s.curveN.toNat →
      s.x[xs.val].toNat * w % s.curveN.toNat = 1 →
      scalarMul s (s.x[xz.val].toNat * w % s.curveN.toNat) (.aff s.curveGX.toNat s.curveGY.toNat) =
        .error .notInvertible ∨
      scalarMul s (s.x[xr.val].toNat * w % s.curveN.toNat) q = .error .notInvertible ∨
      (∃ t1 t2,
        scalarMul s (s.x[xz.val].toNat * w % s.curveN.toNat) (.aff s.curveGX.toNat s.curveGY.toNat) = .ok t1 ∧
        scalarMul s (s.x[xr.val].toNat * w % s.curveN.toNat) q = .ok t2 ∧
        pointAdd s.curveP.toNat s.curveA.toNat t1 t2 = .error .notInvertible) →
      exec (.everify xz xr xs pq) s = .next (failed s c .notInvertible))

/-- The ECDSA round trip (R231, derived): on a curve over a prime field whose known order n is a prime that annihilates
the generator, a signature ESIGN wrote, with either nonce source, verifies against the key KEYGEN makes from the same
secret and for the same z. -/
def Obligations.EsignedSignaturesVerify : Prop :=
  ∀ (xr xs xz xd xk : XReg) (pd : PReg) (s t u : State) [Fact s.curveP.toNat.Prime] (G : (curveOf s).Point),
    2 < s.curveP.toNat → s.curveN.toNat.Prime → s.curveN.toNat • G = 0 → Stands s (.aff s.curveGX s.curveGY) G →
    xr ≠ xs → xz ≠ xr → xz ≠ xs → xd ≠ xr → xd ≠ xs → s.status.err = false →
    exec (.esign xr xs xz xd xk) s = .next t → t.status.err = false →
    exec (.keygen pd xd) t = .next u →
    exec (.everify xz xr xs pd) u = .next (succeeded { u with status := { u.status with vok := true } })

/-- High-S verifies too (R231, derived): on a curve over a prime field where n annihilates the generator and the key,
EVERIFY gives the same VOK for (r, s) and (r, n - s). -/
def Obligations.EverifyAcceptsHighS : Prop :=
  ∀ (xz xr xs : XReg) (pq : PReg) (s t : State) [Fact s.curveP.toNat.Prime] (G Q : (curveOf s).Point),
    2 < s.curveP.toNat → s.nvalid = true → 2 < s.curveN.toNat →
    s.curveA.toNat < s.curveP.toNat → s.curveB.toNat < s.curveP.toNat →
    s.curveN.toNat • G = 0 → Stands s (.aff s.curveGX s.curveGY) G →
    s.curveN.toNat • Q = 0 → Stands s s.pt[pq.val] Q →
    xz ≠ xs → xr ≠ xs → 1 ≤ s.x[xs.val].toNat → s.x[xs.val].toNat < s.curveN.toNat →
    exec (.everify xz xr xs pq) s = .next t →
    exec (.everify xz xr xs pq)
        { s with x := s.x.set xs.val (BitVec.ofNat 256 (s.curveN.toNat - s.x[xs.val].toNat)) } =
      .next { t with x := s.x.set xs.val (BitVec.ofNat 256 (s.curveN.toNat - s.x[xs.val].toNat)) }

/-! ### Serialization -/

/-- DERENC (R250, R251, R252): OBUF holds 0x30, the body length, and the two DER INTEGERs, all bytes past OLEN are 0,
8 <= OLEN <= 72, OINF is cleared, and it never fails. -/
def Obligations.DerencWritesTheDerString : Prop :=
  ∀ (xr xs : XReg) (s : State), ∃ (er es : List Byte) (obuf : Vector Byte 72) (olen : BitVec 7),
    IsDerInt s.x[xr.val].toNat er ∧ IsDerInt s.x[xs.val].toNat es ∧
    er.length ≤ 33 ∧ es.length ≤ 33 ∧
    olen.toNat = er.length + es.length + 6 ∧ 8 ≤ olen.toNat ∧ olen.toNat ≤ 72 ∧
    (∀ j : Fin 72, obuf[j.val] =
      (0x30#8 :: BitVec.ofNat 8 (er.length + es.length + 4) ::
       0x02#8 :: BitVec.ofNat 8 er.length :: (er ++ 0x02#8 :: BitVec.ofNat 8 es.length :: es)).getD j.val 0#8) ∧
    exec (.derenc xr xs) s =
      .next (succeeded { s with obuf := obuf, olen := olen, status := { s.status with oinf := false } })

/-- SECENC (R253 to R257): the uncompressed and the compressed string of an affine point, big-endian 32-byte
coordinates; INF gives OLEN = 0 and OINF = 1; EMPTY is E_EMPTY_POINT; every byte past OLEN is 0. -/
def Obligations.SecencWritesTheSecString : Prop :=
  ∀ (pp : PReg) (s : State),
    (∀ x y, s.pt[pp.val] = .aff x y →
      ∃ (bx yb : List Byte) (full short : Vector Byte 72),
        bx.length = 32 ∧ bytesValue bx = x.toNat ∧ yb.length = 32 ∧ bytesValue yb = y.toNat ∧
        (∀ j : Fin 72, full[j.val] = (0x04#8 :: (bx ++ yb)).getD j.val 0#8) ∧
        (∀ j : Fin 72, short[j.val] =
          ((if y.toNat % 2 = 0 then 0x02#8 else 0x03#8) :: bx).getD j.val 0#8) ∧
        exec (.secenc false pp) s =
          .next (succeeded { s with obuf := full, olen := 65#7, status := { s.status with oinf := false } }) ∧
        exec (.secenc true pp) s =
          .next (succeeded { s with obuf := short, olen := 33#7, status := { s.status with oinf := false } })) ∧
    (∀ c, s.pt[pp.val] = .inf → ∃ zeros : Vector Byte 72, (∀ j : Fin 72, zeros[j.val] = 0#8) ∧
      exec (.secenc c pp) s =
        .next (succeeded { s with obuf := zeros, olen := 0#7, status := { s.status with oinf := true } })) ∧
    (∀ c w, s.engine = .busy w → s.pt[pp.val] = .empty →
      exec (.secenc c pp) s = .next (failed s w .emptyPoint))

/-! ### The host side -/

/-- A host read of a mapped word, also while BUSY, answers the register's value and changes nothing else (R32 to R39,
R42, R46, R48, R49, R85, R86). -/
def Obligations.HostReadsReturnTheRegisterMap : Prop :=
  ∀ (s : State) (l : Loc) (rest : List Turn), s.turns = readTurn l.offset :: rest →
    step s = .next { s with turns := rest, responses := BitVec.ofNat 32 (readValue s l) :: s.responses }

/-- R83: an access that is misaligned, not 32 bits wide, or not on all four byte lanes changes no state except
BUSERR; a read returns 0. -/
def Obligations.UnsupportedAccessesSetBuserr : Prop :=
  ∀ (s : State) (a : Access) (rest : List Turn), s.turns = .host a :: rest →
    a.off.toNat % 4 ≠ 0 ∨ a.width ≠ 32 ∨ a.lanes ≠ 0xF#4 →
    (a.op = .read → step s = .next { s with
      turns := rest, status := { s.status with buserr := true }, responses := 0#32 :: s.responses }) ∧
    (∀ v, a.op = .write v → step s = .next { s with
      turns := rest, status := { s.status with buserr := true } })

/-- Unmapped offsets and writes to read-only words (R84): BUSERR and nothing else; an unmapped read returns 0. -/
def Obligations.UnmappedAndReadOnlyAccessesSetBuserr : Prop :=
  ∀ (s : State) (off : Offset) (v : BusWord) (rest : List Turn), off.toNat % 4 = 0 →
    ((∀ l : Loc, l.offset ≠ off) → s.turns = readTurn off :: rest →
      step s = .next { s with
        turns := rest, status := { s.status with buserr := true }, responses := 0#32 :: s.responses }) ∧
    ((∀ l : Loc, l.offset ≠ off) ∨ off = Loc.id.offset ∨ off = Loc.cfg.offset ∨ off = Loc.errcmd.offset ∨
       off = Loc.olen.offset ∨ (0x100 ≤ off.toNat ∧ off.toNat < 0x148) ∨ (0x800 ≤ off.toNat ∧ off.toNat < 0xC00) →
      s.turns = writeTurn off v :: rest →
      step s = .next { s with turns := rest, status := { s.status with buserr := true } })

/-- R48 for x and MOD: while the engine is IDLE a host write of v replaces the addressed limb and leaves the other 224
bits, and every other register, unchanged. -/
def Obligations.HostWritesReplaceOneLimb : Prop :=
  ∀ (s : State) (j : Fin 8) (v : BusWord) (rest : List Turn), s.engine = .idle →
    (∀ i : XReg, s.turns = writeTurn (Loc.x i j).offset v :: rest →
      ∃ new : Word, (∀ k : Fin 8, limb new.toNat k.val = if k = j then v.toNat else limb s.x[i.val].toNat k.val) ∧
        step s = .next { s with turns := rest, x := s.x.set i.val new }) ∧
    (s.turns = writeTurn (Loc.modulus j).offset v :: rest →
      ∃ new : Word, (∀ k : Fin 8, limb new.toNat k.val = if k = j then v.toNat else limb s.modulus.toNat k.val) ∧
        step s = .next { s with turns := rest, modulus := new })

/-- R43: a host write to any curve register word while the engine is IDLE, also of the value it holds, turns every AFF
point register EMPTY; INF and EMPTY stay; of the curve registers only the addressed limb, or NVALID, changes. -/
def Obligations.CurveWritesEmptyAffinePoints : Prop :=
  ∀ (s : State) (v : BusWord) (rest : List Turn), s.engine = .idle →
    (∀ (r : CurveReg) (j : Fin 8), s.turns = writeTurn (Loc.curve r j).offset v :: rest →
      ∃ t : State, step s = .next t ∧ t.turns = rest ∧
        (∀ i : PReg, t.pt[i.val] = match s.pt[i.val] with | .aff _ _ => .empty | other => other) ∧
        (∀ (r' : CurveReg) (k : Fin 8), limb (t.getCurve r').toNat k.val =
          if r' = r ∧ k = j then v.toNat else limb (s.getCurve r').toNat k.val) ∧
        t = { s with turns := rest, pt := t.pt, curveP := t.curveP, curveA := t.curveA, curveB := t.curveB,
                     curveGX := t.curveGX, curveGY := t.curveGY, curveN := t.curveN }) ∧
    (s.turns = writeTurn Loc.nvalid.offset v :: rest →
      ∃ t : State, step s = .next t ∧
        (∀ i : PReg, t.pt[i.val] = match s.pt[i.val] with | .aff _ _ => .empty | other => other) ∧
        t = { s with turns := rest, pt := t.pt, nvalid := v.getLsbD 0 })

/-- While BUSY (R86): a supported write to x, MOD, a curve register word, CMD, or CTRL with bit 2 = 0 changes nothing
except DROP. That CURVE_NVALID is one of the curve register words is the model's deduction from R43 and R51, not R86's
words (log 13, DEDUCED). -/
def Obligations.WritesWhileBusyAreDropped : Prop :=
  ∀ (s : State) (w v : BusWord) (l : Loc) (rest : List Turn), s.engine = .busy w →
    s.turns = writeTurn l.offset v :: rest →
    (∃ i j, l = .x i j) ∨ (∃ j, l = .modulus j) ∨ (∃ r j, l = .curve r j) ∨ l = .nvalid ∨ l = .cmd ∨
      (l = .ctrl ∧ v.getLsbD 2 = false) →
    step s = .next { s with turns := rest, status := { s.status with drop := true } }

/-- While BUSY no host access but a soft reset changes a command input, a result or the command word (R86, R87): only
the four sticky flags, ERRCODE and the answers to reads can change. For CURVE_NVALID this is the model's deduction from
R43 and R51 (log 13, DEDUCED). -/
def Obligations.BusyProtectsEveryRegister : Prop :=
  ∀ (s : State) (w : BusWord) (a : Access) (rest : List Turn), s.engine = .busy w → s.turns = .host a :: rest →
    ¬ IsSoftReset a →
    ∃ t : State, step s = .next t ∧ t = { s with turns := rest, status := t.status, responses := t.responses } ∧
      t.status.eq = s.status.eq ∧ t.status.vok = s.status.vok ∧ t.status.oinf = s.status.oinf

/-- R37: a host write to STATUS is performed at any time, also while BUSY: each of bits 1, 2, 6, 7 that is 1 clears its
flag, bit 2 also ERRCODE; nothing else changes. -/
def Obligations.StatusWritesClearFlags : Prop :=
  ∀ (s : State) (v : BusWord) (rest : List Turn), s.turns = writeTurn 0x00C#12 v :: rest →
    step s = .next { s with
      turns := rest
      status := { s.status with
        done := s.status.done && !v.getLsbD 1
        err := s.status.err && !v.getLsbD 2
        errcode := if v.getLsbD 2 then none else s.status.errcode
        drop := s.status.drop && !v.getLsbD 6
        buserr := s.status.buserr && !v.getLsbD 7 } }

/-- R34: a write to CTRL with bit 2 = 0 while the engine is IDLE stores IE and NSRC; the reserved bits are ignored. -/
def Obligations.CtrlWritesStoreIeAndNsrc : Prop :=
  ∀ (s : State) (v : BusWord) (rest : List Turn), s.engine = .idle → v.getLsbD 2 = false →
    s.turns = writeTurn 0x008#12 v :: rest →
    step s = .next { s with turns := rest, ctrl := { ie := v.getLsbD 0, nsrc := v.getLsbD 1 } }

/-- The error latch (R276): while ERR = 1 every CMD write is dropped; after a write of 1 to STATUS bit 2 the next CMD
write is accepted, ERRCODE reads 0x00, and ERRCMD keeps its value. -/
def Obligations.ClearingErrAdmitsCommandsAgain : Prop :=
  ∀ (s : State) (w v : BusWord) (rest : List Turn), s.engine = .idle → s.status.err = true →
    (s.turns = writeTurn 0x010#12 w :: rest →
      step s = .next { s with turns := rest, status := { s.status with drop := true } }) ∧
    (v.getLsbD 2 = true → s.turns = writeTurn 0x00C#12 v :: writeTurn 0x010#12 w :: rest →
      ∃ t : State, core.run 2 s = .next t ∧ t.engine = .busy w ∧ t.status.err = false ∧
        t.status.errcode = none ∧ t.errcmd = s.errcmd ∧ t.turns = rest)

/-- R283: IRQ is CTRL.IE AND STATUS.DONE: pending after every completion when enabled, cleared by a write of 1 to
STATUS bit 1, by IE = 0, by the acceptance of a command and by reset; DONE rises only when a command completes. -/
def Obligations.IrqIsALevelOfCompletion : Prop :=
  (∀ s : State, s.irq = true ↔ s.ctrl.ie = true ∧ s.status.done = true) ∧
  (∀ (i : Instr) (s t : State), exec i s = .next t → t.irq = s.ctrl.ie) ∧
  (∀ (s t : State) (v : BusWord) (rest : List Turn), step s = .next t →
    (s.turns = writeTurn 0x00C#12 v :: rest ∧ v.getLsbD 1 = true) ∨
    (s.turns = writeTurn 0x008#12 v :: rest ∧ s.engine = .idle ∧ v.getLsbD 0 = false) ∨
    (s.turns = writeTurn 0x010#12 v :: rest ∧ s.engine = .idle ∧ s.status.err = false) ∨
    s.turns = .reset :: rest →
    t.irq = false) ∧
  (∀ s t : State, step s = .next t → s.status.done = false → t.status.done = true →
    (∃ w, s.engine = .busy w) ∧ t.engine = .idle)

/-! ### Host programs -/

/-- SETX and SETR load a whole register in eight accesses (R120, R48), wherever the block is placed (R80). -/
def Obligations.SetxAndSetrLoadWholeRegisters : Prop :=
  ∀ (base : Nat) (s : State) (v : Word) (rest : List Turn), s.engine = .idle →
    (∀ i : XReg, s.turns = setxProg base i v ++ rest →
      core.run 8 s = .next { s with turns := rest, x := s.x.set i.val v }) ∧
    (s.turns = setmodProg base v ++ rest → core.run 8 s = .next { s with turns := rest, modulus := v }) ∧
    (∀ r : CurveReg, s.turns = setrProg base r v ++ rest →
      ∃ t : State, core.run 8 s = .next t ∧ t.turns = rest ∧ t.x = s.x ∧
        ∀ r' : CurveReg, t.getCurve r' = if r' = r then v else s.getCurve r')

/-- ISSUE of a well-formed command, then the engine's turn, executes that command once (R120, R272, R274). -/
def Obligations.IssuedCommandsAreExecuted : Prop :=
  ∀ (base : Nat) (s : State) (i : Instr) (rest : List Turn), i.wellFormed = true → s.engine = .idle →
    s.status.err = false → s.turns = issueProg base i ++ .engine :: rest →
    core.run 2 s = exec i { s with
      turns := rest, engine := .busy (encode i), status := { s.status with done := false } }
end

