-- ==== Sys2Proof/Laws/Arith.lean ====
section
/-! SUPPORT. One lemma per arithmetic primitive: `imod`, the modular inverse, the power, the big-endian bytes and
the limbs. Later proofs cite these and do not unfold the loops. -/

namespace Sys2Proof.Machine

/-! ### imod -/

theorem imod_cast (v : Int) {m : Nat} (hm : 0 < m) : (imod v m : Int) = v % (m : Int) :=
  Int.toNat_of_nonneg (Int.emod_nonneg _ (by omega))

theorem imod_lt (v : Int) {m : Nat} (hm : 0 < m) : imod v m < m := by
  have h := Int.emod_lt_of_pos v (b := (m : Int)) (by omega)
  have := imod_cast v hm
  omega

theorem imod_eq_zero_iff (v : Int) {m : Nat} (hm : 0 < m) : imod v m = 0 ↔ (m : Int) ∣ v := by
  rw [Int.dvd_iff_emod_eq_zero, ← imod_cast v hm]
  omega

/-- `imod v m` is congruent to v. -/
theorem imod_modEq (v : Int) {m : Nat} (hm : 0 < m) : (imod v m : Int) ≡ v [ZMOD m] := by
  rw [imod_cast v hm]
  exact Int.mod_modEq v m

/-- A residue in [0, m) that is congruent to v is `imod v m`. -/
theorem imod_unique {v : Int} {m r : Nat} (hr : r < m) (h : (r : Int) ≡ v [ZMOD m]) : imod v m = r := by
  have hm : 0 < m := by omega
  have h1 : v % (m : Int) = r := by
    have := h.symm
    rw [Int.ModEq, Int.emod_eq_of_lt (a := (r : Int)) (by omega) (by omega)] at this
    exact this
  unfold imod
  omega

theorem imod_natCast (v m : Nat) : imod (v : Int) m = v % m := by
  unfold imod
  omega

/-! ### The modular inverse -/

/-- The coefficient of the next remainder: t0 - q t1, kept as a residue. -/
theorem egcd_coeff {m : Nat} (hm : 0 < m) (t0 t1 q : Nat) :
    (((t0 + (m - (q * t1) % m)) % m : Nat) : Int) ≡ t0 - q * t1 [ZMOD m] := by
  have hle : (q * t1) % m ≤ m := (Nat.mod_lt _ hm).le
  rw [Int.modEq_iff_dvd]
  have h1 : (((t0 + (m - (q * t1) % m)) % m : Nat) : Int) =
      (t0 + (m - ((q * t1) % m : Nat))) - m * ((t0 + (m - (q * t1) % m)) / m : Nat) := by
    have := Nat.div_add_mod (t0 + (m - (q * t1) % m)) m
    zify [hle] at this ⊢
    linarith
  have h2 : (((q * t1) % m : Nat) : Int) = q * t1 - m * ((q * t1) / m : Nat) := by
    have := Nat.div_add_mod (q * t1) m
    zify at this ⊢
    linarith
  rw [h1, h2]
  exact ⟨((t0 + (m - (q * t1) % m)) / m : Nat) - 1 - ((q * t1) / m : Nat), by ring⟩

/-- What the Euclidean iteration keeps: each remainder is its coefficient times `a`, mod m. -/
theorem egcd_spec {m : Nat} (hm : 0 < m) (a : Nat) :
    ∀ (fuel r0 r1 t0 t1 : Nat), r1 < fuel → t0 < m → t1 < m →
      (t0 : Int) * a ≡ r0 [ZMOD m] → (t1 : Int) * a ≡ r1 [ZMOD m] →
      egcd m fuel r0 r1 t0 t1 < m ∧ (egcd m fuel r0 r1 t0 t1 : Int) * a ≡ (Nat.gcd r0 r1 : Nat) [ZMOD m]
  | 0, _, _, _, _, h, _, _, _, _ => by omega
  | fuel + 1, r0, r1, t0, t1, hf, ht0, ht1, h0, h1 => by
    rw [egcd]
    by_cases hz : r1 = 0
    · subst hz
      simpa using ⟨ht0, h0⟩
    · rw [if_neg hz]
      have hlt : r0 % r1 < r1 := Nat.mod_lt _ (by omega)
      have hnew : (((t0 + (m - (r0 / r1 * t1) % m)) % m : Nat) : Int) * a ≡ ((r0 % r1 : Nat) : Int) [ZMOD m] := by
        calc _ ≡ (t0 - (r0 / r1 : Nat) * t1) * a [ZMOD m] := (egcd_coeff hm t0 t1 (r0 / r1)).mul_right _
          _ = t0 * a - (r0 / r1 : Nat) * (t1 * a) := by ring
          _ ≡ r0 - (r0 / r1 : Nat) * r1 [ZMOD m] := h0.sub (h1.mul_left _)
          _ = ((r0 % r1 : Nat) : Int) := by
            have := Nat.div_add_mod r0 r1
            zify at this
            push_cast
            linarith
      have h := egcd_spec hm a fuel r1 (r0 % r1) t1 _ (by omega) ht1 (Nat.mod_lt _ hm) h1 hnew
      rwa [Nat.gcd_comm r1, ← Nat.gcd_rec, Nat.gcd_comm r1] at h

/-- The inverse of a unit is below m, and times `a` it is 1 mod m. -/
theorem inverse_spec {a m : Nat} (hm : 2 < m) (h : Nat.gcd (a % m) m = 1) :
    inverse a m < m ∧ (inverse a m : Int) * a ≡ 1 [ZMOD m] := by
  have := egcd_spec (m := m) (by omega) a (m + 1) m (a % m) 0 1
    (by have := Nat.mod_lt a (y := m) (by omega); omega) (by omega) (by omega)
    (by simpa using (Int.emod_self (a := (m : Int))).symm ▸ (Int.ModEq.symm (by simp [Int.ModEq])))
    (by push_cast; rw [one_mul]; exact (Int.mod_modEq _ _).symm)
  rw [Nat.gcd_comm, h] at this
  exact_mod_cast this

/-- ModInv (R11): it answers v exactly when v is the one inverse of `a` in [1, m). -/
theorem modInv_ok_iff {a m v : Nat} (hm : 2 < m) :
    modInv a m = .ok v ↔ 1 ≤ v ∧ v < m ∧ a * v % m = 1 := by
  have key : ∀ {w : Nat}, a * w % m = 1 → Nat.gcd (a % m) m = 1 := by
    intro w hw
    have hd : Nat.gcd (a % m) m ∣ 1 := by
      rw [← hw]
      have h1 : Nat.gcd (a % m) m ∣ a * w :=
        ((Nat.dvd_mod_iff (Nat.gcd_dvd_right _ _)).1 (Nat.gcd_dvd_left (a % m) m)).mul_right _
      exact (Nat.dvd_mod_iff (Nat.gcd_dvd_right _ _)).2 h1
    exact Nat.dvd_one.1 hd
  unfold modInv
  constructor
  · intro h
    split at h
    · rename_i hg
      obtain rfl : inverse a m = v := by simpa using h
      obtain ⟨h1, h2⟩ := inverse_spec hm hg
      have h3 : a * inverse a m % m = 1 := by
        have h4 : inverse a m * a ≡ 1 [MOD m] := by exact_mod_cast h2
        rw [mul_comm]
        simpa [Nat.ModEq, Nat.mod_eq_of_lt (show 1 < m by omega)] using h4
      refine ⟨?_, h1, h3⟩
      rcases Nat.eq_zero_or_pos (inverse a m) with hz | hz
      · rw [hz] at h3; simp at h3
      · exact hz
    · simp at h
  · rintro ⟨_, hv, hav⟩
    rw [if_pos (key hav)]
    obtain ⟨h1, h2⟩ := inverse_spec hm (key hav)
    have h4 : inverse a m * a ≡ 1 [MOD m] := by exact_mod_cast h2
    have h5 : a * v ≡ 1 [MOD m] := by simpa [Nat.ModEq, Nat.mod_eq_of_lt (show 1 < m by omega)] using hav
    have h6 : inverse a m ≡ v [MOD m] := by
      calc inverse a m = inverse a m * 1 := (mul_one _).symm
        _ ≡ inverse a m * (a * v) [MOD m] := (h5.symm.mul_left _)
        _ = (inverse a m * a) * v := (mul_assoc ..).symm
        _ ≡ 1 * v [MOD m] := h4.mul_right _
        _ = v := one_mul _
    rw [Nat.ModEq, Nat.mod_eq_of_lt h1, Nat.mod_eq_of_lt hv] at h6
    rw [h6]

/-- ModInv (R11): it raises E_NOT_INVERTIBLE exactly when gcd(a mod m, m) is not 1, and nothing else. -/
theorem modInv_error_iff {a m : Nat} {e : ErrCode} :
    modInv a m = .error e ↔ Nat.gcd (a % m) m ≠ 1 ∧ e = .notInvertible := by
  unfold modInv
  split <;> simp_all [eq_comm]

/-! ### The power -/

theorem powLoop_spec (m : Nat) :
    ∀ (fuel b e acc : Nat), e ≤ fuel → acc < m → powLoop m fuel b e acc = acc * b ^ e % m
  | 0, b, e, acc, h, ha => by
    obtain rfl : e = 0 := by omega
    simp [powLoop, Nat.mod_eq_of_lt ha]
  | fuel + 1, b, e, acc, h, ha => by
    unfold powLoop
    by_cases he : e = 0
    · simp [he, Nat.mod_eq_of_lt ha]
    · rw [if_neg he]
      have hm : 0 < m := by omega
      have hlt : (if e % 2 = 1 then acc * b % m else acc) < m := by
        split
        · exact Nat.mod_lt _ hm
        · exact ha
      rw [powLoop_spec m fuel _ _ _ (by omega) hlt]
      have hsq : (b * b % m) ^ (e / 2) ≡ b ^ (2 * (e / 2)) [MOD m] := by
        rw [pow_mul, pow_two]
        exact (Nat.mod_modEq _ _).pow _
      rcases Nat.mod_two_eq_zero_or_one e with h2 | h2
      · have hee : 2 * (e / 2) = e := by omega
        rw [if_neg (by omega)]
        rw [hee] at hsq
        exact hsq.mul_left acc
      · have hee : 2 * (e / 2) + 1 = e := by omega
        rw [if_pos h2]
        calc acc * b % m * (b * b % m) ^ (e / 2) % m
            = acc * b * b ^ (2 * (e / 2)) % m := (Nat.mod_modEq _ _).mul hsq
          _ = acc * b ^ e % m := by rw [mul_assoc, ← pow_succ', hee]

/-- FPOW's power (R148). -/
theorem powMod_eq {b e m : Nat} (hm : 1 < m) : powMod b e m = b ^ e % m := by
  unfold powMod
  rw [Nat.mod_eq_of_lt hm, powLoop_spec m e _ _ _ le_rfl hm, one_mul]
  exact (Nat.mod_modEq b m).pow e

/-! ### Big-endian bytes -/

theorem bytesValue_foldl (bs : List Byte) (acc : Nat) :
    bs.foldl (fun acc b => acc * 256 + b.toNat) acc = acc * 256 ^ bs.length + bytesValue bs := by
  induction bs generalizing acc with
  | nil => simp [bytesValue]
  | cons b bs ih =>
    rw [bytesValue, List.foldl_cons, List.foldl_cons, ih, ih (0 * 256 + b.toNat), List.length_cons, pow_succ]
    ring

theorem bytesValue_cons (b : Byte) (bs : List Byte) :
    bytesValue (b :: bs) = b.toNat * 256 ^ bs.length + bytesValue bs := by
  rw [bytesValue, List.foldl_cons, bytesValue_foldl]
  simp

@[simp] theorem be_length (v len : Nat) : (be v len).length = len := by
  induction len with
  | zero => rfl
  | succ len ih => simp [be, ih]

/-- The L-byte string of v stands for v mod 256^L (R12). -/
theorem bytesValue_be (v len : Nat) : bytesValue (be v len) = v % 256 ^ len := by
  induction len with
  | zero => simp [be, bytesValue, Nat.mod_one]
  | succ len ih =>
    rw [be, bytesValue_cons, be_length, ih, BitVec.toNat_ofNat]
    have h := Nat.mod_mul (a := 256 ^ len) (b := 256) (x := v)
    rw [pow_succ 256 len, h]
    norm_num
    ring

/-! ### Limbs -/

theorem getLimb_getLsbD (v : Word) (j : Fin 8) (k : Nat) :
    (getLimb v j).getLsbD k = (decide (k < 32) && v.getLsbD (32 * j.val + k)) := by
  simp [getLimb]

theorem setLimb_getLsbD (v : Word) (j : Fin 8) (l : BusWord) (k : Nat) (hk : k < 256) :
    (setLimb v j l).getLsbD k =
      if 32 * j.val ≤ k ∧ k < 32 * j.val + 32 then l.getLsbD (k - 32 * j.val) else v.getLsbD k := by
  have hmask : ∀ i : Nat, (0xFFFFFFFF#256).getLsbD i = decide (i < 32) := by
    intro i
    have : (0xFFFFFFFF#256) = (BitVec.allOnes 32).setWidth 256 := by decide
    rw [this, BitVec.getLsbD_setWidth, BitVec.getLsbD_allOnes]
    by_cases h : i < 32 <;> simp [h]
    omega
  have hj := j.isLt
  simp only [setLimb, BitVec.getLsbD_or, BitVec.getLsbD_and, BitVec.getLsbD_not, BitVec.getLsbD_shiftLeft,
    BitVec.getLsbD_setWidth, hmask]
  by_cases h1 : k < 32 * j.val
  · simp [h1, hk, show ¬ 32 * j.val ≤ k by omega]
  · by_cases h2 : k < 32 * j.val + 32
    · simp [hk, h1, h2, show 32 * j.val ≤ k by omega, show k - 32 * j.val < 32 by omega, show k - 32 * j.val < 256 by omega]
    · have h3 : ¬ (k - 32 * j.val < 32) := by omega
      simp [hk, h1, h2, h3, BitVec.getLsbD_of_ge l (k - 32 * j.val) (by omega)]

/-- Reading a limb back after writing one (R48). -/
theorem getLimb_setLimb (v : Word) (j j' : Fin 8) (l : BusWord) :
    getLimb (setLimb v j l) j' = if j = j' then l else getLimb v j' := by
  have hj := j.isLt
  have hj' := j'.isLt
  apply BitVec.eq_of_getLsbD_eq
  intro k hk
  rw [getLimb_getLsbD, setLimb_getLsbD _ _ _ _ (by omega)]
  by_cases h : j = j'
  · subst h
    simp [hk]
  · have hne : j.val ≠ j'.val := fun hh => h (Fin.ext hh)
    rw [if_neg h, getLimb_getLsbD, if_neg (by omega)]

end Sys2Proof.Machine
end

