-- ==== Sys2Proof/Laws/Decode.lean ====
section
/-! SUPPORT. What each field reader and each field writer of the decoder answers, and that the fields of a word and
the word of fields undo each other (spec/30_encoding.md R110, R111). -/

namespace Sys2Proof

/-- Bits of the upper part of two joined bit vectors. -/
theorem extractLsb'_append_high {n m start len : Nat} (a : BitVec n) (b : BitVec m) (h : m ≤ start) :
    (a ++ b).extractLsb' start len = a.extractLsb' (start - m) len := by
  apply BitVec.eq_of_getLsbD_eq
  intro i hi
  simp only [BitVec.getLsbD_extractLsb', BitVec.getLsbD_append, hi, decide_true, Bool.true_and]
  rw [if_neg (by omega)]
  congr 1
  omega

/-- Bits of the lower part of two joined bit vectors. -/
theorem extractLsb'_append_low {n m start len : Nat} (a : BitVec n) (b : BitVec m) (h : start + len ≤ m) :
    (a ++ b).extractLsb' start len = b.extractLsb' start len := by
  apply BitVec.eq_of_getLsbD_eq
  intro i hi
  simp only [BitVec.getLsbD_extractLsb', BitVec.getLsbD_append, hi, decide_true, Bool.true_and]
  rw [if_pos (by omega)]

/-- Fields put into a word come back from it (R110). -/
theorem Fields.ofWord_toWord (f : Fields) : Fields.ofWord f.toWord = f := by
  cases f
  simp only [Fields.ofWord, Fields.toWord, Fields.mk.injEq]
  refine ⟨?_, ?_, ?_, ?_, ?_, ?_, ?_, ?_, ?_⟩ <;>
  · simp (disch := omega) only [extractLsb'_append_high, extractLsb'_append_low]
    exact BitVec.extractLsb'_eq_self

/-- The nine fields hold all 32 bits of a word (R110). -/
theorem Fields.toWord_ofWord (w : BusWord) : (Fields.ofWord w).toWord = w := by
  simp only [Fields.ofWord, Fields.toWord]
  iterate 8 rw [BitVec.extractLsb'_append_extractLsb'_eq_extractLsb' (by norm_num)]
  exact BitVec.extractLsb'_eq_self

/-- A decoding in sequence succeeds exactly when both parts do. -/
theorem illegal_bind_ok_iff {α β : Type} {r : Except Illegal α} {f : α → Except Illegal β} {b : β} :
    (r >>= f) = .ok b ↔ ∃ a, r = .ok a ∧ f a = .ok b := by
  cases r <;> simp [bind, Except.bind]

@[simp] theorem illegal_ok_bind {α β : Type} (a : α) (f : α → Except Illegal β) : (Except.ok a >>= f) = f a := rfl

@[simp] theorem zeroField_zero {k : Nat} : zeroField (0#k) = .ok () := by simp [zeroField]

theorem zeroField_ok_iff {k : Nat} {v : BitVec k} {u : Unit} : zeroField v = .ok u ↔ v = 0 := by
  unfold zeroField
  split <;> simp_all

theorem pField_ok_iff {v : BitVec 4} {r : PReg} : pField v = .ok r ↔ v = pBits r := by
  revert v r
  decide

theorem msField_ok_iff {v : BitVec 2} {ms : ModSel} : msField v = .ok ms ↔ v = msBits ms := by
  cases ms <;> revert v <;> decide

@[simp] theorem pField_pBits (r : PReg) : pField (pBits r) = .ok r := pField_ok_iff.2 rfl

@[simp] theorem msField_msBits (ms : ModSel) : msField (msBits ms) = .ok ms := msField_ok_iff.2 rfl

@[simp] theorem xField_xBits (r : XReg) : xField (xBits r) = r := rfl

@[simp] theorem xBits_xField (v : BitVec 4) : xBits (xField v) = v := rfl

@[simp] theorem xBits_inj {r r' : XReg} : xBits r = xBits r' ↔ r = r' := by simp [xBits, BitVec.ofFin.injEq]

end Sys2Proof
end

