-- ==== Sys2Proof/Laws/State.lean ====
section
/-! SUPPORT. What each shared update of State does to each field: one lemma a field and update, true by definition,
so that no later proof unfolds a record update. -/

namespace Sys2Proof.Machine

/-! ### setX -/

@[simp] theorem State.setX_x (s : State) (i : XReg) (v : Nat) : (s.setX i v).x = s.x.set i.val (BitVec.ofNat 256 v) := rfl
@[simp] theorem State.setX_pt (s : State) (i : XReg) (v : Nat) : (s.setX i v).pt = s.pt := rfl
@[simp] theorem State.setX_curveP (s : State) (i : XReg) (v : Nat) : (s.setX i v).curveP = s.curveP := rfl
@[simp] theorem State.setX_curveA (s : State) (i : XReg) (v : Nat) : (s.setX i v).curveA = s.curveA := rfl
@[simp] theorem State.setX_curveB (s : State) (i : XReg) (v : Nat) : (s.setX i v).curveB = s.curveB := rfl
@[simp] theorem State.setX_curveGX (s : State) (i : XReg) (v : Nat) : (s.setX i v).curveGX = s.curveGX := rfl
@[simp] theorem State.setX_curveGY (s : State) (i : XReg) (v : Nat) : (s.setX i v).curveGY = s.curveGY := rfl
@[simp] theorem State.setX_curveN (s : State) (i : XReg) (v : Nat) : (s.setX i v).curveN = s.curveN := rfl
@[simp] theorem State.setX_nvalid (s : State) (i : XReg) (v : Nat) : (s.setX i v).nvalid = s.nvalid := rfl
@[simp] theorem State.setX_modulus (s : State) (i : XReg) (v : Nat) : (s.setX i v).modulus = s.modulus := rfl
@[simp] theorem State.setX_ctrl (s : State) (i : XReg) (v : Nat) : (s.setX i v).ctrl = s.ctrl := rfl
@[simp] theorem State.setX_status (s : State) (i : XReg) (v : Nat) : (s.setX i v).status = s.status := rfl
@[simp] theorem State.setX_errcmd (s : State) (i : XReg) (v : Nat) : (s.setX i v).errcmd = s.errcmd := rfl
@[simp] theorem State.setX_olen (s : State) (i : XReg) (v : Nat) : (s.setX i v).olen = s.olen := rfl
@[simp] theorem State.setX_obuf (s : State) (i : XReg) (v : Nat) : (s.setX i v).obuf = s.obuf := rfl
@[simp] theorem State.setX_engine (s : State) (i : XReg) (v : Nat) : (s.setX i v).engine = s.engine := rfl
@[simp] theorem State.setX_turns (s : State) (i : XReg) (v : Nat) : (s.setX i v).turns = s.turns := rfl
@[simp] theorem State.setX_responses (s : State) (i : XReg) (v : Nat) : (s.setX i v).responses = s.responses := rfl
@[simp] theorem State.setX_drawn (s : State) (i : XReg) (v : Nat) : (s.setX i v).drawn = s.drawn := rfl

/-! ### setPt -/

@[simp] theorem State.setPt_x (s : State) (i : PReg) (v : Point) : (s.setPt i v).x = s.x := rfl
@[simp] theorem State.setPt_pt (s : State) (i : PReg) (v : Point) : (s.setPt i v).pt = s.pt.set i.val v.toReg := rfl
@[simp] theorem State.setPt_curveP (s : State) (i : PReg) (v : Point) : (s.setPt i v).curveP = s.curveP := rfl
@[simp] theorem State.setPt_curveA (s : State) (i : PReg) (v : Point) : (s.setPt i v).curveA = s.curveA := rfl
@[simp] theorem State.setPt_curveB (s : State) (i : PReg) (v : Point) : (s.setPt i v).curveB = s.curveB := rfl
@[simp] theorem State.setPt_curveGX (s : State) (i : PReg) (v : Point) : (s.setPt i v).curveGX = s.curveGX := rfl
@[simp] theorem State.setPt_curveGY (s : State) (i : PReg) (v : Point) : (s.setPt i v).curveGY = s.curveGY := rfl
@[simp] theorem State.setPt_curveN (s : State) (i : PReg) (v : Point) : (s.setPt i v).curveN = s.curveN := rfl
@[simp] theorem State.setPt_nvalid (s : State) (i : PReg) (v : Point) : (s.setPt i v).nvalid = s.nvalid := rfl
@[simp] theorem State.setPt_modulus (s : State) (i : PReg) (v : Point) : (s.setPt i v).modulus = s.modulus := rfl
@[simp] theorem State.setPt_ctrl (s : State) (i : PReg) (v : Point) : (s.setPt i v).ctrl = s.ctrl := rfl
@[simp] theorem State.setPt_status (s : State) (i : PReg) (v : Point) : (s.setPt i v).status = s.status := rfl
@[simp] theorem State.setPt_errcmd (s : State) (i : PReg) (v : Point) : (s.setPt i v).errcmd = s.errcmd := rfl
@[simp] theorem State.setPt_olen (s : State) (i : PReg) (v : Point) : (s.setPt i v).olen = s.olen := rfl
@[simp] theorem State.setPt_obuf (s : State) (i : PReg) (v : Point) : (s.setPt i v).obuf = s.obuf := rfl
@[simp] theorem State.setPt_engine (s : State) (i : PReg) (v : Point) : (s.setPt i v).engine = s.engine := rfl
@[simp] theorem State.setPt_turns (s : State) (i : PReg) (v : Point) : (s.setPt i v).turns = s.turns := rfl
@[simp] theorem State.setPt_responses (s : State) (i : PReg) (v : Point) : (s.setPt i v).responses = s.responses := rfl
@[simp] theorem State.setPt_drawn (s : State) (i : PReg) (v : Point) : (s.setPt i v).drawn = s.drawn := rfl

/-! ### invalidatePoints -/

@[simp] theorem State.invalidatePoints_x (s : State) : (s.invalidatePoints).x = s.x := rfl
@[simp] theorem State.invalidatePoints_pt (s : State) : (s.invalidatePoints).pt = Vector.ofFn fun i => s.pt[i].invalidate := rfl
@[simp] theorem State.invalidatePoints_curveP (s : State) : (s.invalidatePoints).curveP = s.curveP := rfl
@[simp] theorem State.invalidatePoints_curveA (s : State) : (s.invalidatePoints).curveA = s.curveA := rfl
@[simp] theorem State.invalidatePoints_curveB (s : State) : (s.invalidatePoints).curveB = s.curveB := rfl
@[simp] theorem State.invalidatePoints_curveGX (s : State) : (s.invalidatePoints).curveGX = s.curveGX := rfl
@[simp] theorem State.invalidatePoints_curveGY (s : State) : (s.invalidatePoints).curveGY = s.curveGY := rfl
@[simp] theorem State.invalidatePoints_curveN (s : State) : (s.invalidatePoints).curveN = s.curveN := rfl
@[simp] theorem State.invalidatePoints_nvalid (s : State) : (s.invalidatePoints).nvalid = s.nvalid := rfl
@[simp] theorem State.invalidatePoints_modulus (s : State) : (s.invalidatePoints).modulus = s.modulus := rfl
@[simp] theorem State.invalidatePoints_ctrl (s : State) : (s.invalidatePoints).ctrl = s.ctrl := rfl
@[simp] theorem State.invalidatePoints_status (s : State) : (s.invalidatePoints).status = s.status := rfl
@[simp] theorem State.invalidatePoints_errcmd (s : State) : (s.invalidatePoints).errcmd = s.errcmd := rfl
@[simp] theorem State.invalidatePoints_olen (s : State) : (s.invalidatePoints).olen = s.olen := rfl
@[simp] theorem State.invalidatePoints_obuf (s : State) : (s.invalidatePoints).obuf = s.obuf := rfl
@[simp] theorem State.invalidatePoints_engine (s : State) : (s.invalidatePoints).engine = s.engine := rfl
@[simp] theorem State.invalidatePoints_turns (s : State) : (s.invalidatePoints).turns = s.turns := rfl
@[simp] theorem State.invalidatePoints_responses (s : State) : (s.invalidatePoints).responses = s.responses := rfl
@[simp] theorem State.invalidatePoints_drawn (s : State) : (s.invalidatePoints).drawn = s.drawn := rfl

/-! ### setOutput -/

@[simp] theorem State.setOutput_x (s : State) (out : List Byte) : (s.setOutput out).x = s.x := rfl
@[simp] theorem State.setOutput_pt (s : State) (out : List Byte) : (s.setOutput out).pt = s.pt := rfl
@[simp] theorem State.setOutput_curveP (s : State) (out : List Byte) : (s.setOutput out).curveP = s.curveP := rfl
@[simp] theorem State.setOutput_curveA (s : State) (out : List Byte) : (s.setOutput out).curveA = s.curveA := rfl
@[simp] theorem State.setOutput_curveB (s : State) (out : List Byte) : (s.setOutput out).curveB = s.curveB := rfl
@[simp] theorem State.setOutput_curveGX (s : State) (out : List Byte) : (s.setOutput out).curveGX = s.curveGX := rfl
@[simp] theorem State.setOutput_curveGY (s : State) (out : List Byte) : (s.setOutput out).curveGY = s.curveGY := rfl
@[simp] theorem State.setOutput_curveN (s : State) (out : List Byte) : (s.setOutput out).curveN = s.curveN := rfl
@[simp] theorem State.setOutput_nvalid (s : State) (out : List Byte) : (s.setOutput out).nvalid = s.nvalid := rfl
@[simp] theorem State.setOutput_modulus (s : State) (out : List Byte) : (s.setOutput out).modulus = s.modulus := rfl
@[simp] theorem State.setOutput_ctrl (s : State) (out : List Byte) : (s.setOutput out).ctrl = s.ctrl := rfl
@[simp] theorem State.setOutput_status (s : State) (out : List Byte) : (s.setOutput out).status = s.status := rfl
@[simp] theorem State.setOutput_errcmd (s : State) (out : List Byte) : (s.setOutput out).errcmd = s.errcmd := rfl
@[simp] theorem State.setOutput_olen (s : State) (out : List Byte) : (s.setOutput out).olen = BitVec.ofNat 7 out.length := rfl
@[simp] theorem State.setOutput_obuf (s : State) (out : List Byte) : (s.setOutput out).obuf = fillObuf out := rfl
@[simp] theorem State.setOutput_engine (s : State) (out : List Byte) : (s.setOutput out).engine = s.engine := rfl
@[simp] theorem State.setOutput_turns (s : State) (out : List Byte) : (s.setOutput out).turns = s.turns := rfl
@[simp] theorem State.setOutput_responses (s : State) (out : List Byte) : (s.setOutput out).responses = s.responses := rfl
@[simp] theorem State.setOutput_drawn (s : State) (out : List Byte) : (s.setOutput out).drawn = s.drawn := rfl

/-! ### setEQ -/

@[simp] theorem State.setEQ_x (s : State) (b : Bool) : (s.setEQ b).x = s.x := rfl
@[simp] theorem State.setEQ_pt (s : State) (b : Bool) : (s.setEQ b).pt = s.pt := rfl
@[simp] theorem State.setEQ_curveP (s : State) (b : Bool) : (s.setEQ b).curveP = s.curveP := rfl
@[simp] theorem State.setEQ_curveA (s : State) (b : Bool) : (s.setEQ b).curveA = s.curveA := rfl
@[simp] theorem State.setEQ_curveB (s : State) (b : Bool) : (s.setEQ b).curveB = s.curveB := rfl
@[simp] theorem State.setEQ_curveGX (s : State) (b : Bool) : (s.setEQ b).curveGX = s.curveGX := rfl
@[simp] theorem State.setEQ_curveGY (s : State) (b : Bool) : (s.setEQ b).curveGY = s.curveGY := rfl
@[simp] theorem State.setEQ_curveN (s : State) (b : Bool) : (s.setEQ b).curveN = s.curveN := rfl
@[simp] theorem State.setEQ_nvalid (s : State) (b : Bool) : (s.setEQ b).nvalid = s.nvalid := rfl
@[simp] theorem State.setEQ_modulus (s : State) (b : Bool) : (s.setEQ b).modulus = s.modulus := rfl
@[simp] theorem State.setEQ_ctrl (s : State) (b : Bool) : (s.setEQ b).ctrl = s.ctrl := rfl
@[simp] theorem State.setEQ_status (s : State) (b : Bool) : (s.setEQ b).status = { s.status with eq := b } := rfl
@[simp] theorem State.setEQ_errcmd (s : State) (b : Bool) : (s.setEQ b).errcmd = s.errcmd := rfl
@[simp] theorem State.setEQ_olen (s : State) (b : Bool) : (s.setEQ b).olen = s.olen := rfl
@[simp] theorem State.setEQ_obuf (s : State) (b : Bool) : (s.setEQ b).obuf = s.obuf := rfl
@[simp] theorem State.setEQ_engine (s : State) (b : Bool) : (s.setEQ b).engine = s.engine := rfl
@[simp] theorem State.setEQ_turns (s : State) (b : Bool) : (s.setEQ b).turns = s.turns := rfl
@[simp] theorem State.setEQ_responses (s : State) (b : Bool) : (s.setEQ b).responses = s.responses := rfl
@[simp] theorem State.setEQ_drawn (s : State) (b : Bool) : (s.setEQ b).drawn = s.drawn := rfl

/-! ### setVOK -/

@[simp] theorem State.setVOK_x (s : State) (b : Bool) : (s.setVOK b).x = s.x := rfl
@[simp] theorem State.setVOK_pt (s : State) (b : Bool) : (s.setVOK b).pt = s.pt := rfl
@[simp] theorem State.setVOK_curveP (s : State) (b : Bool) : (s.setVOK b).curveP = s.curveP := rfl
@[simp] theorem State.setVOK_curveA (s : State) (b : Bool) : (s.setVOK b).curveA = s.curveA := rfl
@[simp] theorem State.setVOK_curveB (s : State) (b : Bool) : (s.setVOK b).curveB = s.curveB := rfl
@[simp] theorem State.setVOK_curveGX (s : State) (b : Bool) : (s.setVOK b).curveGX = s.curveGX := rfl
@[simp] theorem State.setVOK_curveGY (s : State) (b : Bool) : (s.setVOK b).curveGY = s.curveGY := rfl
@[simp] theorem State.setVOK_curveN (s : State) (b : Bool) : (s.setVOK b).curveN = s.curveN := rfl
@[simp] theorem State.setVOK_nvalid (s : State) (b : Bool) : (s.setVOK b).nvalid = s.nvalid := rfl
@[simp] theorem State.setVOK_modulus (s : State) (b : Bool) : (s.setVOK b).modulus = s.modulus := rfl
@[simp] theorem State.setVOK_ctrl (s : State) (b : Bool) : (s.setVOK b).ctrl = s.ctrl := rfl
@[simp] theorem State.setVOK_status (s : State) (b : Bool) : (s.setVOK b).status = { s.status with vok := b } := rfl
@[simp] theorem State.setVOK_errcmd (s : State) (b : Bool) : (s.setVOK b).errcmd = s.errcmd := rfl
@[simp] theorem State.setVOK_olen (s : State) (b : Bool) : (s.setVOK b).olen = s.olen := rfl
@[simp] theorem State.setVOK_obuf (s : State) (b : Bool) : (s.setVOK b).obuf = s.obuf := rfl
@[simp] theorem State.setVOK_engine (s : State) (b : Bool) : (s.setVOK b).engine = s.engine := rfl
@[simp] theorem State.setVOK_turns (s : State) (b : Bool) : (s.setVOK b).turns = s.turns := rfl
@[simp] theorem State.setVOK_responses (s : State) (b : Bool) : (s.setVOK b).responses = s.responses := rfl
@[simp] theorem State.setVOK_drawn (s : State) (b : Bool) : (s.setVOK b).drawn = s.drawn := rfl

/-! ### setOINF -/

@[simp] theorem State.setOINF_x (s : State) (b : Bool) : (s.setOINF b).x = s.x := rfl
@[simp] theorem State.setOINF_pt (s : State) (b : Bool) : (s.setOINF b).pt = s.pt := rfl
@[simp] theorem State.setOINF_curveP (s : State) (b : Bool) : (s.setOINF b).curveP = s.curveP := rfl
@[simp] theorem State.setOINF_curveA (s : State) (b : Bool) : (s.setOINF b).curveA = s.curveA := rfl
@[simp] theorem State.setOINF_curveB (s : State) (b : Bool) : (s.setOINF b).curveB = s.curveB := rfl
@[simp] theorem State.setOINF_curveGX (s : State) (b : Bool) : (s.setOINF b).curveGX = s.curveGX := rfl
@[simp] theorem State.setOINF_curveGY (s : State) (b : Bool) : (s.setOINF b).curveGY = s.curveGY := rfl
@[simp] theorem State.setOINF_curveN (s : State) (b : Bool) : (s.setOINF b).curveN = s.curveN := rfl
@[simp] theorem State.setOINF_nvalid (s : State) (b : Bool) : (s.setOINF b).nvalid = s.nvalid := rfl
@[simp] theorem State.setOINF_modulus (s : State) (b : Bool) : (s.setOINF b).modulus = s.modulus := rfl
@[simp] theorem State.setOINF_ctrl (s : State) (b : Bool) : (s.setOINF b).ctrl = s.ctrl := rfl
@[simp] theorem State.setOINF_status (s : State) (b : Bool) : (s.setOINF b).status = { s.status with oinf := b } := rfl
@[simp] theorem State.setOINF_errcmd (s : State) (b : Bool) : (s.setOINF b).errcmd = s.errcmd := rfl
@[simp] theorem State.setOINF_olen (s : State) (b : Bool) : (s.setOINF b).olen = s.olen := rfl
@[simp] theorem State.setOINF_obuf (s : State) (b : Bool) : (s.setOINF b).obuf = s.obuf := rfl
@[simp] theorem State.setOINF_engine (s : State) (b : Bool) : (s.setOINF b).engine = s.engine := rfl
@[simp] theorem State.setOINF_turns (s : State) (b : Bool) : (s.setOINF b).turns = s.turns := rfl
@[simp] theorem State.setOINF_responses (s : State) (b : Bool) : (s.setOINF b).responses = s.responses := rfl
@[simp] theorem State.setOINF_drawn (s : State) (b : Bool) : (s.setOINF b).drawn = s.drawn := rfl

/-! ### setDrop -/

@[simp] theorem State.setDrop_x (s : State) : (s.setDrop).x = s.x := rfl
@[simp] theorem State.setDrop_pt (s : State) : (s.setDrop).pt = s.pt := rfl
@[simp] theorem State.setDrop_curveP (s : State) : (s.setDrop).curveP = s.curveP := rfl
@[simp] theorem State.setDrop_curveA (s : State) : (s.setDrop).curveA = s.curveA := rfl
@[simp] theorem State.setDrop_curveB (s : State) : (s.setDrop).curveB = s.curveB := rfl
@[simp] theorem State.setDrop_curveGX (s : State) : (s.setDrop).curveGX = s.curveGX := rfl
@[simp] theorem State.setDrop_curveGY (s : State) : (s.setDrop).curveGY = s.curveGY := rfl
@[simp] theorem State.setDrop_curveN (s : State) : (s.setDrop).curveN = s.curveN := rfl
@[simp] theorem State.setDrop_nvalid (s : State) : (s.setDrop).nvalid = s.nvalid := rfl
@[simp] theorem State.setDrop_modulus (s : State) : (s.setDrop).modulus = s.modulus := rfl
@[simp] theorem State.setDrop_ctrl (s : State) : (s.setDrop).ctrl = s.ctrl := rfl
@[simp] theorem State.setDrop_status (s : State) : (s.setDrop).status = { s.status with drop := true } := rfl
@[simp] theorem State.setDrop_errcmd (s : State) : (s.setDrop).errcmd = s.errcmd := rfl
@[simp] theorem State.setDrop_olen (s : State) : (s.setDrop).olen = s.olen := rfl
@[simp] theorem State.setDrop_obuf (s : State) : (s.setDrop).obuf = s.obuf := rfl
@[simp] theorem State.setDrop_engine (s : State) : (s.setDrop).engine = s.engine := rfl
@[simp] theorem State.setDrop_turns (s : State) : (s.setDrop).turns = s.turns := rfl
@[simp] theorem State.setDrop_responses (s : State) : (s.setDrop).responses = s.responses := rfl
@[simp] theorem State.setDrop_drawn (s : State) : (s.setDrop).drawn = s.drawn := rfl

/-! ### setBusErr -/

@[simp] theorem State.setBusErr_x (s : State) : (s.setBusErr).x = s.x := rfl
@[simp] theorem State.setBusErr_pt (s : State) : (s.setBusErr).pt = s.pt := rfl
@[simp] theorem State.setBusErr_curveP (s : State) : (s.setBusErr).curveP = s.curveP := rfl
@[simp] theorem State.setBusErr_curveA (s : State) : (s.setBusErr).curveA = s.curveA := rfl
@[simp] theorem State.setBusErr_curveB (s : State) : (s.setBusErr).curveB = s.curveB := rfl
@[simp] theorem State.setBusErr_curveGX (s : State) : (s.setBusErr).curveGX = s.curveGX := rfl
@[simp] theorem State.setBusErr_curveGY (s : State) : (s.setBusErr).curveGY = s.curveGY := rfl
@[simp] theorem State.setBusErr_curveN (s : State) : (s.setBusErr).curveN = s.curveN := rfl
@[simp] theorem State.setBusErr_nvalid (s : State) : (s.setBusErr).nvalid = s.nvalid := rfl
@[simp] theorem State.setBusErr_modulus (s : State) : (s.setBusErr).modulus = s.modulus := rfl
@[simp] theorem State.setBusErr_ctrl (s : State) : (s.setBusErr).ctrl = s.ctrl := rfl
@[simp] theorem State.setBusErr_status (s : State) : (s.setBusErr).status = { s.status with buserr := true } := rfl
@[simp] theorem State.setBusErr_errcmd (s : State) : (s.setBusErr).errcmd = s.errcmd := rfl
@[simp] theorem State.setBusErr_olen (s : State) : (s.setBusErr).olen = s.olen := rfl
@[simp] theorem State.setBusErr_obuf (s : State) : (s.setBusErr).obuf = s.obuf := rfl
@[simp] theorem State.setBusErr_engine (s : State) : (s.setBusErr).engine = s.engine := rfl
@[simp] theorem State.setBusErr_turns (s : State) : (s.setBusErr).turns = s.turns := rfl
@[simp] theorem State.setBusErr_responses (s : State) : (s.setBusErr).responses = s.responses := rfl
@[simp] theorem State.setBusErr_drawn (s : State) : (s.setBusErr).drawn = s.drawn := rfl

/-! ### finish -/

@[simp] theorem State.finish_x (s : State) : (s.finish).x = s.x := rfl
@[simp] theorem State.finish_pt (s : State) : (s.finish).pt = s.pt := rfl
@[simp] theorem State.finish_curveP (s : State) : (s.finish).curveP = s.curveP := rfl
@[simp] theorem State.finish_curveA (s : State) : (s.finish).curveA = s.curveA := rfl
@[simp] theorem State.finish_curveB (s : State) : (s.finish).curveB = s.curveB := rfl
@[simp] theorem State.finish_curveGX (s : State) : (s.finish).curveGX = s.curveGX := rfl
@[simp] theorem State.finish_curveGY (s : State) : (s.finish).curveGY = s.curveGY := rfl
@[simp] theorem State.finish_curveN (s : State) : (s.finish).curveN = s.curveN := rfl
@[simp] theorem State.finish_nvalid (s : State) : (s.finish).nvalid = s.nvalid := rfl
@[simp] theorem State.finish_modulus (s : State) : (s.finish).modulus = s.modulus := rfl
@[simp] theorem State.finish_ctrl (s : State) : (s.finish).ctrl = s.ctrl := rfl
@[simp] theorem State.finish_status (s : State) : (s.finish).status = { s.status with done := true } := rfl
@[simp] theorem State.finish_errcmd (s : State) : (s.finish).errcmd = s.errcmd := rfl
@[simp] theorem State.finish_olen (s : State) : (s.finish).olen = s.olen := rfl
@[simp] theorem State.finish_obuf (s : State) : (s.finish).obuf = s.obuf := rfl
@[simp] theorem State.finish_engine (s : State) : (s.finish).engine = .idle := rfl
@[simp] theorem State.finish_turns (s : State) : (s.finish).turns = s.turns := rfl
@[simp] theorem State.finish_responses (s : State) : (s.finish).responses = s.responses := rfl
@[simp] theorem State.finish_drawn (s : State) : (s.finish).drawn = s.drawn := rfl

/-! ### errorEntry -/

@[simp] theorem State.errorEntry_x (s : State) (c : ErrCode) : (s.errorEntry c).x = s.x := rfl
@[simp] theorem State.errorEntry_pt (s : State) (c : ErrCode) : (s.errorEntry c).pt = s.pt := rfl
@[simp] theorem State.errorEntry_curveP (s : State) (c : ErrCode) : (s.errorEntry c).curveP = s.curveP := rfl
@[simp] theorem State.errorEntry_curveA (s : State) (c : ErrCode) : (s.errorEntry c).curveA = s.curveA := rfl
@[simp] theorem State.errorEntry_curveB (s : State) (c : ErrCode) : (s.errorEntry c).curveB = s.curveB := rfl
@[simp] theorem State.errorEntry_curveGX (s : State) (c : ErrCode) : (s.errorEntry c).curveGX = s.curveGX := rfl
@[simp] theorem State.errorEntry_curveGY (s : State) (c : ErrCode) : (s.errorEntry c).curveGY = s.curveGY := rfl
@[simp] theorem State.errorEntry_curveN (s : State) (c : ErrCode) : (s.errorEntry c).curveN = s.curveN := rfl
@[simp] theorem State.errorEntry_nvalid (s : State) (c : ErrCode) : (s.errorEntry c).nvalid = s.nvalid := rfl
@[simp] theorem State.errorEntry_modulus (s : State) (c : ErrCode) : (s.errorEntry c).modulus = s.modulus := rfl
@[simp] theorem State.errorEntry_ctrl (s : State) (c : ErrCode) : (s.errorEntry c).ctrl = s.ctrl := rfl
@[simp] theorem State.errorEntry_status (s : State) (c : ErrCode) : (s.errorEntry c).status = { s.status with done := true, err := true, errcode := some c } := rfl
@[simp] theorem State.errorEntry_errcmd (s : State) (c : ErrCode) : (s.errorEntry c).errcmd = s.wordForErrcmd := rfl
@[simp] theorem State.errorEntry_olen (s : State) (c : ErrCode) : (s.errorEntry c).olen = s.olen := rfl
@[simp] theorem State.errorEntry_obuf (s : State) (c : ErrCode) : (s.errorEntry c).obuf = s.obuf := rfl
@[simp] theorem State.errorEntry_engine (s : State) (c : ErrCode) : (s.errorEntry c).engine = .idle := rfl
@[simp] theorem State.errorEntry_turns (s : State) (c : ErrCode) : (s.errorEntry c).turns = s.turns := rfl
@[simp] theorem State.errorEntry_responses (s : State) (c : ErrCode) : (s.errorEntry c).responses = s.responses := rfl
@[simp] theorem State.errorEntry_drawn (s : State) (c : ErrCode) : (s.errorEntry c).drawn = s.drawn := rfl

/-! ### respond -/

@[simp] theorem State.respond_x (s : State) (v : BusWord) : (s.respond v).x = s.x := rfl
@[simp] theorem State.respond_pt (s : State) (v : BusWord) : (s.respond v).pt = s.pt := rfl
@[simp] theorem State.respond_curveP (s : State) (v : BusWord) : (s.respond v).curveP = s.curveP := rfl
@[simp] theorem State.respond_curveA (s : State) (v : BusWord) : (s.respond v).curveA = s.curveA := rfl
@[simp] theorem State.respond_curveB (s : State) (v : BusWord) : (s.respond v).curveB = s.curveB := rfl
@[simp] theorem State.respond_curveGX (s : State) (v : BusWord) : (s.respond v).curveGX = s.curveGX := rfl
@[simp] theorem State.respond_curveGY (s : State) (v : BusWord) : (s.respond v).curveGY = s.curveGY := rfl
@[simp] theorem State.respond_curveN (s : State) (v : BusWord) : (s.respond v).curveN = s.curveN := rfl
@[simp] theorem State.respond_nvalid (s : State) (v : BusWord) : (s.respond v).nvalid = s.nvalid := rfl
@[simp] theorem State.respond_modulus (s : State) (v : BusWord) : (s.respond v).modulus = s.modulus := rfl
@[simp] theorem State.respond_ctrl (s : State) (v : BusWord) : (s.respond v).ctrl = s.ctrl := rfl
@[simp] theorem State.respond_status (s : State) (v : BusWord) : (s.respond v).status = s.status := rfl
@[simp] theorem State.respond_errcmd (s : State) (v : BusWord) : (s.respond v).errcmd = s.errcmd := rfl
@[simp] theorem State.respond_olen (s : State) (v : BusWord) : (s.respond v).olen = s.olen := rfl
@[simp] theorem State.respond_obuf (s : State) (v : BusWord) : (s.respond v).obuf = s.obuf := rfl
@[simp] theorem State.respond_engine (s : State) (v : BusWord) : (s.respond v).engine = s.engine := rfl
@[simp] theorem State.respond_turns (s : State) (v : BusWord) : (s.respond v).turns = s.turns := rfl
@[simp] theorem State.respond_responses (s : State) (v : BusWord) : (s.respond v).responses = v :: s.responses := rfl
@[simp] theorem State.respond_drawn (s : State) (v : BusWord) : (s.respond v).drawn = s.drawn := rfl

/-! ### doReset -/

@[simp] theorem State.doReset_x (s : State) : (s.doReset).x = State.reset.x := rfl
@[simp] theorem State.doReset_pt (s : State) : (s.doReset).pt = State.reset.pt := rfl
@[simp] theorem State.doReset_curveP (s : State) : (s.doReset).curveP = State.reset.curveP := rfl
@[simp] theorem State.doReset_curveA (s : State) : (s.doReset).curveA = State.reset.curveA := rfl
@[simp] theorem State.doReset_curveB (s : State) : (s.doReset).curveB = State.reset.curveB := rfl
@[simp] theorem State.doReset_curveGX (s : State) : (s.doReset).curveGX = State.reset.curveGX := rfl
@[simp] theorem State.doReset_curveGY (s : State) : (s.doReset).curveGY = State.reset.curveGY := rfl
@[simp] theorem State.doReset_curveN (s : State) : (s.doReset).curveN = State.reset.curveN := rfl
@[simp] theorem State.doReset_nvalid (s : State) : (s.doReset).nvalid = State.reset.nvalid := rfl
@[simp] theorem State.doReset_modulus (s : State) : (s.doReset).modulus = State.reset.modulus := rfl
@[simp] theorem State.doReset_ctrl (s : State) : (s.doReset).ctrl = State.reset.ctrl := rfl
@[simp] theorem State.doReset_status (s : State) : (s.doReset).status = State.reset.status := rfl
@[simp] theorem State.doReset_errcmd (s : State) : (s.doReset).errcmd = State.reset.errcmd := rfl
@[simp] theorem State.doReset_olen (s : State) : (s.doReset).olen = State.reset.olen := rfl
@[simp] theorem State.doReset_obuf (s : State) : (s.doReset).obuf = State.reset.obuf := rfl
@[simp] theorem State.doReset_engine (s : State) : (s.doReset).engine = State.reset.engine := rfl
@[simp] theorem State.doReset_turns (s : State) : (s.doReset).turns = s.turns := rfl
@[simp] theorem State.doReset_responses (s : State) : (s.doReset).responses = s.responses := rfl
@[simp] theorem State.doReset_drawn (s : State) : (s.doReset).drawn = s.drawn := rfl

/-! ### setCurve -/

@[simp] theorem State.setCurve_x (s : State) (r : CurveReg) (v : Word) : (s.setCurve r v).x = s.x := by
  cases r <;> rfl
@[simp] theorem State.setCurve_pt (s : State) (r : CurveReg) (v : Word) : (s.setCurve r v).pt = s.pt := by
  cases r <;> rfl
@[simp] theorem State.setCurve_curveP (s : State) (r : CurveReg) (v : Word) :
    (s.setCurve r v).curveP = if r = .p then v else s.curveP := by cases r <;> rfl
@[simp] theorem State.setCurve_curveA (s : State) (r : CurveReg) (v : Word) :
    (s.setCurve r v).curveA = if r = .a then v else s.curveA := by cases r <;> rfl
@[simp] theorem State.setCurve_curveB (s : State) (r : CurveReg) (v : Word) :
    (s.setCurve r v).curveB = if r = .b then v else s.curveB := by cases r <;> rfl
@[simp] theorem State.setCurve_curveGX (s : State) (r : CurveReg) (v : Word) :
    (s.setCurve r v).curveGX = if r = .gx then v else s.curveGX := by cases r <;> rfl
@[simp] theorem State.setCurve_curveGY (s : State) (r : CurveReg) (v : Word) :
    (s.setCurve r v).curveGY = if r = .gy then v else s.curveGY := by cases r <;> rfl
@[simp] theorem State.setCurve_curveN (s : State) (r : CurveReg) (v : Word) :
    (s.setCurve r v).curveN = if r = .n then v else s.curveN := by cases r <;> rfl
@[simp] theorem State.setCurve_nvalid (s : State) (r : CurveReg) (v : Word) : (s.setCurve r v).nvalid = s.nvalid := by
  cases r <;> rfl
@[simp] theorem State.setCurve_modulus (s : State) (r : CurveReg) (v : Word) : (s.setCurve r v).modulus = s.modulus := by
  cases r <;> rfl
@[simp] theorem State.setCurve_ctrl (s : State) (r : CurveReg) (v : Word) : (s.setCurve r v).ctrl = s.ctrl := by
  cases r <;> rfl
@[simp] theorem State.setCurve_status (s : State) (r : CurveReg) (v : Word) : (s.setCurve r v).status = s.status := by
  cases r <;> rfl
@[simp] theorem State.setCurve_errcmd (s : State) (r : CurveReg) (v : Word) : (s.setCurve r v).errcmd = s.errcmd := by
  cases r <;> rfl
@[simp] theorem State.setCurve_olen (s : State) (r : CurveReg) (v : Word) : (s.setCurve r v).olen = s.olen := by
  cases r <;> rfl
@[simp] theorem State.setCurve_obuf (s : State) (r : CurveReg) (v : Word) : (s.setCurve r v).obuf = s.obuf := by
  cases r <;> rfl
@[simp] theorem State.setCurve_engine (s : State) (r : CurveReg) (v : Word) : (s.setCurve r v).engine = s.engine := by
  cases r <;> rfl
@[simp] theorem State.setCurve_turns (s : State) (r : CurveReg) (v : Word) : (s.setCurve r v).turns = s.turns := by
  cases r <;> rfl
@[simp] theorem State.setCurve_responses (s : State) (r : CurveReg) (v : Word) : (s.setCurve r v).responses = s.responses := by
  cases r <;> rfl
@[simp] theorem State.setCurve_drawn (s : State) (r : CurveReg) (v : Word) : (s.setCurve r v).drawn = s.drawn := by
  cases r <;> rfl

end Sys2Proof.Machine
end

