-- ==== Sys2Proof/Laws/Operands.lean ====
section
/-! SUPPORT. One lemma per operand form and check: exactly when it answers what, so that proofs about commands
cite these and do not unfold the checks. -/

namespace Sys2Proof.Machine

/-! ### Peeling an execution apart -/

@[simp] theorem ok_bind {α β : Type} (a : α) (f : α → Except ErrCode β) : (Except.ok a >>= f) = f a := rfl

@[simp] theorem error_bind {α β : Type} (e : ErrCode) (f : α → Except ErrCode β) :
    ((Except.error e : Except ErrCode α) >>= f) = .error e := rfl

@[simp] theorem except_pure {α : Type} (a : α) : (pure a : Except ErrCode α) = .ok a := rfl

/-- A sequence succeeds exactly when both parts do. -/
theorem bind_ok_iff {α β : Type} {r : Except ErrCode α} {f : α → Except ErrCode β} {b : β} :
    (r >>= f) = .ok b ↔ ∃ a, r = .ok a ∧ f a = .ok b := by
  cases r <;> simp

/-- A sequence fails in its first part, or in its second after the first succeeded. -/
theorem bind_error_iff {α β : Type} {r : Except ErrCode α} {f : α → Except ErrCode β} {e : ErrCode} :
    (r >>= f) = .error e ↔ r = .error e ∨ ∃ a, r = .ok a ∧ f a = .error e := by
  cases r <;> simp

/-! ### Moduli and elements -/

@[simp] theorem fieldOK_ok_iff {m : Nat} {u : Unit} : fieldOK m = .ok u ↔ 2 < m := by
  unfold fieldOK
  split <;> simp <;> omega

theorem fieldOK_of_lt {m : Nat} (h : 2 < m) : fieldOK m = .ok () := by simp [h]

@[simp] theorem fieldOK_error_iff {m : Nat} {e : ErrCode} : fieldOK m = .error e ↔ m ≤ 2 ∧ e = .badModulus := by
  unfold fieldOK
  split <;> simp_all [eq_comm]

@[simp] theorem elem_ok_iff {v m a : Nat} : elem v m = .ok a ↔ v < m ∧ a = v := by
  unfold elem
  split <;> simp <;> omega

theorem elem_of_lt {v m : Nat} (h : v < m) : elem v m = .ok v := by simp [h]

@[simp] theorem elem_error_iff {v m : Nat} {e : ErrCode} : elem v m = .error e ↔ m ≤ v ∧ e = .range := by
  unfold elem
  split <;> simp_all [eq_comm]

/-- The modulus an MS field names, before the check that it is greater than 2 (R141). -/
def modulusOf (s : State) : ModSel → Nat
  | .m => s.modulus.toNat
  | .p => s.curveP.toNat
  | .n => s.curveN.toNat

theorem selMod_ok_iff {s : State} {ms : ModSel} {m : Nat} :
    selMod s ms = .ok m ↔ m = modulusOf s ms ∧ 2 < m ∧ (ms = .n → s.nvalid = true) := by
  cases ms
  · simp only [selMod, modulusOf, bind_ok_iff, fieldOK_ok_iff]
    constructor
    · rintro ⟨_, h, h2⟩
      simp at h2
      simp_all
    · rintro ⟨rfl, h, -⟩
      exact ⟨(), h, rfl⟩
  · simp only [selMod, modulusOf, bind_ok_iff, fieldOK_ok_iff]
    constructor
    · rintro ⟨_, h, h2⟩
      simp at h2
      simp_all
    · rintro ⟨rfl, h, -⟩
      exact ⟨(), h, rfl⟩
  · simp only [selMod, modulusOf]
    split
    · simp_all
    · simp only [bind_ok_iff, fieldOK_ok_iff]
      constructor
      · rintro ⟨_, h, h2⟩
        simp at h2
        simp_all
      · rintro ⟨rfl, h, -⟩
        exact ⟨(), h, rfl⟩

theorem selMod_error_iff {s : State} {ms : ModSel} {e : ErrCode} :
    selMod s ms = .error e ↔
      (ms = .n ∧ s.nvalid = false ∧ e = .noOrder) ∨
      ((ms = .n → s.nvalid = true) ∧ modulusOf s ms ≤ 2 ∧ e = .badModulus) := by
  cases ms
  · simp [selMod, modulusOf, bind_error_iff]
  · simp [selMod, modulusOf, bind_error_iff]
  · cases h : s.nvalid
    · simp [selMod, modulusOf, h, eq_comm (a := e)]
    · simp [selMod, modulusOf, h, bind_error_iff]

/-! ### Point operands -/

theorem readPt_ok_iff {s : State} {i : PReg} {v : Point} :
    readPt s i = .ok v ↔
      (s.pt[i.val] = .inf ∧ v = .inf) ∨ ∃ x y, s.pt[i.val] = .aff x y ∧ v = .aff x.toNat y.toNat := by
  have : s.pt[i] = s.pt[i.val] := rfl
  unfold readPt
  rw [this]
  cases s.pt[i.val] <;> simp [eq_comm]

theorem readPt_error_iff {s : State} {i : PReg} {e : ErrCode} :
    readPt s i = .error e ↔ s.pt[i.val] = .empty ∧ e = .emptyPoint := by
  have : s.pt[i] = s.pt[i.val] := rfl
  unfold readPt
  rw [this]
  cases s.pt[i.val] <;> simp [eq_comm]

theorem readPt_of_inf {s : State} {i : PReg} (h : s.pt[i.val] = .inf) : readPt s i = .ok .inf :=
  readPt_ok_iff.2 (.inl ⟨h, rfl⟩)

theorem readPt_of_aff {s : State} {i : PReg} {x y : Word} (h : s.pt[i.val] = .aff x y) :
    readPt s i = .ok (.aff x.toNat y.toNat) :=
  readPt_ok_iff.2 (.inr ⟨x, y, h, rfl⟩)

/-- A coordinate below 2^256 survives the register. -/
theorem ofNat_toNat_of_lt {v : Nat} (h : v < 2 ^ 256) : (BitVec.ofNat 256 v).toNat = v := by
  rw [BitVec.toNat_ofNat, Nat.mod_eq_of_lt h]

@[simp] theorem toReg_aff_word (x y : Word) : (Point.aff x.toNat y.toNat).toReg = .aff x y := by
  simp [Point.toReg]

/-! ### Configuration checks -/

theorem onCurve_iff {s : State} {x y : Nat} (hp : 0 < s.curveP.toNat) :
    onCurve s x y = true ↔ CurveEquation s x y := by
  simp [onCurve, CurveEquation, imod_eq_zero_iff _ hp]

theorem curveOK_ok_iff {s : State} {u : Unit} : curveOK s = .ok u ↔ CurveLegal s := by
  simp only [curveOK, bind_ok_iff, fieldOK_ok_iff, elem_ok_iff, CurveLegal]
  constructor
  · rintro ⟨_, h, _, ⟨h1, -⟩, _, ⟨h2, -⟩, -⟩
    exact ⟨h, h1, h2⟩
  · rintro ⟨h, h1, h2⟩
    exact ⟨(), h, _, ⟨h1, rfl⟩, _, ⟨h2, rfl⟩, rfl⟩

theorem curveOK_error_iff {s : State} {e : ErrCode} :
    curveOK s = .error e ↔
      (s.curveP.toNat ≤ 2 ∧ e = .badModulus) ∨
      (2 < s.curveP.toNat ∧ (s.curveP.toNat ≤ s.curveA.toNat ∨ s.curveP.toNat ≤ s.curveB.toNat) ∧ e = .range) := by
  simp only [curveOK, bind_error_iff, fieldOK_error_iff, fieldOK_ok_iff, elem_error_iff, elem_ok_iff]
  constructor
  · rintro (h | ⟨_, h, ⟨h1, rfl⟩ | ⟨_, -, ⟨h2, rfl⟩ | ⟨_, -, h3⟩⟩⟩)
    · exact .inl h
    · exact .inr ⟨h, .inl h1, rfl⟩
    · exact .inr ⟨h, .inr h2, rfl⟩
    · simp at h3
  · rintro (h | ⟨h, h1, rfl⟩)
    · exact .inl h
    · refine .inr ⟨(), h, ?_⟩
      by_cases ha : s.curveP.toNat ≤ s.curveA.toNat
      · exact .inl ⟨ha, rfl⟩
      · exact .inr ⟨_, ⟨by omega, rfl⟩, .inl ⟨by omega, rfl⟩⟩

theorem genOK_ok_iff {s : State} {g : Point} :
    genOK s = .ok g ↔
      CurveLegal s ∧ s.curveGX.toNat < s.curveP.toNat ∧ s.curveGY.toNat < s.curveP.toNat ∧
      CurveEquation s s.curveGX.toNat s.curveGY.toNat ∧ g = .aff s.curveGX.toNat s.curveGY.toNat := by
  simp only [genOK, bind_ok_iff, curveOK_ok_iff, elem_ok_iff]
  constructor
  · rintro ⟨_, h, _, ⟨h1, rfl⟩, _, ⟨h2, rfl⟩, h3⟩
    have hp : 0 < s.curveP.toNat := by have := h.1; omega
    split at h3
    · rename_i hc
      exact ⟨h, h1, h2, (onCurve_iff hp).1 hc, by simpa [eq_comm] using h3⟩
    · simp at h3
  · rintro ⟨h, h1, h2, h3, rfl⟩
    have hp : 0 < s.curveP.toNat := by have := h.1; omega
    exact ⟨(), h, _, ⟨h1, rfl⟩, _, ⟨h2, rfl⟩, by rw [if_pos ((onCurve_iff hp).2 h3)]⟩

theorem orderOK_ok_iff {s : State} {n : Nat} :
    orderOK s = .ok n ↔ s.nvalid = true ∧ 2 < n ∧ n = s.curveN.toNat := by
  unfold orderOK
  cases h : s.nvalid
  · simp
  · by_cases h2 : s.curveN.toNat ≤ 2
    · simp only [Bool.true_eq_false, if_false, if_pos h2, reduceCtorEq, true_and, false_iff]
      omega
    · simp only [Bool.true_eq_false, if_false, if_neg h2, Except.ok.injEq, true_and]
      omega

theorem orderOK_error_iff {s : State} {e : ErrCode} :
    orderOK s = .error e ↔
      (s.nvalid = false ∧ e = .noOrder) ∨ (s.nvalid = true ∧ s.curveN.toNat ≤ 2 ∧ e = .badModulus) := by
  unfold orderOK
  cases h : s.nvalid
  · simp [eq_comm (a := e)]
  · by_cases h2 : s.curveN.toNat ≤ 2 <;> simp [h2, eq_comm (a := e)]

end Sys2Proof.Machine
end

