-- ==== Sys2Proof/Laws/Group.lean ====
section
/-! SUPPORT. What the group law and the scalar multiplier answer, said once: the cases of PointAdd and PointDouble,
the range of their coordinates, and the reduction of the scalar. -/

namespace Sys2Proof.Machine

/-- The coordinates of an affine point are below p. -/
def Point.Below (p : Nat) : Point → Prop
  | .inf => True
  | .aff x y => x < p ∧ y < p

theorem thirdPoint_below {p : Nat} (hp : 0 < p) (lam x1 y1 x2 : Nat) : (thirdPoint p lam x1 y1 x2).Below p :=
  ⟨imod_lt _ hp, imod_lt _ hp⟩

/-- Every answer of PointDouble (R180). -/
theorem pointDouble_cases {p a : Nat} {v r : Point} (h : pointDouble p a v = .ok r) :
    (v = .inf ∧ r = .inf) ∨ (∃ x, v = .aff x 0 ∧ r = .inf) ∨
    ∃ x y inv, v = .aff x y ∧ y ≠ 0 ∧ modInv ((2 * y) % p) p = .ok inv ∧
      r = thirdPoint p ((3 * x ^ 2 + a) % p * inv % p) x y x := by
  cases v with
  | inf =>
    simp only [pointDouble, Except.ok.injEq] at h
    exact .inl ⟨rfl, h.symm⟩
  | aff x y =>
    simp only [pointDouble] at h
    split at h
    · rename_i hy
      subst hy
      simp only [Except.ok.injEq] at h
      exact .inr (.inl ⟨x, rfl, h.symm⟩)
    · rename_i hy
      obtain ⟨inv, hi, h⟩ := bind_ok_iff.1 h
      simp only [except_pure, Except.ok.injEq] at h
      exact .inr (.inr ⟨x, y, inv, rfl, hy, hi, h.symm⟩)

/-- Every answer of PointAdd (R180). -/
theorem pointAdd_cases {p a : Nat} {v1 v2 r : Point} (h : pointAdd p a v1 v2 = .ok r) :
    (v1 = .inf ∧ r = v2) ∨ (v2 = .inf ∧ r = v1) ∨ (v1 = v2 ∧ pointDouble p a v1 = .ok r) ∨
    (∃ x y1 y2, v1 = .aff x y1 ∧ v2 = .aff x y2 ∧ y1 ≠ y2 ∧ r = .inf) ∨
    ∃ x1 y1 x2 y2 inv, v1 = .aff x1 y1 ∧ v2 = .aff x2 y2 ∧ x1 ≠ x2 ∧
      modInv (imod ((x2 : Int) - x1) p) p = .ok inv ∧
      r = thirdPoint p (imod ((y2 : Int) - y1) p * inv % p) x1 y1 x2 := by
  rcases v1 with _ | ⟨x1, y1⟩
  · simp only [pointAdd, Except.ok.injEq] at h
    exact .inl ⟨rfl, h.symm⟩
  rcases v2 with _ | ⟨x2, y2⟩
  · simp only [pointAdd, Except.ok.injEq] at h
    exact .inr (.inl ⟨rfl, h.symm⟩)
  simp only [pointAdd] at h
  split at h
  · rename_i he
    obtain ⟨rfl, rfl⟩ := he
    exact .inr (.inr (.inl ⟨rfl, h⟩))
  · rename_i hne
    split at h
    · rename_i hx
      subst hx
      simp only [Except.ok.injEq] at h
      exact .inr (.inr (.inr (.inl ⟨x1, y1, y2, rfl, rfl, fun hy => hne ⟨rfl, hy⟩, h.symm⟩)))
    · rename_i hx
      obtain ⟨inv, hi, h⟩ := bind_ok_iff.1 h
      simp only [except_pure, Except.ok.injEq] at h
      exact .inr (.inr (.inr (.inr ⟨x1, y1, x2, y2, inv, rfl, rfl, hx, hi, h.symm⟩)))

/-- PointDouble fails only by ModInv (R180). -/
theorem pointDouble_error {p a : Nat} {v : Point} {e : ErrCode} (h : pointDouble p a v = .error e) :
    e = .notInvertible := by
  cases v with
  | inf => simp [pointDouble] at h
  | aff x y =>
    simp only [pointDouble] at h
    split at h
    · simp at h
    · rcases bind_error_iff.1 h with h | ⟨_, -, h⟩
      · exact (modInv_error_iff.1 h).2
      · simp at h

/-- PointAdd fails only by ModInv (R180). -/
theorem pointAdd_error {p a : Nat} {v1 v2 : Point} {e : ErrCode} (h : pointAdd p a v1 v2 = .error e) :
    e = .notInvertible := by
  rcases v1 with _ | ⟨x1, y1⟩
  · simp [pointAdd] at h
  rcases v2 with _ | ⟨x2, y2⟩
  · simp [pointAdd] at h
  simp only [pointAdd] at h
  split at h
  · exact pointDouble_error h
  · split at h
    · simp at h
    · rcases bind_error_iff.1 h with h | ⟨_, -, h⟩
      · exact (modInv_error_iff.1 h).2
      · simp at h

/-- Adding a point to itself is doubling it (R180, R182). -/
theorem pointAdd_self (p a : Nat) (v : Point) : pointAdd p a v v = pointDouble p a v := by
  cases v <;> simp [pointAdd, pointDouble]

@[simp] theorem pointAdd_inf_left (p a : Nat) (v : Point) : pointAdd p a .inf v = .ok v := rfl

@[simp] theorem pointAdd_inf_right (p a : Nat) (v : Point) : pointAdd p a v .inf = .ok v := by cases v <;> rfl

theorem pointDouble_below {p a : Nat} (hp : 0 < p) {v r : Point} (h : pointDouble p a v = .ok r) : r.Below p := by
  rcases pointDouble_cases h with ⟨-, rfl⟩ | ⟨_, -, rfl⟩ | ⟨_, _, _, -, -, -, rfl⟩
  · trivial
  · trivial
  · exact thirdPoint_below hp ..

/-- PointAdd keeps coordinates below p. -/
theorem pointAdd_below {p a : Nat} (hp : 0 < p) {v1 v2 r : Point} (h1 : v1.Below p) (h2 : v2.Below p)
    (h : pointAdd p a v1 v2 = .ok r) : r.Below p := by
  rcases pointAdd_cases h with ⟨-, rfl⟩ | ⟨-, rfl⟩ | ⟨-, h⟩ | ⟨_, _, _, -, -, -, rfl⟩ | ⟨_, _, _, _, _, -, -, -, -, rfl⟩
  · exact h2
  · exact h1
  · exact pointDouble_below hp h
  · trivial
  · exact thirdPoint_below hp ..

/-! ### The scalar multiplier -/

/-- An invariant of the two running points that PointAdd keeps holds of the loop's answer (R200). -/
theorem scalarLoop_induction {p a : Nat} {Q : Point → Prop}
    (hadd : ∀ v1 v2 r, Q v1 → Q v2 → pointAdd p a v1 v2 = .ok r → Q r) :
    ∀ (fuel k : Nat) (res cur r : Point), Q res → Q cur → scalarLoop p a fuel k res cur = .ok r → Q r
  | 0, _, res, _, r, hr, _, h => by
    simp only [scalarLoop, Except.ok.injEq] at h
    exact h ▸ hr
  | fuel + 1, k, res, cur, r, hr, hc, h => by
    simp only [scalarLoop] at h
    split at h
    · simp only [Except.ok.injEq] at h
      exact h ▸ hr
    · obtain ⟨res', h1, h⟩ := bind_ok_iff.1 h
      obtain ⟨cur', h2, h⟩ := bind_ok_iff.1 h
      refine scalarLoop_induction hadd fuel _ _ _ r ?_ (hadd _ _ _ hc hc h2) h
      unfold addIfOdd at h1
      split at h1
      · exact hadd _ _ _ hr hc h1
      · simp only [Except.ok.injEq] at h1
        exact h1 ▸ hr

/-- The same for a whole multiplication (R200). -/
theorem scalarMul_induction {s : State} {Q : Point → Prop} (hinf : Q .inf)
    (hadd : ∀ v1 v2 r, Q v1 → Q v2 → pointAdd s.curveP.toNat s.curveA.toNat v1 v2 = .ok r → Q r)
    {k : Nat} {v r : Point} (hv : Q v) (h : scalarMul s k v = .ok r) : Q r := by
  obtain ⟨_, -, h⟩ := bind_ok_iff.1 h
  exact scalarLoop_induction hadd _ _ _ _ _ hinf hv h

/-- When the order is unknown or the point is INF, the scalar is used as it is (R200). -/
theorem reduceScalar_keep {s : State} {k : Nat} {v : Point} (h : s.nvalid = false ∨ v = .inf) :
    reduceScalar s k v = .ok k := by
  unfold reduceScalar
  rw [if_neg]
  rintro ⟨h1, h2⟩
  rcases h with h | h
  · simp [h] at h1
  · exact h2 h

/-- When the order is known, an affine point's scalar is reduced (R200). -/
theorem reduceScalar_mod {s : State} {k x y : Nat} (h : s.nvalid = true) (hn : 2 < s.curveN.toNat) :
    reduceScalar s k (.aff x y) = .ok (k % s.curveN.toNat) := by
  unfold reduceScalar
  rw [if_pos ⟨h, by simp⟩, if_neg (by omega)]

/-- Without the last, unused doubling an iteration is the identity on a zero scalar (R200, R201). -/
@[simp] theorem scalarLoop_zero (p a fuel : Nat) (res cur : Point) : scalarLoop p a fuel 0 res cur = .ok res := by
  cases fuel <;> simp [scalarLoop]

/-- The loop fails only by ModInv (R200). -/
theorem scalarLoop_error {p a : Nat} {e : ErrCode} :
    ∀ (fuel k : Nat) (res cur : Point), scalarLoop p a fuel k res cur = .error e → e = .notInvertible
  | 0, _, _, _, h => by simp [scalarLoop] at h
  | fuel + 1, k, res, cur, h => by
    simp only [scalarLoop] at h
    split at h
    · simp at h
    · rcases bind_error_iff.1 h with h | ⟨_, -, h⟩
      · unfold addIfOdd at h
        split at h
        · exact pointAdd_error h
        · simp at h
      · rcases bind_error_iff.1 h with h | ⟨_, -, h⟩
        · exact pointAdd_error h
        · exact scalarLoop_error fuel _ _ _ h

/-- With a legal order, or none, ScalarMul fails only by ModInv (R200). -/
theorem scalarMul_error {s : State} {k : Nat} {v : Point} {e : ErrCode} (hn : s.nvalid = true → 2 < s.curveN.toNat)
    (h : scalarMul s k v = .error e) : e = .notInvertible := by
  rcases bind_error_iff.1 h with h | ⟨_, -, h⟩
  · unfold reduceScalar at h
    split at h
    · rename_i hv
      rw [if_neg (by have := hn hv.1; omega)] at h
      simp at h
    · simp at h
  · exact scalarLoop_error _ _ _ _ h

/-- The first iteration doubles the point, so a point that has no double fails for every scalar but 0 (R200). -/
theorem scalarLoop_of_double_error {p a k : Nat} {v : Point} {e : ErrCode} (hk : k ≠ 0)
    (h : pointDouble p a v = .error e) : scalarLoop p a k k .inf v = .error e := by
  obtain ⟨m, rfl⟩ := Nat.exists_eq_succ_of_ne_zero hk
  have hadd : ∃ r, addIfOdd p a (m + 1) .inf v = .ok r := by
    unfold addIfOdd
    split
    · exact ⟨v, rfl⟩
    · exact ⟨.inf, rfl⟩
  obtain ⟨r, hr⟩ := hadd
  simp only [Nat.succ_eq_add_one, scalarLoop, if_neg hk, hr, ok_bind, pointAdd_self, h, error_bind]

/-- A point (x, y) with y not 0 has no double exactly where 2 y has no inverse (R180). -/
theorem pointDouble_error_of_gcd {p a x y : Nat} (hy : y ≠ 0) (hg : Nat.gcd (2 * y) p ≠ 1) :
    pointDouble p a (.aff x y) = .error .notInvertible := by
  have h : modInv (2 * y % p) p = .error .notInvertible := by
    rw [modInv_error_iff, Nat.mod_mod, ← Nat.gcd_rec, Nat.gcd_comm]
    exact ⟨hg, rfl⟩
  simp only [pointDouble, if_neg hy, h, error_bind]

end Sys2Proof.Machine
end

