-- ==== Sys2Proof/Laws/Ecdsa.lean ====
section
/-! SUPPORT. The parts of key generation and of ECDSA, said once: the check of a secret, one pass of the sign loop,
low-S, and what the loop over drawn nonces answers (spec/42_scalar.md R204, spec/43_ecdsa.md R221 to R223). -/

namespace Sys2Proof.Machine

@[simp] theorem secretOK_ok_iff {d n : Nat} {u : Unit} : secretOK d n = .ok u ↔ 1 ≤ d ∧ d < n := by
  unfold secretOK
  split <;> simp <;> omega

@[simp] theorem secretOK_error_iff {d n : Nat} {e : ErrCode} :
    secretOK d n = .error e ↔ (d = 0 ∨ n ≤ d) ∧ e = .keyRange := by
  unfold secretOK
  split <;> simp_all [eq_comm]

/-- Low-S of a value in [1, n - 1] lies in [1, floor(n / 2)] (R223). -/
theorem lowS_bounds {n s : Nat} (h1 : 1 ≤ s) (h2 : s < n) : 1 ≤ lowS n s ∧ lowS n s ≤ n / 2 := by
  unfold lowS
  split <;> omega

/-- Every draw lies in [1, n - 1] (R6). -/
theorem drawNonce_bounds {n : Nat} (hn : 1 < n) (i : Nat) : 1 ≤ drawNonce n i ∧ drawNonce n i ≤ n - 1 := by
  have := Nat.mod_lt (Config.nonceRaw i) (y := n - 1) (by omega)
  unfold drawNonce
  omega

/-- When one pass gives a signature, and which (R222). -/
theorem signOnce_some_iff {st : State} {n : Nat} {g : Point} {z d k r v : Nat} :
    signOnce st n g z d k = .ok (some (r, v)) ↔
      ∃ rx ry inv, scalarMul st k g = .ok (.aff rx ry) ∧ r = rx % n ∧ r ≠ 0 ∧ modInv k n = .ok inv ∧
        inv * ((z + r * d) % n) % n ≠ 0 ∧ v = lowS n (inv * ((z + r * d) % n) % n) := by
  unfold signOnce
  rw [bind_ok_iff]
  constructor
  · rintro ⟨pt, hp, h⟩
    cases pt with
    | inf => simp at h
    | aff rx ry =>
      simp only at h
      split at h
      · simp at h
      · rename_i hr
        obtain ⟨inv, hi, h⟩ := bind_ok_iff.1 h
        split at h
        · simp at h
        · rename_i hs
          simp only [except_pure, Except.ok.injEq, Option.some.injEq, Prod.mk.injEq] at h
          obtain ⟨rfl, rfl⟩ := h
          exact ⟨rx, ry, inv, hp, rfl, hr, hi, hs, rfl⟩
  · rintro ⟨rx, ry, inv, hp, rfl, hr, hi, hs, rfl⟩
    refine ⟨_, hp, ?_⟩
    simp only [if_neg hr, hi, ok_bind, if_neg hs]
    rfl

/-- When one pass rejects the nonce: R is INF, or r is 0, or s is 0 (R222). -/
theorem signOnce_none_iff {st : State} {n : Nat} {g : Point} {z d k : Nat} :
    signOnce st n g z d k = .ok none ↔
      scalarMul st k g = .ok .inf ∨
      ∃ rx ry, scalarMul st k g = .ok (.aff rx ry) ∧
        (rx % n = 0 ∨ ∃ inv, modInv k n = .ok inv ∧ inv * ((z + rx % n * d) % n) % n = 0) := by
  unfold signOnce
  rcases scalarMul st k g with e | _ | ⟨rx, ry⟩
  · simp
  · simp
  · by_cases hr : rx % n = 0
    · simp [hr]
    · rcases hi : modInv k n with e | inv
      · simp [hr]
      · simp [hr]

/-- When one pass fails: ScalarMul fails, or r is not 0 and k has no inverse mod n (R222). -/
theorem signOnce_error_iff {st : State} {n : Nat} {g : Point} {z d k : Nat} {e : ErrCode} :
    signOnce st n g z d k = .error e ↔
      scalarMul st k g = .error e ∨
      ∃ rx ry, scalarMul st k g = .ok (.aff rx ry) ∧ rx % n ≠ 0 ∧ modInv k n = .error e := by
  unfold signOnce
  rcases scalarMul st k g with e' | _ | ⟨rx, ry⟩
  · simp
  · simp
  · by_cases hr : rx % n = 0
    · simp [hr]
    · rcases hi : modInv k n with e' | inv
      · simp [hr]
      · simp only [ok_bind, if_neg hr]
        split <;> simp

/-- What the loop over drawn nonces answers (R221): it stops at draw number `i + m` of at most `tries`, all before it
rejected, with a signature or an error of that pass; or every draw is rejected and it answers E_NONCE. -/
theorem signLoop_cases {attempt : Nat → Except ErrCode (Option (Nat × Nat))} {draw : Nat → Nat} :
    ∀ (tries i : Nat),
      (∃ m, m < tries ∧ (∀ j, j < m → attempt (draw (i + j)) = .ok none) ∧
        ((∃ sig, attempt (draw (i + m)) = .ok (some sig) ∧ signLoop attempt draw tries i = (.ok sig, i + m + 1)) ∨
         ∃ e, attempt (draw (i + m)) = .error e ∧ signLoop attempt draw tries i = (.error e, i + m + 1))) ∨
      ((∀ j, j < tries → attempt (draw (i + j)) = .ok none) ∧
        signLoop attempt draw tries i = (.error .nonce, i + tries))
  | 0, i => .inr ⟨fun j hj => absurd hj (by omega), rfl⟩
  | tries + 1, i => by
    rcases ha : attempt (draw i) with e | _ | sig
    · exact .inl ⟨0, by omega, fun j hj => absurd hj (by omega), .inr ⟨e, ha, by simp [signLoop, ha]⟩⟩
    · have hstep : signLoop attempt draw (tries + 1) i = signLoop attempt draw tries (i + 1) := by
        simp [signLoop, ha]
      have hall : ∀ m, (∀ j, j < m → attempt (draw (i + 1 + j)) = .ok none) →
          ∀ j, j < m + 1 → attempt (draw (i + j)) = .ok none := by
        intro m h j hj
        rcases j with _ | j
        · exact ha
        · have := h j (by omega)
          rwa [show i + 1 + j = i + (j + 1) by omega] at this
      rcases signLoop_cases tries (i + 1) with ⟨m, hm, hr, h⟩ | ⟨hr, h⟩
      · refine .inl ⟨m + 1, by omega, hall m hr, ?_⟩
        rw [hstep, show i + (m + 1) = i + 1 + m by omega]
        exact h
      · refine .inr ⟨hall tries hr, ?_⟩
        rw [hstep, h, show i + (tries + 1) = i + 1 + tries by omega]
    · exact .inl ⟨0, by omega, fun j hj => absurd hj (by omega), .inl ⟨sig, ha, by simp [signLoop, ha]⟩⟩

end Sys2Proof.Machine
end

