-- ==== Sys2Proof/Laws/Exec.lean ====
section
/-! SUPPORT. What a command can do, said once: how it completes, and which state it writes when it succeeds. Frames
and invariants are derived from `exec_cases` and do not unfold the meanings again. -/

namespace Sys2Proof.Machine

/-- The completion step (R274): the writes of a success, or the error entry. -/
theorem complete_cases {s t : State} {r : Except ErrCode State} (h : complete s r = .next t) :
    (∃ u, r = .ok u ∧ t = u.finish) ∨ ∃ c, r = .error c ∧ t = s.errorEntry c := by
  cases r <;> simp only [complete, Host.Outcome.next.injEq] at h
  · exact .inr ⟨_, rfl, h.symm⟩
  · exact .inl ⟨_, rfl, h.symm⟩

@[simp] theorem complete_ok (s u : State) : complete s (.ok u) = .next u.finish := rfl

@[simp] theorem complete_error (s : State) (c : ErrCode) : complete s (.error c) = .next (s.errorEntry c) := rfl

/-- Everything a successful command may write (R47, R45, R49, R36): its destination register or registers, or its
result flag, or the output buffer. -/
inductive Writes (s : State) : Instr → State → Prop
  | fred {ms xd xa} (v : Nat) : Writes s (.fred ms xd xa) (s.setX xd v)
  | fadd {ms xd xa xb} (v : Nat) : Writes s (.fadd ms xd xa xb) (s.setX xd v)
  | fsub {ms xd xa xb} (v : Nat) : Writes s (.fsub ms xd xa xb) (s.setX xd v)
  | fmul {ms xd xa xb} (v : Nat) : Writes s (.fmul ms xd xa xb) (s.setX xd v)
  | fdiv {ms xd xa xb} (v : Nat) : Writes s (.fdiv ms xd xa xb) (s.setX xd v)
  | finv {ms xd xa} (v : Nat) : Writes s (.finv ms xd xa) (s.setX xd v)
  | fpow {ms xd xa xb} (v : Nat) : Writes s (.fpow ms xd xa xb) (s.setX xd v)
  | feq {ms xa xb} (b : Bool) : Writes s (.feq ms xa xb) (s.setEQ b)
  | pset {pd xx xy} (x y : Nat) : Writes s (.pset pd xx xy) (s.setPt pd (.aff x y))
  | pinf {pd} : Writes s (.pinf pd) (s.setPt pd .inf)
  | pgen {pd} (v : Point) : Writes s (.pgen pd) (s.setPt pd v)
  | pget {xd xe ps} (x y : Nat) : Writes s (.pget xd xe ps) ((s.setX xd x).setX xe y)
  | peq {pa pb} (b : Bool) : Writes s (.peq pa pb) (s.setEQ b)
  | padd {pd pa pb} (v : Point) : Writes s (.padd pd pa pb) (s.setPt pd v)
  | pdbl {pd pa} (v : Point) : Writes s (.pdbl pd pa) (s.setPt pd v)
  | pmul {pd pa xk} (v : Point) : Writes s (.pmul pd pa xk) (s.setPt pd v)
  | keygen {pd xs} (v : Point) : Writes s (.keygen pd xs) (s.setPt pd v)
  | esign {xr xs xz xd xk} (r v : Nat) : Writes s (.esign xr xs xz xd xk) ((s.setX xr r).setX xs v)
  | everify {xz xr xs pq} (b : Bool) : Writes s (.everify xz xr xs pq) (s.setVOK b)
  | derenc {xr xs} (out : List Byte) : Writes s (.derenc xr xs) ((s.setOutput out).setOINF false)
  | secencInf {c pp} : Writes s (.secenc c pp) ((s.setOutput []).setOINF true)
  | secenc {c pp} (out : List Byte) : Writes s (.secenc c pp) ((s.setOutput out).setOINF false)

theorem fieldUnary_cases {s : State} {ms : ModSel} {xd xa : XReg} {f : Nat → Nat → Except ErrCode Nat} :
    (∃ v, fieldUnary s ms xd xa f = .next (s.setX xd v).finish) ∨
    ∃ c, fieldUnary s ms xd xa f = .next (s.errorEntry c) := by
  unfold fieldUnary
  rcases h : (do let m ← selMod s ms; let a ← elem (s.getX xa) m; let r ← f m a; return s.setX xd r :
      Except ErrCode State) with c | u
  · exact .inr ⟨c, rfl⟩
  · obtain ⟨m, -, h⟩ := bind_ok_iff.1 h
    obtain ⟨a, -, h⟩ := bind_ok_iff.1 h
    obtain ⟨r, -, h⟩ := bind_ok_iff.1 h
    simp only [except_pure, Except.ok.injEq] at h
    exact .inl ⟨r, by rw [← h]; rfl⟩

theorem fieldBinary_cases {s : State} {ms : ModSel} {xd xa xb : XReg} {f : Nat → Nat → Nat → Except ErrCode Nat} :
    (∃ v, fieldBinary s ms xd xa xb f = .next (s.setX xd v).finish) ∨
    ∃ c, fieldBinary s ms xd xa xb f = .next (s.errorEntry c) := by
  unfold fieldBinary
  rcases h : (do let m ← selMod s ms; let a ← elem (s.getX xa) m; let b ← elem (s.getX xb) m; let r ← f m a b
                 return s.setX xd r : Except ErrCode State) with c | u
  · exact .inr ⟨c, rfl⟩
  · obtain ⟨m, -, h⟩ := bind_ok_iff.1 h
    obtain ⟨a, -, h⟩ := bind_ok_iff.1 h
    obtain ⟨b, -, h⟩ := bind_ok_iff.1 h
    obtain ⟨r, -, h⟩ := bind_ok_iff.1 h
    simp only [except_pure, Except.ok.injEq] at h
    exact .inl ⟨r, by rw [← h]; rfl⟩

theorem signLoop_drawn {attempt : Nat → Except ErrCode (Option (Nat × Nat))} {draw : Nat → Nat} :
    ∀ (tries i : Nat), i ≤ (signLoop attempt draw tries i).2
  | 0, _ => le_rfl
  | tries + 1, i => by
    unfold signLoop
    split
    · exact Nat.le_succ i
    · exact Nat.le_succ i
    · exact (Nat.le_succ i).trans (signLoop_drawn tries (i + 1))

/-- The count of draws never goes back (R52; log 2). -/
theorem signature_drawn (z d k : Nat) (s : State) : s.drawn ≤ (signature z d k s).2 := by
  unfold signature
  split
  · exact le_rfl
  · split
    · exact le_rfl
    · exact signLoop_drawn _ _

/-- Every command completes (R274): it ends in an error that writes nothing (R275), or it succeeds and writes what
`Writes` says. Only ESIGN moves the count of draws. -/
theorem exec_cases (i : Instr) (s : State) :
    ∃ d, s.drawn ≤ d ∧ ((∃ c, exec i s = .next ({ s with drawn := d }.errorEntry c)) ∨
      ∃ u, Writes { s with drawn := d } i u ∧ exec i s = .next u.finish) := by
  have fin : ∀ (r : Except ErrCode State), (∀ u, r = .ok u → Writes s i u) → exec i s = complete s r →
      ∃ d, s.drawn ≤ d ∧ ((∃ c, exec i s = .next ({ s with drawn := d }.errorEntry c)) ∨
        ∃ u, Writes { s with drawn := d } i u ∧ exec i s = .next u.finish) := by
    intro r hw he
    refine ⟨s.drawn, le_rfl, ?_⟩
    cases r with
    | error c => exact .inl ⟨c, he⟩
    | ok u => exact .inr ⟨u, hw u rfl, he⟩
  cases i with
  | fred ms xd xa =>
    refine fin _ ?_ rfl
    intro u h
    obtain ⟨m, -, h⟩ := bind_ok_iff.1 h
    simp only [except_pure, Except.ok.injEq] at h
    exact h ▸ .fred _
  | fadd ms xd xa xb =>
    refine ⟨s.drawn, le_rfl, ?_⟩
    rcases fieldBinary_cases with ⟨v, h⟩ | ⟨c, h⟩
    · exact .inr ⟨_, .fadd v, h⟩
    · exact .inl ⟨c, h⟩
  | fsub ms xd xa xb =>
    refine ⟨s.drawn, le_rfl, ?_⟩
    rcases fieldBinary_cases with ⟨v, h⟩ | ⟨c, h⟩
    · exact .inr ⟨_, .fsub v, h⟩
    · exact .inl ⟨c, h⟩
  | fmul ms xd xa xb =>
    refine ⟨s.drawn, le_rfl, ?_⟩
    rcases fieldBinary_cases with ⟨v, h⟩ | ⟨c, h⟩
    · exact .inr ⟨_, .fmul v, h⟩
    · exact .inl ⟨c, h⟩
  | fdiv ms xd xa xb =>
    refine ⟨s.drawn, le_rfl, ?_⟩
    rcases fieldBinary_cases with ⟨v, h⟩ | ⟨c, h⟩
    · exact .inr ⟨_, .fdiv v, h⟩
    · exact .inl ⟨c, h⟩
  | finv ms xd xa =>
    refine ⟨s.drawn, le_rfl, ?_⟩
    rcases fieldUnary_cases with ⟨v, h⟩ | ⟨c, h⟩
    · exact .inr ⟨_, .finv v, h⟩
    · exact .inl ⟨c, h⟩
  | fpow ms xd xa xb =>
    refine ⟨s.drawn, le_rfl, ?_⟩
    rcases fieldBinary_cases with ⟨v, h⟩ | ⟨c, h⟩
    · exact .inr ⟨_, .fpow v, h⟩
    · exact .inl ⟨c, h⟩
  | feq ms xa xb =>
    refine fin _ ?_ rfl
    intro u h
    obtain ⟨m, -, h⟩ := bind_ok_iff.1 h
    obtain ⟨a, -, h⟩ := bind_ok_iff.1 h
    obtain ⟨b, -, h⟩ := bind_ok_iff.1 h
    simp only [except_pure, Except.ok.injEq] at h
    exact h ▸ .feq _
  | pset pd xx xy =>
    refine fin _ ?_ rfl
    intro u h
    obtain ⟨_, -, h⟩ := bind_ok_iff.1 h
    obtain ⟨x, -, h⟩ := bind_ok_iff.1 h
    obtain ⟨y, -, h⟩ := bind_ok_iff.1 h
    split at h
    · simp only [except_pure, Except.ok.injEq] at h
      exact h ▸ .pset x y
    · simp at h
  | pinf pd => exact ⟨s.drawn, le_rfl, .inr ⟨_, .pinf, rfl⟩⟩
  | pgen pd =>
    refine fin _ ?_ rfl
    intro u h
    obtain ⟨g, -, h⟩ := bind_ok_iff.1 h
    simp only [except_pure, Except.ok.injEq] at h
    exact h ▸ .pgen g
  | pget xd xe ps =>
    refine fin _ ?_ rfl
    intro u h
    obtain ⟨v, -, h⟩ := bind_ok_iff.1 h
    cases v with
    | inf => simp at h
    | aff x y =>
      simp only [except_pure, Except.ok.injEq] at h
      exact h ▸ .pget x y
  | peq pa pb =>
    refine fin _ ?_ rfl
    intro u h
    obtain ⟨v1, -, h⟩ := bind_ok_iff.1 h
    obtain ⟨v2, -, h⟩ := bind_ok_iff.1 h
    simp only [except_pure, Except.ok.injEq] at h
    exact h ▸ .peq _
  | padd pd pa pb =>
    refine fin _ ?_ rfl
    intro u h
    obtain ⟨v1, -, h⟩ := bind_ok_iff.1 h
    obtain ⟨v2, -, h⟩ := bind_ok_iff.1 h
    obtain ⟨v, -, h⟩ := bind_ok_iff.1 h
    simp only [except_pure, Except.ok.injEq] at h
    exact h ▸ .padd v
  | pdbl pd pa =>
    refine fin _ ?_ rfl
    intro u h
    obtain ⟨v1, -, h⟩ := bind_ok_iff.1 h
    obtain ⟨v, -, h⟩ := bind_ok_iff.1 h
    simp only [except_pure, Except.ok.injEq] at h
    exact h ▸ .pdbl v
  | pmul pd pa xk =>
    refine fin _ ?_ rfl
    intro u h
    obtain ⟨v1, -, h⟩ := bind_ok_iff.1 h
    obtain ⟨v, -, h⟩ := bind_ok_iff.1 h
    simp only [except_pure, Except.ok.injEq] at h
    exact h ▸ .pmul v
  | keygen pd xs =>
    refine fin _ ?_ rfl
    intro u h
    obtain ⟨n, -, h⟩ := bind_ok_iff.1 h
    obtain ⟨g, -, h⟩ := bind_ok_iff.1 h
    obtain ⟨_, -, h⟩ := bind_ok_iff.1 h
    obtain ⟨v, -, h⟩ := bind_ok_iff.1 h
    simp only [except_pure, Except.ok.injEq] at h
    exact h ▸ .keygen v
  | esign xr xs xz xd xk =>
    refine ⟨_, signature_drawn (s.getX xz) (s.getX xd) (s.getX xk) s, ?_⟩
    rcases h : (signature (s.getX xz) (s.getX xd) (s.getX xk) s) with ⟨sig, d⟩
    have he : exec (.esign xr xs xz xd xk) s = complete { s with drawn := d } (do
        let (r, v) ← sig
        return ({ s with drawn := d }.setX xr r).setX xs v) := by
      simp only [exec, execEsign, h]
    cases sig with
    | error c => exact .inl ⟨c, he⟩
    | ok sig => exact .inr ⟨_, .esign sig.1 sig.2, he⟩
  | everify xz xr xs pq =>
    refine fin _ ?_ rfl
    intro u h
    obtain ⟨q, -, h⟩ := bind_ok_iff.1 h
    obtain ⟨n, -, h⟩ := bind_ok_iff.1 h
    obtain ⟨g, -, h⟩ := bind_ok_iff.1 h
    obtain ⟨ok, -, h⟩ := bind_ok_iff.1 h
    simp only [except_pure, Except.ok.injEq] at h
    exact h ▸ .everify ok
  | derenc xr xs => exact ⟨s.drawn, le_rfl, .inr ⟨_, .derenc _, rfl⟩⟩
  | secenc c pp =>
    refine fin _ ?_ rfl
    intro u h
    obtain ⟨v, -, h⟩ := bind_ok_iff.1 h
    cases v with
    | inf =>
      simp only [except_pure, Except.ok.injEq] at h
      exact h ▸ .secencInf
    | aff x y =>
      simp only [except_pure, Except.ok.injEq] at h
      exact h ▸ .secenc _

end Sys2Proof.Machine
end

