-- ==== Sys2Proof/Laws/PerInstr.lean ====
section
/-! SUPPORT. Statements about every instruction as syntax, one lemma a constructor. The family Fields: the fields of a
well-formed command decode to that command (spec/30_encoding.md R111, R113, R114). -/

namespace Sys2Proof.Laws.Fields

/-- The fields of a well-formed command decode to it. -/
def Statement (i : Instr) : Prop := i.wellFormed = true → decodeFields (fieldsOf i) = .ok i

theorem fred (ms : ModSel) (xd xa : XReg) : Statement (.fred ms xd xa) := by
  intro _
  simp [decodeFields, fieldsOf, plainTail, field2, pure, Except.pure]

theorem fadd (ms : ModSel) (xd xa xb : XReg) : Statement (.fadd ms xd xa xb) := by
  intro _
  simp [decodeFields, fieldsOf, plainTail, field3, pure, Except.pure]

theorem fsub (ms : ModSel) (xd xa xb : XReg) : Statement (.fsub ms xd xa xb) := by
  intro _
  simp [decodeFields, fieldsOf, plainTail, field3, pure, Except.pure]

theorem fmul (ms : ModSel) (xd xa xb : XReg) : Statement (.fmul ms xd xa xb) := by
  intro _
  simp [decodeFields, fieldsOf, plainTail, field3, pure, Except.pure]

theorem fdiv (ms : ModSel) (xd xa xb : XReg) : Statement (.fdiv ms xd xa xb) := by
  intro _
  simp [decodeFields, fieldsOf, plainTail, field3, pure, Except.pure]

theorem finv (ms : ModSel) (xd xa : XReg) : Statement (.finv ms xd xa) := by
  intro _
  simp [decodeFields, fieldsOf, plainTail, field2, pure, Except.pure]

theorem fpow (ms : ModSel) (xd xa xb : XReg) : Statement (.fpow ms xd xa xb) := by
  intro _
  simp [decodeFields, fieldsOf, plainTail, field3, pure, Except.pure]

theorem feq (ms : ModSel) (xa xb : XReg) : Statement (.feq ms xa xb) := by
  intro _
  simp [decodeFields, fieldsOf, plainTail, pure, Except.pure]

theorem pset (pd : PReg) (xx xy : XReg) : Statement (.pset pd xx xy) := by
  intro _
  simp [decodeFields, fieldsOf, plainTail, pure, Except.pure]

theorem pinf (pd : PReg) : Statement (.pinf pd) := by
  intro _
  simp [decodeFields, fieldsOf, plainTail, pure, Except.pure]

theorem pgen (pd : PReg) : Statement (.pgen pd) := by
  intro _
  simp [decodeFields, fieldsOf, plainTail, pure, Except.pure]

theorem pget (xd xe : XReg) (ps : PReg) : Statement (.pget xd xe ps) := by
  intro h
  simp only [Instr.wellFormed, decide_eq_true_eq] at h
  simp [decodeFields, fieldsOf, plainTail, pure, Except.pure, h]

theorem peq (pa pb : PReg) : Statement (.peq pa pb) := by
  intro _
  simp [decodeFields, fieldsOf, plainTail, pure, Except.pure]

theorem padd (pd pa pb : PReg) : Statement (.padd pd pa pb) := by
  intro _
  simp [decodeFields, fieldsOf, plainTail, pure, Except.pure]

theorem pdbl (pd pa : PReg) : Statement (.pdbl pd pa) := by
  intro _
  simp [decodeFields, fieldsOf, plainTail, pure, Except.pure]

theorem pmul (pd pa : PReg) (xk : XReg) : Statement (.pmul pd pa xk) := by
  intro _
  simp [decodeFields, fieldsOf, plainTail, pure, Except.pure]

theorem keygen (pd : PReg) (xs : XReg) : Statement (.keygen pd xs) := by
  intro _
  simp [decodeFields, fieldsOf, plainTail, pure, Except.pure]

theorem esign (xr xs xz xd xk : XReg) : Statement (.esign xr xs xz xd xk) := by
  intro h
  simp only [Instr.wellFormed, decide_eq_true_eq] at h
  simp [decodeFields, fieldsOf, plainTail, pure, Except.pure, h]

theorem everify (xz xr xs : XReg) (pq : PReg) : Statement (.everify xz xr xs pq) := by
  intro _
  simp [decodeFields, fieldsOf, plainTail, pure, Except.pure]

theorem derenc (xr xs : XReg) : Statement (.derenc xr xs) := by
  intro _
  simp [decodeFields, fieldsOf, plainTail, pure, Except.pure]

theorem secenc (c : Bool) (pp : PReg) : Statement (.secenc c pp) := by
  intro _
  cases c <;> simp [decodeFields, fieldsOf, pure, Except.pure]

end Sys2Proof.Laws.Fields
end

