-- ==== Sys2Proof/Laws/Serialize.lean ====
section
/-! SUPPORT. The output buffer and the lengths of the strings that are written to it (spec/44_serialize.md R252,
R254 to R256). -/

namespace Sys2Proof.Machine

/-- Each byte of OBUF is the string's, or 0 past its end (R49). -/
theorem fillObuf_getElem (out : List Byte) (j : Nat) (hj : j < 72) : (fillObuf out)[j] = out.getD j 0#8 := by
  simp only [fillObuf, Vector.getElem_mk, List.getElem_toArray, List.getElem_take, List.getD_eq_getElem?_getD]
  rw [List.getElem_append]
  split
  · rename_i h
    rw [List.getElem?_eq_getElem h]
    rfl
  · rename_i h
    rw [List.getElem_replicate, List.getElem?_eq_none (by omega)]
    rfl

/-- `minbe` of a register value has 1 to 32 bytes (R12). -/
theorem minbe_length (v : Word) : 1 ≤ (minbe v).length ∧ (minbe v).length ≤ 32 := by
  unfold minbe
  have h : ((be v.toNat 32).dropWhile (· = 0#8)).length ≤ 32 :=
    (List.dropWhile_sublist _).length_le.trans (by simp)
  split
  · simp
  · rename_i bs hne
    refine ⟨?_, h⟩
    rcases hb : ((be v.toNat 32).dropWhile (· = 0#8)) with _ | ⟨b, bs'⟩
    · exact absurd hb hne
    · simp

/-- The content of a DER INTEGER has 1 to 33 bytes (R252). -/
theorem derInt_length (v : Word) : 1 ≤ (derInt v).length ∧ (derInt v).length ≤ 33 := by
  have h := minbe_length v
  unfold derInt
  split
  · rename_i hm
    simp [hm] at h
  · rename_i b bs hm
    simp only [hm, List.length_cons] at h
    split <;> simp only [List.length_cons] <;> omega

theorem derTlv_length (tag : Byte) (content : List Byte) : (derTlv tag content).length = content.length + 2 := by
  simp [derTlv]

/-- A DER signature has 8 to 72 bytes (R252). -/
theorem derSignature_length (r s : Word) : 8 ≤ (derSignature r s).length ∧ (derSignature r s).length ≤ 72 := by
  have hr := derInt_length r
  have hs := derInt_length s
  simp only [derSignature, derTlv_length, List.length_append]
  omega

/-- A SEC point string has 33 or 65 bytes (R254, R256). -/
theorem secPoint_length (c : Bool) (x y : Nat) : (secPoint c x y).length = if c then 33 else 65 := by
  cases c <;> simp [secPoint]

end Sys2Proof.Machine
end

