-- ==== Sys2Proof/Laws/Step.lean ====
section
/-! SUPPORT. What one step and one host access can do, said once: later proofs about the host side and about every
step cite `hostAccess_cases` and `step_cases` and do not unfold the window. -/

namespace Sys2Proof.Machine

/-! ### Host accesses -/

/-- Everything a host access can do (R83, R84): a refused access, a read of a mapped word, or a write to one. -/
theorem hostAccess_cases (s : State) (a : Access) :
    hostAccess s a = s.badAccess a.op ∨
    (∃ l, a.op = .read ∧ a.supported = true ∧ locate a.off = some l ∧ hostAccess s a = s.respond (readLoc s l)) ∨
    ∃ l v, a.op = .write v ∧ a.supported = true ∧ locate a.off = some l ∧ hostAccess s a = writeLoc s v l := by
  cases hs : a.supported with
  | false => exact .inl (by simp [hostAccess, hs])
  | true =>
    cases hl : locate a.off with
    | none => exact .inl (by simp [hostAccess, hs, hl])
    | some l =>
      cases ho : a.op with
      | read => exact .inr (.inl ⟨l, rfl, rfl, rfl, by simp [hostAccess, hs, hl, ho]⟩)
      | write v => exact .inr (.inr ⟨l, v, rfl, rfl, rfl, by simp [hostAccess, hs, hl, ho]⟩)

/-- The pending turns are no part of what a read returns. -/
@[simp] theorem readLoc_turns (s : State) (rest : List Turn) (l : Loc) :
    readLoc { s with turns := rest } l = readLoc s l := by
  cases l with
  | curve r j => cases r <;> rfl
  | _ => rfl

/-- A write of one word at a window offset is one access of the block, wherever the block is placed (R80, R120). -/
@[simp] theorem wr_eq (base : Nat) (off : Offset) (v : BusWord) : wr base off v = [writeTurn off v] := by
  have := off.isLt
  have h : base ≤ base + off.toNat ∧ base + off.toNat < base + 4096 := by omega
  simp [wr, memWrite, hostTurn, h, writeTurn]

/-- A read of one word at a window offset is one access of the block, wherever the block is placed (R80, R120). -/
@[simp] theorem rd_eq (base : Nat) (off : Offset) : rd base off = [readTurn off] := by
  have := off.isLt
  have h : base ≤ base + off.toNat ∧ base + off.toNat < base + 4096 := by omega
  simp [rd, memRead, hostTurn, h, readTurn]

/-! ### Steps -/

theorem step_host {s : State} {a : Access} {rest : List Turn} (h : s.turns = .host a :: rest) :
    step s = .next (hostAccess { s with turns := rest } a) := by
  simp [step, State.nextMove, h]

/-- A supported write to a mapped word (R84). -/
theorem step_write {s : State} {off : Offset} {v : BusWord} {rest : List Turn} {l : Loc}
    (h : s.turns = writeTurn off v :: rest) (ha : off.toNat % 4 = 0) (hl : locate off = some l) :
    step s = .next (writeLoc { s with turns := rest } v l) := by
  rw [step_host h]
  simp [hostAccess, Access.supported, ha, hl]

/-- A supported read of a mapped word (R84). -/
theorem step_read {s : State} {off : Offset} {rest : List Turn} {l : Loc}
    (h : s.turns = readTurn off :: rest) (ha : off.toNat % 4 = 0) (hl : locate off = some l) :
    step s = .next (State.respond { s with turns := rest } (readLoc s l)) := by
  rw [step_host h]
  simp [hostAccess, Access.supported, ha, hl]

theorem step_reset {s : State} {rest : List Turn} (h : s.turns = .reset :: rest) :
    step s = .next ({ s with turns := rest } : State).doReset := by
  simp [step, State.nextMove, h]

/-- Everything a step can do (R7, R89, R274): wait, pass an idle engine's turn, perform a host access, reset, or
complete the accepted command word. -/
theorem step_cases {s t : State} (h : step s = .next t) :
    (s.turns = [] ∧ s.engine = .idle ∧ t = s) ∨
    (∃ rest, s.turns = .engine :: rest ∧ s.engine = .idle ∧ t = { s with turns := rest }) ∨
    (∃ a rest, s.turns = .host a :: rest ∧ t = hostAccess { s with turns := rest } a) ∨
    (∃ rest, s.turns = .reset :: rest ∧ t = ({ s with turns := rest } : State).doReset) ∨
    ∃ w rest, s.engine = .busy w ∧ (s.turns = .engine :: rest ∨ (s.turns = [] ∧ rest = [])) ∧
      ((∃ i, decode w = .ok i ∧ exec i { s with turns := rest } = .next t) ∨
       (∃ e, decode w = .error e ∧ t = State.errorEntry { s with turns := rest } .illegal)) := by
  have finish : ∀ (w : BusWord) (u : State), s.nextMove = (.command w, u) →
      (∃ i, decode w = .ok i ∧ exec i u = .next t) ∨ ∃ e, decode w = .error e ∧ t = u.errorEntry .illegal := by
    intro w u hu
    cases hd : decode w with
    | ok i => exact .inl ⟨i, rfl, by simpa [step, hu, hd] using h⟩
    | error e => exact .inr ⟨e, rfl, by simpa [step, hu, hd, completeIllegal, eq_comm] using h⟩
  have engine : s.engine = .idle ∨ ∃ w, s.engine = .busy w := by cases s.engine <;> simp
  rcases ht : s.turns with _ | ⟨a | _ | _, rest⟩
  · rcases engine with he | ⟨w, he⟩
    · exact .inl ⟨rfl, he, by simpa [step, State.nextMove, ht, State.engineTurn, he, eq_comm] using h⟩
    · have hs : ({ s with turns := [] } : State) = s := by rw [← ht]
      refine .inr (.inr (.inr (.inr ⟨w, [], he, .inr ⟨rfl, rfl⟩, ?_⟩)))
      rw [hs]
      exact finish w s (by simp [State.nextMove, ht, State.engineTurn, he])
  · rw [step_host ht, Host.Outcome.next.injEq] at h
    exact .inr (.inr (.inl ⟨a, rest, rfl, h.symm⟩))
  · rcases engine with he | ⟨w, he⟩
    · exact .inr (.inl ⟨rest, rfl, he, by simpa [step, State.nextMove, ht, State.engineTurn, he, eq_comm] using h⟩)
    · exact .inr (.inr (.inr (.inr ⟨w, rest, he, .inl rfl, finish w _ (by
        simp [State.nextMove, ht, State.engineTurn, he])⟩)))
  · rw [step_reset ht, Host.Outcome.next.injEq] at h
    exact .inr (.inr (.inr (.inl ⟨rest, rfl, h.symm⟩)))

end Sys2Proof.Machine
end

