-- ==== Sys2Proof/Tests/Slice0.lean ====
section
/-! SUPPORT. The model's own tests: the WellFormed smoke, the decoding of each command's word, one step on small states
with the results of spec/95_test_vectors.md, and for each statement with hypotheses a state and operands that meet
them. -/

namespace Sys2Proof.Tests

open Sys2Proof.Machine Sys2Proof.Claims

/-! ### States for tests -/

/-- x registers from a list, 0 past its end. -/
def regs (xs : List Nat) : Vector Word 16 := Vector.ofFn fun i => BitVec.ofNat 256 (xs.getD i.val 0)

/-- Point registers from a list, EMPTY past its end. -/
def pts (ps : List PointReg) : Vector PointReg 8 := Vector.ofFn fun i => ps.getD i.val .empty

/-- After reset, with MOD and x given. -/
def field (m : Nat) (xs : List Nat) : State := { State.reset with modulus := BitVec.ofNat 256 m, x := regs xs }

/-- The small curve of spec/95_test_vectors.md, host nonces, with x and pt given. -/
def small (xs : List Nat) (ps : List PointReg) : State :=
  { State.reset with
    curveP := 11#256, curveA := 1#256, curveB := 6#256, curveGX := 2#256, curveGY := 7#256, curveN := 13#256
    ctrl := { ie := true, nsrc := true }, x := regs xs, pt := pts ps }

/-- The curve y^2 = x^3 + 7 x + 4 mod 11, whose point (1, 1) has order 3: lam = 10 / 2 = 5, x3 = 25 - 2 = 1, y3 = -1. -/
def tor (xs : List Nat) (ps : List PointReg) : State :=
  { State.reset with
    curveP := 11#256, curveA := 7#256, curveB := 4#256, curveGX := 1#256, curveGY := 1#256, curveN := 3#256
    ctrl := { ie := false, nsrc := true }, x := regs xs, pt := pts ps }

/-- The modulus 15 curve of V-PT-28. -/
def composite (ps : List PointReg) : State :=
  { State.reset with curveP := 15#256, curveA := 0#256, curveB := 0#256, pt := pts ps }

/-- The same curve with a generator, CURVE_N = 13 and host nonces: y^2 = x^3 mod 15, where (6, 6) has no double, since
gcd(12, 15) = 3, and (1, 1) and (4, 8) have one but no sum, since gcd(4 - 1, 15) = 3. -/
def cubic (gx gy : Word) (xs : List Nat) (ps : List PointReg) : State :=
  { composite ps with
    curveGX := gx, curveGY := gy, curveN := 13#256, ctrl := { ie := false, nsrc := true }, x := regs xs
    engine := .busy 0#32 }

/-- The same state with a command word in execution. -/
def busy (w : BusWord) (s : State) : State := { s with engine := .busy w }

/-- The same state with turns pending. -/
def turns (ts : List Turn) (s : State) : State := { s with turns := ts }

/-- The state after a step, or the same state if it stops. -/
def after : Host.Outcome State Fault Refusal → State → State
  | .next t, _ => t
  | _, s => s

/-- The state after a command. -/
def run (i : Instr) (s : State) : State := after (exec i s) s

/-- The state after one pending turn. -/
def act (turn : Turn) (s : State) : State := after (step (turns [turn] s)) s

/-! ### WellFormed -/

theorem test_wellformed_refuses_pget : (Instr.pget 6 6 2).wellFormed = false := by decide

theorem test_wellformed_refuses_esign : (Instr.esign 1 1 3 4 5).wellFormed = false := by decide

theorem test_wellformed_accepts : (Instr.pget 6 7 2).wellFormed = true ∧ (Instr.esign 0 15 3 4 5).wellFormed = true := by
  decide

/-- V-DEC-06, V-DEC-07: the words of the two ill-formed commands. -/
theorem test_decode_refuses_same_destination :
    decode 0x4D988000#32 = .error .sameDestination ∧ decode 0x8044D140#32 = .error .sameDestination := by decide

/-! ### Decode: words written out from the fields of R110 and the rows of R113 -/

theorem test_decode_fred : decode 0x04840000#32 = .ok (.fred .m 2 1) := by decide

theorem test_decode_fadd : decode 0x08C48000#32 = .ok (.fadd .m 3 1 2) := by decide

theorem test_decode_fsub : decode 0x0D448020#32 = .ok (.fsub .n 5 1 2) := by decide

theorem test_decode_fmul : decode 0x11048010#32 = .ok (.fmul .p 4 1 2) := by decide

theorem test_decode_fdiv : decode 0x1587C000#32 = .ok (.fdiv .m 6 1 15) := by decide

theorem test_decode_finv : decode 0x19C80010#32 = .ok (.finv .p 7 2) := by decide

theorem test_decode_fpow : decode 0x1E048000#32 = .ok (.fpow .m 8 1 2) := by decide

theorem test_decode_feq : decode 0x200D0000#32 = .ok (.feq .m 3 4) := by decide

theorem test_decode_pset : decode 0x41D58000#32 = .ok (.pset 7 5 6) := by decide

theorem test_decode_pinf : decode 0x45400000#32 = .ok (.pinf 5) := by decide

theorem test_decode_pgen : decode 0x49C00000#32 = .ok (.pgen 7) := by decide

theorem test_decode_pget : decode 0x4D9C8000#32 = .ok (.pget 6 7 2) := by decide

theorem test_decode_peq : decode 0x50180000#32 = .ok (.peq 6 0) := by decide

theorem test_decode_padd : decode 0x5500C000#32 = .ok (.padd 4 0 3) := by decide

theorem test_decode_pdbl : decode 0x58400000#32 = .ok (.pdbl 1 0) := by decide

theorem test_decode_pmul : decode 0x6080C000#32 = .ok (.pmul 2 0 3) := by decide

theorem test_decode_keygen : decode 0x64100000#32 = .ok (.keygen 0 4) := by decide

theorem test_decode_esign : decode 0x8048D140#32 = .ok (.esign 1 2 3 4 5) := by decide

theorem test_decode_everify : decode 0x840C49C0#32 = .ok (.everify 3 1 2 7) := by decide

theorem test_decode_derenc : decode 0xA0048000#32 = .ok (.derenc 1 2) := by decide

theorem test_decode_secenc : decode 0xA4140001#32 = .ok (.secenc true 5) := by decide

/-- V-DEC-01 to V-DEC-05, V-DEC-08, V-DEC-09. -/
theorem test_decode_refuses :
    decode 0xFC000000#32 = .error .reservedOp ∧ decode 0x08C48001#32 = .error .unusedField ∧
    decode 0x08C48002#32 = .error .unusedField ∧ decode 0x0C000400#32 = .error .unusedField ∧
    decode 0x56004000#32 = .error .badPoint ∧ decode 0xA0048010#32 = .error .unusedField := by decide

/-! ### Field commands (V-SRC-01 and V-FLD) -/

theorem test_fred : (run (.fred .m 2 1) (field 13 [0, 2 ^ 256 - 1])).x[2] = 2#256 := by decide

theorem test_fadd : (run (.fadd .m 3 1 2) (field 13 [0, 7, 12])).x[3] = 6#256 := by decide

theorem test_fadd_range :
    (run (.fadd .m 3 1 2) (busy 0x08C48000#32 (field 13 [0, 1, 13]))).statusWord = 0x00000406#32 ∧
    (run (.fadd .m 3 1 2) (busy 0x08C48000#32 (field 13 [0, 1, 13]))).errcmd = 0x08C48000#32 := by decide

theorem test_fsub : (run (.fsub .m 3 1 2) (field 13 [0, 0, 7])).x[3] = 6#256 := by decide

theorem test_fmul : (run (.fmul .m 3 1 2) (field 16 [0, 5, 7])).x[3] = 3#256 := by decide

theorem test_fmul_bad_modulus : (run (.fmul .m 3 1 2) (field 2 [])).statusWord = 0x00000206#32 := by decide

theorem test_fdiv : (run (.fdiv .m 6 1 2) (field 13 [0, 7, 12])).x[6] = 6#256 := by decide

theorem test_fdiv_not_invertible : (run (.fdiv .m 3 1 2) (field 15 [0, 7, 10])).statusWord = 0x00000506#32 := by
  decide

theorem test_finv : (run (.finv .m 3 1) (field 16 [0, 3])).x[3] = 11#256 := by decide

theorem test_finv_p :
    (run (.finv .p 3 1) (field 0 [0, 2])).x[3] =
      0x7FFFFFFFFFFFFFFFFFFFFFFFFFFFFFFFFFFFFFFFFFFFFFFFFFFFFFFF7FFFFE18#256 := by decide

theorem test_fpow : (run (.fpow .m 8 1 2) (field 13 [0, 7, 12])).x[8] = 1#256 := by decide

theorem test_fpow_zero_to_zero : (run (.fpow .m 3 1 2) (field 13 [])).x[3] = 1#256 := by decide

theorem test_feq : (run (.feq .m 3 4) (field 13 [0, 0, 0, 6, 6])).statusWord = 0x0000000A#32 := by decide

theorem test_feq_no_order :
    (run (.feq .n 3 4) { field 13 [] with nvalid := false }).statusWord = 0x00000306#32 := by decide

/-! ### Point commands (V-SRC-02, V-SRC-04, V-PT) -/

theorem test_pset : (run (.pset 3 1 2) (small [0, 2, 4] [])).pt[3] = .aff 2#256 4#256 := by decide

theorem test_pset_not_on_curve : (run (.pset 7 1 2) (small [0, 2, 8] [])).status.errcode = some .notOnCurve := by decide

theorem test_pinf : (run (.pinf 5) (small [] [])).pt[5] = .inf := by decide

theorem test_pgen : (run (.pgen 7) (small [] [])).pt[7] = .aff 2#256 7#256 := by decide

theorem test_pgen_not_on_curve :
    (run (.pgen 0) { State.reset with curveGY := Config.secpGY + 1#256 }).statusWord = 0x00000606#32 := by decide

theorem test_pget : (run (.pget 6 7 1) (small [] [.empty, .aff 5#256 2#256])).x[6] = 5#256 ∧
    (run (.pget 6 7 1) (small [] [.empty, .aff 5#256 2#256])).x[7] = 2#256 := by decide

theorem test_pget_inf : (run (.pget 6 7 0) (small [] [.inf])).status.errcode = some .infOperand := by decide

theorem test_peq : (run (.peq 0 1) (small [] [.inf, .inf])).status.eq = true ∧
    (run (.peq 0 1) (small [] [.inf, .aff 2#256 7#256])).status.eq = false := by decide

theorem test_padd :
    (run (.padd 2 0 1) { State.reset with
      curveP := 223#256, pt := pts [.aff 143#256 98#256, .aff 76#256 66#256] }).pt[2] = .aff 47#256 71#256 := by decide

theorem test_padd_not_invertible :
    (run (.padd 2 0 1) (composite [.aff 0#256 0#256, .aff 6#256 6#256])).statusWord = 0x00000506#32 := by decide

theorem test_pdbl : (run (.pdbl 1 0) (small [] [.aff 2#256 7#256])).pt[1] = .aff 5#256 2#256 := by decide

/-- V-PT-16. -/
theorem test_pdbl_y_zero :
    (run (.pdbl 1 0) { State.reset with
      curveP := 11#256, curveB := 1#256, pt := pts [.aff 10#256 0#256] }).pt[1] = .inf := by decide

/-! ### Scalar commands (V-SRC-03, V-SC) -/

theorem test_pmul : (run (.pmul 2 0 3) (small [0, 0, 0, 10] [.aff 2#256 7#256])).pt[2] = .aff 8#256 8#256 := by decide

/-- V-SC-02: no reduction, the same points. -/
theorem test_pmul_unknown_order :
    (run (.pmul 2 0 3) { small [0, 0, 0, 27] [.aff 2#256 7#256] with nvalid := false }).pt[2] = .aff 2#256 7#256 := by
  decide

theorem test_keygen : (run (.keygen 0 1) (small [0, 12] [])).pt[0] = .aff 2#256 4#256 := by decide

theorem test_keygen_range : (run (.keygen 0 1) (small [0, 13] [])).status.errcode = some .keyRange := by decide

/-! ### ECDSA (V-EC) -/

/-- V-EC-01. -/
theorem test_esign : (run (.esign 1 2 3 4 5) (small [0, 0, 0, 5, 3, 2] [])).x[1] = 5#256 ∧
    (run (.esign 1 2 3 4 5) (small [0, 0, 0, 5, 3, 2] [])).x[2] = 3#256 := by decide

/-- V-EC-15. -/
theorem test_esign_rejects_host_nonce :
    (run (.esign 1 2 3 4 5) (small [0, 0, 0, 11, 3, 2] [])).status.errcode = some .nonce := by decide

/-- V-EC-16: the first draw is rejected, the second gives the signature. -/
theorem test_sign_loop_retries :
    signLoop (signOnce (small [] []) 13 (.aff 2 7) 11 3) (fun i => if i = 0 then 2 else 1) 4 0 = (.ok (2, 4), 2) := by
  rfl

/-- V-EC-17. -/
theorem test_sign_loop_gives_up :
    signLoop (signOnce (small [] []) 13 (.aff 2 7) 11 3) (fun _ => 2) 4 0 = (.error .nonce, 4) := by rfl

/-- V-EC-04: a high s verifies. -/
theorem test_everify :
    (run (.everify 3 1 2 0) (small [0, 5, 10, 5] [.aff 8#256 3#256])).status.vok = true := by decide

/-- V-EC-05, V-EC-09. -/
theorem test_everify_refuses :
    (run (.everify 3 1 2 0) (small [0, 5, 3, 6] [.aff 8#256 3#256])).status.vok = false ∧
    (run (.everify 3 1 2 0) (small [0, 5, 0, 5] [.aff 8#256 3#256])).status.vok = false := by decide

/-! ### Serialization (V-SER) -/

/-- V-SER-02. -/
theorem test_derenc :
    ((run (.derenc 1 2) (field 0 [0, 0x7F, 0x80])).obuf.toList.take 10 =
      [0x30#8, 0x07#8, 0x02#8, 0x01#8, 0x7F#8, 0x02#8, 0x02#8, 0x00#8, 0x80#8, 0x00#8]) ∧
    (run (.derenc 1 2) (field 0 [0, 0x7F, 0x80])).olen = 9#7 := by decide

/-- V-SER-06: the longest string. -/
theorem test_derenc_max :
    (run (.derenc 1 1) (field 0 [0, 2 ^ 256 - 1])).olen = 72#7 ∧
    readLoc (run (.derenc 1 1) (field 0 [0, 2 ^ 256 - 1])) (.obuf 0) = 0x21024630#32 := by decide

/-- V-SER-19. -/
theorem test_secenc :
    readLoc (run (.secenc true 2) (small [] [.inf, .inf, .aff 8#256 3#256])) (.obuf 0) = 0x00000003#32 ∧
    readLoc (run (.secenc true 2) (small [] [.inf, .inf, .aff 8#256 3#256])) (.obuf 8) = 0x00000008#32 := by decide

/-- V-SER-13. -/
theorem test_secenc_inf : (run (.secenc false 4) (field 0 []) ).status.errcode = some .emptyPoint ∧
    (run (.secenc false 0) { State.reset with pt := pts [.inf] }).statusWord = 0x00000022#32 := by decide

/-! ### The host side -/

theorem test_reset_words : readLoc State.reset .id = 0x52544331#32 ∧ readLoc State.reset .cfg = 0x08100100#32 ∧
    readLoc State.reset (.curve .p 0) = 0xFFFFFC2F#32 ∧ readLoc State.reset .nvalid = 1#32 := by decide

/-- R54: CURVE_GY limb 7 stands at 0x29C, pt[7].Y limb 7 at 0xBDC; 0x01C and 0xBE0 are unmapped. -/
theorem test_locate : locate 0x29C#12 = some (.curve .gy 7) ∧ locate 0xBDC#12 = some (.ptY 7 7) ∧
    locate 0x01C#12 = none ∧ locate 0xBE0#12 = none := by decide +kernel

/-- V-PT-29: a curve write, also of the same value, empties the affine point registers. -/
theorem test_curve_write : (act (writeTurn 0x240#12 6#32) (small [] [.aff 2#256 7#256, .inf])).pt[0] = .empty ∧
    (act (writeTurn 0x240#12 6#32) (small [] [.aff 2#256 7#256, .inf])).pt[1] = .inf := by decide

/-- R34, R37, R272: CMD is accepted, then STATUS reads BUSY = 1 alone. -/
theorem test_acceptance : (act (writeTurn 0x010#12 0x44000000#32) State.reset).statusWord = 0x00000001#32 := by decide

/-- R35: a soft reset while BUSY. -/
theorem test_soft_reset :
    (act (writeTurn 0x008#12 0x00000007#32) (busy 0#32 (small [1, 2] [.inf]))).engine = .idle ∧
    (act (writeTurn 0x008#12 0x00000007#32) (busy 0#32 (small [1, 2] [.inf]))).x[1] = 0#256 := by decide

/-- Completion of an illegal word: V-DEC-01. -/
theorem test_illegal_word : (act .engine (busy 0#32 State.reset)).statusWord = 0x00000106#32 := by decide

/-- R119: case, spaces and a comment. -/
theorem test_assemble :
    assemble "fadd.m x3, x1,x2 ; sum".toList = some (.fadd .m 3 1 2) ∧
    assemble "FADD x3, x1, x2".toList = none ∧ assemble "SECENC.c pt1".toList = some (.secenc true 1) ∧
    assemble "PADD pt2, pt0, pt8".toList = none := by decide

/-! ### Witnesses: for each statement with hypotheses, a state and operands that meet them, clause by clause -/

theorem witness_DecodeInvertsEncode : (Instr.esign 0 15 15 0 15).wellFormed = true := by decide

theorem witness_EncodeInvertsDecode : decode 0x803FC3C0#32 = .ok (.esign 0 15 15 0 15) := by decide

/-- Each of the four clauses; a word of the table's first and of its last row. -/
theorem witness_LegalWordsAreThoseOfTheTable :
    decode 0x04840020#32 = .ok (.fred .n 2 1) ∧ (⟨"FRED", 0x04000000#32, 0xFC03FFCF#32⟩ : Row) ∈ opcodeTable ∧
    0x04840020#32 &&& 0xFC03FFCF#32 = 0x04000000#32 ∧
    (⟨"SECENC", 0xA4000000#32, 0xFFE3FFFE#32⟩ : Row) ∈ opcodeTable ∧
    0xA41C0001#32 &&& 0xFFE3FFFE#32 = 0xA4000000#32 ∧
    (busy 0x04840030#32 State.reset).engine = .busy 0x04840030#32 ∧ (busy 0x04840030#32 State.reset).turns = [] ∧
    decode 0x04840030#32 = .error .reservedModulus ∧
    (turns [.engine, .reset] (busy 0x04840030#32 State.reset)).turns = .engine :: [.reset] := by decide

theorem witness_RegisterMapIsOneToOne :
    (0x000#12).toNat % 4 = 0 ∧ locate 0x000#12 = some .id ∧
    (0xBDC#12).toNat % 4 = 0 ∧ locate 0xBDC#12 = some (.ptY 7 7) := by decide

theorem witness_StepRunsTheDecodedCommand :
    (busy 0x45C00000#32 State.reset).engine = .busy 0x45C00000#32 ∧ decode 0x45C00000#32 = .ok (.pinf 7) ∧
    (busy 0x45C00000#32 State.reset).turns = [] ∧
    (turns [.engine, .reset] (busy 0x45C00000#32 State.reset)).turns = .engine :: [.reset] := by decide

/-- A state after an error: ERR = 1 and E_RANGE. -/
def erred : State :=
  { State.reset with status := { Status.reset with done := true, err := true, errcode := some .range } }

theorem witness_AcceptanceOfACommandWord :
    (turns [writeTurn 0x010#12 0#32] (busy 0#32 State.reset)).engine = .busy 0#32 ∧
    (turns [writeTurn 0x010#12 0#32] erred).status.err = true ∧
    (turns [writeTurn 0x010#12 0#32] State.reset).turns = writeTurn 0x010#12 0#32 :: [] ∧
    (turns [writeTurn 0x010#12 0#32] State.reset).engine = .idle ∧
    (turns [writeTurn 0x010#12 0#32] State.reset).status.err = false := by decide

theorem witness_ErrorsWriteNothingElse : (busy 0x45C00000#32 State.reset).engine = .busy 0x45C00000#32 := by decide

theorem witness_CommandsWriteOnlyTheirDestinations :
    exec (.pinf 7) State.reset = .next (run (.pinf 7) State.reset) := by rfl

theorem witness_CommandsRaiseOnlyTheirErrorCodes :
    (busy 0#32 (field 2 [])).status.err = false ∧
    exec (.fred .m 0 0) (busy 0#32 (field 2 [])) = .next (run (.fred .m 0 0) (busy 0#32 (field 2 []))) ∧
    (run (.fred .m 0 0) (busy 0#32 (field 2 []))).status.err = true ∧
    (run (.fred .m 0 0) (busy 0#32 (field 2 []))).status.errcode = some .badModulus := by
  refine ⟨rfl, ?_, by decide, by decide⟩
  unfold run after
  rfl

theorem witness_TheEngineAlwaysCompletes :
    (turns [readTurn 0x00C#12] (busy 0#32 State.reset)).engine = .busy 0#32 ∧
    ∀ turn ∈ (turns [readTurn 0x00C#12] (busy 0#32 State.reset)).turns, ∃ a, turn = .host a ∧ ¬ IsSoftReset a := by
  refine ⟨rfl, ?_⟩
  intro turn h
  simp only [turns, List.mem_singleton] at h
  exact ⟨_, h, fun hs => absurd hs.1 (by decide)⟩

/-- The affine point (1, 1) of the curve of order 3, doubled by the step. -/
theorem witness_EveryStepKeepsPointsOnTheCurve :
    PointsOnCurve (busy 0x58400000#32 (tor [] [.aff 1#256 1#256])) ∧
    step (busy 0x58400000#32 (tor [] [.aff 1#256 1#256])) =
      .next (run (.pdbl 1 0) (busy 0x58400000#32 (tor [] [.aff 1#256 1#256]))) ∧
    (run (.pdbl 1 0) (busy 0x58400000#32 (tor [] [.aff 1#256 1#256]))).pt[1] = .aff 1#256 10#256 := by
  refine ⟨?_, rfl, by decide⟩
  intro i
  have h : (busy 0x58400000#32 (tor [] [.aff 1#256 1#256])).pt[i.val] =
      if i = 0 then .aff 1#256 1#256 else .empty := by
    revert i
    decide
  rw [h]
  split
  · exact ⟨⟨by decide, by decide, by decide⟩, by decide, by decide, by unfold CurveEquation; decide⟩
  · trivial

theorem witness_EveryStepKeepsTheErrorLatch :
    ErrorLatch (turns [writeTurn 0x00C#12 6#32] erred) ∧ BusyFlags (turns [writeTurn 0x00C#12 6#32] erred) ∧
    step (turns [writeTurn 0x00C#12 6#32] erred) = .next (act (writeTurn 0x00C#12 6#32) erred) :=
  ⟨rfl, fun h => by simp [State.busy, turns, erred, State.reset] at h, rfl⟩

theorem witness_EveryStepKeepsTheOutputForm :
    OutputForm (busy 0xA0040000#32 State.reset) ∧
    step (busy 0xA0040000#32 State.reset) = .next (run (.derenc 1 0) (busy 0xA0040000#32 State.reset)) := by
  refine ⟨⟨by decide, ?_, ?_⟩, rfl⟩
  · decide
  · intro h
    simp [busy, State.reset, Status.reset] at h

theorem witness_BothResetsGiveTheResetValues :
    (turns [.reset] (small [1] [.inf])).turns = .reset :: [] ∧
    (0xFFFFFFFF#32).getLsbD 2 = true ∧ (0x00000004#32).getLsbD 2 = true ∧
    (turns [writeTurn 0x008#12 4#32] (busy 0#32 (small [1] [.inf]))).turns = writeTurn 0x008#12 4#32 :: [] := by
  decide

/-! #### Field commands -/

/-- Both clauses: each modulus, and each of the three errors, at the boundary. -/
theorem witness_FredReduces :
    (IsModulus (field 3 []) .m 3 ∧ 2 < 3) ∧ (IsModulus (small [] []) .p 11 ∧ 2 < 11) ∧
    (IsModulus (small [] []) .n 13 ∧ 2 < 13) ∧ (busy 0#32 (field 2 [])).engine = .busy 0#32 ∧
    FieldError (busy 0#32 (field 2 [])) .m [] .badModulus ∧
    FieldError (busy 0#32 { field 2 [] with nvalid := false }) .n [] .noOrder :=
  ⟨⟨rfl, by decide⟩, ⟨rfl, by decide⟩, ⟨⟨rfl, rfl⟩, by decide⟩, rfl, ⟨2, rfl, by decide⟩, ⟨rfl, rfl⟩⟩

/-- Both operands at m - 1; then each error, the range error for either operand at m. -/
theorem witness_FieldSumDifferenceAndProduct :
    (IsModulus (field 13 [0, 12, 12]) .m 13 ∧ 2 < 13 ∧ (field 13 [0, 12, 12]).x[1].toNat < 13 ∧
      (field 13 [0, 12, 12]).x[2].toNat < 13) ∧
    FieldError (busy 0#32 (field 2 [])) .m [1, 2] .badModulus ∧
    FieldError (busy 0#32 { field 2 [] with nvalid := false }) .n [1, 2] .noOrder ∧
    FieldError (busy 0#32 (field 13 [0, 13, 0])) .m [1, 2] .range ∧
    FieldError (busy 0#32 (field 13 [0, 0, 13])) .m [1, 2] .range :=
  ⟨⟨rfl, by decide, by decide, by decide⟩, ⟨2, rfl, by decide⟩, ⟨rfl, rfl⟩,
    ⟨13, rfl, by decide, 1, by decide, by decide⟩, ⟨13, rfl, by decide, 2, by decide, by decide⟩⟩

/-- A unit, a value with a common divisor, zero, and the errors of both commands. -/
theorem witness_InverseAndQuotient :
    (IsModulus (field 15 [0, 14, 14]) .m 15 ∧ 2 < 15 ∧ (field 15 [0, 14, 14]).x[1].toNat < 15 ∧
      (field 15 [0, 14, 14]).x[2].toNat < 15 ∧ Nat.gcd (field 15 [0, 14, 14]).x[2].toNat 15 = 1) ∧
    (Nat.gcd (field 15 [0, 14, 10]).x[2].toNat 15 ≠ 1 ∧ Nat.gcd (field 15 [0, 14, 0]).x[2].toNat 15 ≠ 1) ∧
    (busy 0#32 (field 15 [0, 14, 10])).engine = .busy 0#32 ∧
    FieldError (busy 0#32 (field 15 [0, 0, 15])) .m [2] .range ∧
    FieldError (busy 0#32 (field 15 [0, 15, 0])) .m [1, 2] .range :=
  ⟨⟨rfl, by decide, by decide, by decide, by decide⟩, ⟨by decide, by decide⟩, rfl,
    ⟨15, rfl, by decide, 2, by decide, by decide⟩, ⟨15, rfl, by decide, 1, by decide, by decide⟩⟩

/-- The exponent 0 and the exponent m - 1; an exponent of m. -/
theorem witness_FpowRaisesToThePower :
    (IsModulus (field 13 [0, 12, 0]) .m 13 ∧ 2 < 13 ∧ (field 13 [0, 12, 0]).x[1].toNat < 13 ∧
      (field 13 [0, 12, 0]).x[2].toNat < 13 ∧ (field 13 [0, 0, 12]).x[2].toNat < 13) ∧
    (busy 0#32 (field 13 [0, 0, 13])).engine = .busy 0#32 ∧
    FieldError (busy 0#32 (field 13 [0, 0, 13])) .m [1, 2] .range :=
  ⟨⟨rfl, by decide, by decide, by decide, by decide⟩, rfl, ⟨13, rfl, by decide, 2, by decide, by decide⟩⟩

theorem witness_FeqComparesElements :
    (IsModulus (field 13 [0, 12, 12]) .m 13 ∧ 2 < 13 ∧ (field 13 [0, 12, 12]).x[1].toNat < 13 ∧
      (field 13 [0, 12, 12]).x[2].toNat < 13) ∧
    (busy 0#32 (field 13 [0, 13, 12])).engine = .busy 0#32 ∧
    FieldError (busy 0#32 (field 13 [0, 13, 12])) .m [1, 2] .range :=
  ⟨⟨rfl, by decide, by decide, by decide⟩, rfl, ⟨13, rfl, by decide, 1, by decide, by decide⟩⟩

/-! #### Point commands -/

theorem small_legal (xs : List Nat) (ps : List PointReg) : CurveLegal (small xs ps) := by
  refine ⟨?_, ?_, ?_⟩ <;> simp [small]

theorem small_gen (xs : List Nat) (ps : List PointReg) : GenLegal (small xs ps) :=
  ⟨small_legal xs ps, by simp [small], by simp [small], by simp only [CurveEquation, small]; decide⟩

/-- The point (10, 2), the first illegal P, an A of P, an X of P, and a point off the curve. -/
theorem witness_PsetConstructsPointsOfTheCurve :
    (CurveLegal (small [0, 10, 2] []) ∧ (small [0, 10, 2] []).x[1].toNat < (small [0, 10, 2] []).curveP.toNat ∧
      (small [0, 10, 2] []).x[2].toNat < (small [0, 10, 2] []).curveP.toNat ∧
      CurveEquation (small [0, 10, 2] []) (small [0, 10, 2] []).x[1].toNat (small [0, 10, 2] []).x[2].toNat) ∧
    ((busy 0#32 (small [] [])).engine = .busy 0#32 ∧
      (busy 0#32 { small [] [] with curveP := 2#256 }).curveP.toNat ≤ 2) ∧
    (2 < (busy 0#32 { small [] [] with curveA := 11#256 }).curveP.toNat ∧
      (busy 0#32 { small [] [] with curveA := 11#256 }).curveP.toNat ≤
        (busy 0#32 { small [] [] with curveA := 11#256 }).curveA.toNat) ∧
    (small [0, 11, 2] []).curveP.toNat ≤ (small [0, 11, 2] []).x[1].toNat ∧
    ¬ CurveEquation (small [0, 10, 10] []) (small [0, 10, 10] []).x[1].toNat (small [0, 10, 10] []).x[2].toNat := by
  refine ⟨⟨small_legal _ _, by decide, by decide, ?_⟩, ⟨rfl, by decide⟩, ⟨by decide, by decide⟩, by decide, ?_⟩ <;>
  · unfold CurveEquation
    decide

theorem witness_PinfAndPgenLoadTheirPoints :
    GenLegal (small [] []) ∧ (busy 0#32 (small [] [])).engine = .busy 0#32 ∧
    (busy 0#32 { small [] [] with curveP := 2#256 }).curveP.toNat ≤ 2 ∧
    (2 < (busy 0#32 { small [] [] with curveGX := 11#256 }).curveP.toNat ∧
      (busy 0#32 { small [] [] with curveGX := 11#256 }).curveP.toNat ≤
        (busy 0#32 { small [] [] with curveGX := 11#256 }).curveGX.toNat) ∧
    (CurveLegal { small [] [] with curveGY := 10#256 } ∧
      ¬ CurveEquation { small [] [] with curveGY := 10#256 } 2 10) := by
  refine ⟨small_gen _ _, rfl, by decide, ⟨by decide, by decide⟩, ⟨by decide, by decide, by decide⟩, ?_⟩
  unfold CurveEquation
  decide

theorem witness_PgetReadsBothCoordinates :
    (15 : XReg) ≠ 0 ∧ (small [] [.aff 10#256 0#256, .inf]).pt[0] = .aff 10#256 0#256 ∧
    (busy 0#32 (small [] [.aff 10#256 0#256, .inf])).engine = .busy 0#32 ∧
    (busy 0#32 (small [] [.aff 10#256 0#256, .inf])).pt[7] = .empty ∧
    (busy 0#32 (small [] [.aff 10#256 0#256, .inf])).pt[1] = .inf := by decide

theorem witness_PeqComparesPoints :
    (small [] [.aff 2#256 7#256, .inf]).pt[0] ≠ .empty ∧ (small [] [.aff 2#256 7#256, .inf]).pt[1] ≠ .empty ∧
    (busy 0#32 (small [] [.inf])).engine = .busy 0#32 ∧ (busy 0#32 (small [] [.inf])).pt[1] = .empty := by decide

/-- INF on each side, mutual inverses, two points with different x, a difference with no inverse, an EMPTY operand. -/
theorem witness_PaddFollowsTheChordRule :
    ((small [] [.inf, .aff 2#256 7#256]).pt[0] = .inf ∧ (small [] [.inf, .aff 2#256 7#256]).pt[1] ≠ .empty) ∧
    ((small [] [.aff 2#256 7#256, .aff 2#256 4#256]).pt[0] = .aff 2#256 7#256 ∧
      (small [] [.aff 2#256 7#256, .aff 2#256 4#256]).pt[1] = .aff 2#256 4#256 ∧ (7#256 : Word) ≠ 4#256) ∧
    ((small [] [.aff 10#256 2#256, .aff 2#256 7#256]).pt[0] = .aff 10#256 2#256 ∧
      (small [] [.aff 10#256 2#256, .aff 2#256 7#256]).pt[1] = .aff 2#256 7#256 ∧ (10#256 : Word) ≠ 2#256 ∧
      2 < (small [] [.aff 10#256 2#256, .aff 2#256 7#256]).curveP.toNat ∧ Int.gcd ((2 : Int) - 10) 11 = 1) ∧
    ((composite [.aff 0#256 0#256, .aff 6#256 6#256]).pt[1] = .aff 6#256 6#256 ∧ Int.gcd ((6 : Int) - 0) 15 ≠ 1) ∧
    (busy 0#32 (small [] [.inf])).engine = .busy 0#32 ∧ (busy 0#32 (small [] [.inf])).pt[1] = .empty := by decide

/-- INF, y = 0, a unit 2 y, a 2 y with a common divisor, EMPTY, and two registers that hold the same point. -/
theorem witness_PdblFollowsTheTangentRule :
    (small [] [.inf]).pt[0] = .inf ∧
    ({ State.reset with curveP := 11#256, curveB := 1#256, pt := pts [.aff 10#256 0#256] } : State).pt[0] =
      .aff 10#256 0#256 ∧
    ((small [] [.aff 10#256 2#256]).pt[0] = .aff 10#256 2#256 ∧ (2#256 : Word) ≠ 0#256 ∧
      2 < (small [] [.aff 10#256 2#256]).curveP.toNat ∧ Nat.gcd (2 * 2) 11 = 1) ∧
    ((composite [.aff 6#256 6#256]).pt[0] = .aff 6#256 6#256 ∧ Nat.gcd (2 * 6) 15 ≠ 1) ∧
    (busy 0#32 (composite [.inf])).engine = .busy 0#32 ∧ (busy 0#32 (composite [.inf])).pt[1] = .empty ∧
    (small [] [.inf, .inf]).pt[1] = (small [] [.inf, .inf]).pt[0] := by decide

theorem witness_PaddIsCommutative : PointsOnCurve (small [] [.aff 2#256 7#256, .aff 10#256 2#256]) := by
  intro i
  have h : (small [] [.aff 2#256 7#256, .aff 10#256 2#256]).pt[i.val] =
      if i = 0 then .aff 2#256 7#256 else if i = 1 then .aff 10#256 2#256 else .empty := by
    revert i
    decide
  rw [h]
  split
  · exact ⟨small_legal _ _, by decide, by decide, by unfold CurveEquation; decide⟩
  · split
    · exact ⟨small_legal _ _, by decide, by decide, by unfold CurveEquation; decide⟩
    · trivial

/-! #### Scalar commands -/

/-- INF; the scalars 0, CURVE_N and 1; EMPTY; and a CURVE_N of 2. -/
theorem witness_PmulCornerCases :
    (small [] [.inf]).pt[0] = .inf ∧
    ((small [0, 13, 1] [.aff 2#256 7#256]).pt[0] = .aff 2#256 7#256 ∧
      2 < (small [0, 13, 1] [.aff 2#256 7#256]).curveN.toNat ∧
      (small [0, 13, 1] [.aff 2#256 7#256]).x[0] = 0#256 ∧
      (small [0, 13, 1] [.aff 2#256 7#256]).nvalid = true ∧
      (small [0, 13, 1] [.aff 2#256 7#256]).curveN.toNat ∣ (small [0, 13, 1] [.aff 2#256 7#256]).x[1].toNat ∧
      (small [0, 13, 1] [.aff 2#256 7#256]).x[2] = 1#256 ∧
      2 < (small [0, 13, 1] [.aff 2#256 7#256]).curveP.toNat ∧ Nat.gcd (2 * 7) 11 = 1) ∧
    (busy 0#32 (small [] [])).engine = .busy 0#32 ∧ (busy 0#32 (small [] [])).pt[7] = .empty ∧
    (busy 0#32 { small [] [.aff 2#256 7#256] with curveN := 2#256 }).curveN.toNat ≤ 2 := by decide

/-- The scalars 1 and 12 times the point (6, 6) mod 15, with a known order and without one. -/
theorem witness_PmulCornerCases_not_invertible :
    (cubic 6#256 6#256 [1, 12] [.aff 6#256 6#256]).engine = .busy 0#32 ∧
    (cubic 6#256 6#256 [1, 12] [.aff 6#256 6#256]).pt[0] = .aff 6#256 6#256 ∧
    2 < (cubic 6#256 6#256 [1, 12] [.aff 6#256 6#256]).curveN.toNat ∧
    (cubic 6#256 6#256 [1, 12] [.aff 6#256 6#256]).x[0] ≠ 0#256 ∧
    (cubic 6#256 6#256 [1, 12] [.aff 6#256 6#256]).x[1] ≠ 0#256 ∧ ¬ 13 ∣ 1 ∧ ¬ 13 ∣ 12 ∧
    (6#256 : Word) ≠ 0#256 ∧ Nat.gcd (2 * 6) 15 ≠ 1 ∧
    scalarMul (cubic 6#256 6#256 [1, 12] [.aff 6#256 6#256]) 1 (.aff 6 6) = .error .notInvertible ∧
    { cubic 6#256 6#256 [1, 12] [.aff 6#256 6#256] with nvalid := false }.nvalid = false :=
  ⟨rfl, by decide, by decide, by decide, by decide, by decide, by decide, by decide, by decide, by rfl, rfl⟩

/-- The curve of `tor` as Mathlib's. -/
abbrev torCurve : WeierstrassCurve.Affine (ZMod 11) := ⟨0, 0, 0, 7, 4⟩

theorem prime_eleven : Fact (Nat.Prime 11) := ⟨by decide⟩

theorem tor_nonsingular : torCurve.Nonsingular 1 1 := by
  rw [WeierstrassCurve.Affine.nonsingular_iff, WeierstrassCurve.Affine.equation_iff]
  decide

/-- The point (1, 1) of `tor`. -/
def torPoint : torCurve.Point := .some 1 1 tor_nonsingular

theorem tor_negY : (1 : ZMod 11) ≠ torCurve.negY 1 1 := by decide

/-- The slope of the tangent in (1, 1): 10 = 5 * 2. -/
theorem tor_tangent : (1 : ZMod 11) - torCurve.negY 1 1 ≠ 0 ∧
    3 * 1 ^ 2 + 2 * torCurve.a₂ * 1 + torCurve.a₄ - torCurve.a₁ * 1 = 5 * (1 - torCurve.negY 1 1) := by decide

theorem tor_double : torCurve.addX 1 1 5 = 1 ∧ torCurve.addY 1 1 1 5 = torCurve.negY 1 1 := by decide

/-- (1, 1) has order 3: its double is its inverse. -/
theorem tor_three [Fact (Nat.Prime 11)] : (3 : Nat) • torPoint = 0 := by
  have hs : torCurve.slope 1 1 1 1 = 5 := by
    rw [WeierstrassCurve.Affine.slope_of_Y_ne rfl tor_negY]
    exact (div_eq_iff tor_tangent.1).2 tor_tangent.2
  have h2 : torPoint + torPoint = -torPoint := by
    rw [torPoint, WeierstrassCurve.Affine.Point.add_self_of_Y_ne tor_negY, WeierstrassCurve.Affine.Point.neg_some]
    simp only [WeierstrassCurve.Affine.Point.some.injEq, hs]
    exact tor_double
  rw [show (3 : Nat) = 2 + 1 from rfl, add_smul, two_smul, one_smul, h2, neg_add_cancel]

theorem tor_stands (xs : List Nat) (ps : List PointReg) : Stands (tor xs ps) (.aff 1#256 1#256) torPoint :=
  .inr ⟨1#256, 1#256, tor_nonsingular, rfl, by simp [tor], by simp [tor], rfl⟩

theorem witness_PaddIsTheGroupLaw :
    ∃ (s : State) (_ : Fact s.curveP.toNat.Prime) (P Q : (curveOf s).Point),
      2 < s.curveP.toNat ∧ Stands s s.pt[0] P ∧ Stands s s.pt[7] Q :=
  ⟨tor [] [.aff 1#256 1#256, .empty, .empty, .empty, .empty, .empty, .empty, .inf], prime_eleven, torPoint, .zero,
    by decide, tor_stands _ _, .inl ⟨rfl, rfl⟩⟩

/-- CURVE_N = 4, which is no multiple of the order 3, and NVALID = 0. -/
theorem witness_PmulIsTheGroupMultiple_any_order :
    ∃ (s : State) (_ : Fact s.curveP.toNat.Prime) (P : (curveOf s).Point), 2 < s.curveP.toNat ∧ Stands s s.pt[0] P ∧
      s.nvalid = true ∧ 2 < s.curveN.toNat ∧ s.curveN.toNat • P ≠ 0 ∧ { s with nvalid := false }.nvalid = false := by
  refine ⟨{ tor [5] [.aff 1#256 1#256] with curveN := 4#256 }, prime_eleven, torPoint, by decide, tor_stands [] [], rfl,
    by decide, ?_, rfl⟩
  have := prime_eleven
  intro h
  have h4 : (3 + 1 : Nat) • torPoint = 0 := h
  rw [add_smul, tor_three, zero_add, one_smul] at h4
  exact WeierstrassCurve.Affine.Point.some_ne_zero tor_nonsingular h4

theorem witness_PmulIsTheGroupMultiple :
    ∃ (s : State) (_ : Fact s.curveP.toNat.Prime) (P : (curveOf s).Point), 2 < s.curveP.toNat ∧ Stands s s.pt[0] P ∧
      s.nvalid = true ∧ 2 < s.curveN.toNat ∧ s.curveN.toNat • P = 0 :=
  ⟨tor [] [.aff 1#256 1#256], prime_eleven, torPoint, by decide, tor_stands _ _, rfl, by decide,
    @tor_three prime_eleven⟩

/-- A secret of n - 1; a secret of 0 and a secret of n. -/
theorem witness_KeygenMultipliesTheGenerator :
    (small [0, 12, 13] [.aff 2#256 7#256]).nvalid = true ∧ 2 < (small [0, 12, 13] [.aff 2#256 7#256]).curveN.toNat ∧
    GenLegal (small [0, 12, 13] [.aff 2#256 7#256]) ∧ 1 ≤ (small [0, 12, 13] [.aff 2#256 7#256]).x[1].toNat ∧
    (small [0, 12, 13] [.aff 2#256 7#256]).x[1].toNat < (small [0, 12, 13] [.aff 2#256 7#256]).curveN.toNat ∧
    (small [0, 12, 13] [.aff 2#256 7#256]).pt[0] =
      .aff (small [0, 12, 13] [.aff 2#256 7#256]).curveGX (small [0, 12, 13] [.aff 2#256 7#256]).curveGY ∧
    (busy 0#32 (small [0, 12, 13] [])).engine = .busy 0#32 ∧ (small [0, 12, 13] []).x[0] = 0#256 ∧
    (small [0, 12, 13] []).curveN.toNat ≤ (small [0, 12, 13] []).x[2].toNat :=
  ⟨rfl, by decide, small_gen _ _, by decide, by decide, by decide, rfl, by decide, by decide⟩

theorem witness_KeygenIsTheGroupMultipleOfG :
    ∃ (s : State) (_ : Fact s.curveP.toNat.Prime) (G : (curveOf s).Point),
      s.nvalid = true ∧ 2 < s.curveN.toNat ∧ 2 < s.curveP.toNat ∧ s.curveA.toNat < s.curveP.toNat ∧
      s.curveB.toNat < s.curveP.toNat ∧ Stands s (.aff s.curveGX s.curveGY) G ∧
      1 ≤ s.x[1].toNat ∧ s.x[1].toNat < s.curveN.toNat :=
  ⟨tor [0, 2] [], prime_eleven, torPoint, rfl, by decide, by decide, by decide, by decide, tor_stands _ _, by decide,
    by decide⟩

/-! #### ECDSA -/

/-- Each of the four errors, both forms of E_BAD_MODULUS and of E_RANGE; and an EMPTY key. -/
theorem witness_OrderCommandsCheckTheConfiguration :
    (busy 0#32 (small [] [.inf])).engine = .busy 0#32 ∧ (busy 0#32 (small [] [.inf])).pt[0] ≠ .empty ∧
    ConfigError (busy 0#32 { small [] [.inf] with nvalid := false }) .noOrder ∧
    ConfigError (busy 0#32 { small [] [.inf] with curveN := 2#256 }) .badModulus ∧
    ConfigError (busy 0#32 { small [] [.inf] with curveP := 2#256 }) .badModulus ∧
    ConfigError (busy 0#32 { small [] [.inf] with curveB := 11#256 }) .range ∧
    ConfigError (busy 0#32 { small [] [.inf] with curveGY := 11#256 }) .range ∧
    ConfigError (busy 0#32 { small [] [.inf] with curveGY := 10#256 }) .notOnCurve ∧
    (busy 0#32 (small [] [.inf])).pt[7] = .empty := by
  refine ⟨rfl, by decide, rfl, ⟨rfl, .inl (by decide)⟩, ⟨rfl, .inr (by decide)⟩,
    ⟨rfl, by decide, by decide, .inr (.inl (by decide))⟩, ⟨rfl, by decide, by decide, .inr (.inr (.inr (by decide)))⟩,
    ⟨rfl, by decide, ⟨by decide, by decide, by decide⟩, by decide, by decide, ?_⟩, by decide⟩
  unfold CurveEquation
  decide

/-- V-EC-01 with the nonce n - 1: R = (2, 4), k^-1 = 12. -/
theorem witness_EsignSignsWithTheHostNonce :
    (1 : XReg) ≠ 2 ∧ (small [0, 0, 0, 5, 3, 12] []).ctrl.nsrc = true ∧
    (small [0, 0, 0, 5, 3, 12] []).nvalid = true ∧ 2 < (small [0, 0, 0, 5, 3, 12] []).curveN.toNat ∧
    GenLegal (small [0, 0, 0, 5, 3, 12] []) ∧
    1 ≤ (small [0, 0, 0, 5, 3, 12] []).x[4].toNat ∧
    (small [0, 0, 0, 5, 3, 12] []).x[4].toNat < (small [0, 0, 0, 5, 3, 12] []).curveN.toNat ∧
    1 ≤ (small [0, 0, 0, 5, 3, 12] []).x[5].toNat ∧
    (small [0, 0, 0, 5, 3, 12] []).x[5].toNat < (small [0, 0, 0, 5, 3, 12] []).curveN.toNat ∧
    scalarMul (small [0, 0, 0, 5, 3, 12] []) (small [0, 0, 0, 5, 3, 12] []).x[5].toNat (.aff 2 7) = .ok (.aff 2 4) ∧
    2 % 13 ≠ 0 ∧ 12 < 13 ∧ 12 * 12 % 13 = 1 ∧ 12 * (5 + 2 % 13 * 3) % 13 ≠ 0 :=
  ⟨by decide, rfl, rfl, by decide, small_gen _ _, by decide, by decide, by decide, by decide, by rfl, by decide,
    by decide, by decide, by decide⟩

theorem cubic_one_gen (xs : List Nat) (ps : List PointReg) : GenLegal (cubic 1#256 1#256 xs ps) :=
  ⟨⟨by simp [cubic, composite], by simp [cubic, composite], by simp [cubic, composite]⟩, by simp [cubic, composite],
    by simp [cubic, composite], by simp only [CurveEquation, cubic, composite]; decide⟩

theorem cubic_six_gen (xs : List Nat) (ps : List PointReg) : GenLegal (cubic 6#256 6#256 xs ps) :=
  ⟨⟨by simp [cubic, composite], by simp [cubic, composite], by simp [cubic, composite]⟩, by simp [cubic, composite],
    by simp [cubic, composite], by simp only [CurveEquation, cubic, composite]; decide⟩

/-- Secrets 0 and n; nonces 0 and n; a nonce whose R is INF, one whose r is 0, and one whose s is 0 (V-EC-15: R = (5, 2),
the inverse of 2 is 7, and 11 + 5 * 3 = 26). -/
theorem witness_EsignRefusesBadSecretsAndNonces :
    (1 : XReg) ≠ 2 ∧ (busy 0#32 (small [] [])).engine = .busy 0#32 ∧ (busy 0#32 (small [] [])).nvalid = true ∧
    2 < (busy 0#32 (small [] [])).curveN.toNat ∧ GenLegal (busy 0#32 (small [] [])) ∧
    (small [] []).x[4] = 0#256 ∧ (small [0, 0, 0, 0, 13] []).curveN.toNat ≤ (small [0, 0, 0, 0, 13] []).x[4].toNat ∧
    (1 ≤ (small [0, 0, 0, 0, 12] []).x[4].toNat ∧
      (small [0, 0, 0, 0, 12] []).x[4].toNat < (small [0, 0, 0, 0, 12] []).curveN.toNat ∧
      (small [0, 0, 0, 0, 12] []).ctrl.nsrc = true) ∧
    (small [0, 0, 0, 0, 12] []).x[5] = 0#256 ∧
    (small [0, 0, 0, 0, 12, 13] []).curveN.toNat ≤ (small [0, 0, 0, 0, 12, 13] []).x[5].toNat ∧
    scalarMul { small [0, 0, 0, 0, 12, 13] [] with curveN := 26#256 } 13 (.aff 2 7) = .ok .inf ∧
    (2 % 2 = 0 ∧ 10 % 5 = 0 ∧ scalarMul { small [0, 0, 0, 0, 1, 4] [] with curveN := 5#256 } 4 (.aff 2 7) =
      .ok (.aff 10 2)) ∧
    (5 % 13 ≠ 0 ∧ (small [0, 0, 0, 11, 3, 2] []).x[5].toNat = 2 ∧
      scalarMul (small [0, 0, 0, 11, 3, 2] []) 2 (.aff 2 7) = .ok (.aff 5 2) ∧ 2 * 7 % 13 = 1 ∧
      7 * ((small [0, 0, 0, 11, 3, 2] []).x[3].toNat + 5 % 13 * (small [0, 0, 0, 11, 3, 2] []).x[4].toNat) % 13 = 0) :=
  ⟨by decide, rfl, rfl, by decide, small_gen [] [], by decide, by decide, ⟨by decide, by decide, rfl⟩, by decide,
    by decide, by rfl, ⟨by decide, by decide, by rfl⟩, by decide, by decide, by rfl, by decide, by decide⟩

/-- The nonce 1 on a generator that has no double; and the nonce 2 for CURVE_N = 12, with R = (5, 2). -/
theorem witness_EsignRefusesBadSecretsAndNonces_not_invertible :
    (cubic 6#256 6#256 [0, 0, 0, 0, 1, 1] []).engine = .busy 0#32 ∧
    (cubic 6#256 6#256 [0, 0, 0, 0, 1, 1] []).nvalid = true ∧
    2 < (cubic 6#256 6#256 [0, 0, 0, 0, 1, 1] []).curveN.toNat ∧
    GenLegal (cubic 6#256 6#256 [0, 0, 0, 0, 1, 1] []) ∧ (cubic 6#256 6#256 [0, 0, 0, 0, 1, 1] []).ctrl.nsrc = true ∧
    (cubic 6#256 6#256 [0, 0, 0, 0, 1, 1] []).x[4].toNat = 1 ∧ (cubic 6#256 6#256 [0, 0, 0, 0, 1, 1] []).x[5].toNat = 1 ∧
    scalarMul (cubic 6#256 6#256 [0, 0, 0, 0, 1, 1] []) 1 (.aff 6 6) = .error .notInvertible ∧
    (GenLegal { small [0, 0, 0, 0, 3, 2] [] with curveN := 12#256, engine := .busy 0#32 } ∧
      (small [0, 0, 0, 0, 3, 2] []).x[4].toNat = 3 ∧ (small [0, 0, 0, 0, 3, 2] []).x[5].toNat = 2 ∧ 5 % 12 ≠ 0 ∧
      scalarMul { small [0, 0, 0, 0, 3, 2] [] with curveN := 12#256, engine := .busy 0#32 } 2 (.aff 2 7) =
        .ok (.aff 5 2) ∧ Nat.gcd 2 12 ≠ 1) :=
  ⟨rfl, rfl, by decide, cubic_six_gen _ _, rfl, by decide, by decide, by rfl,
    small_gen [0, 0, 0, 0, 3, 2] [], by decide, by decide, by decide, by rfl, by decide⟩

theorem witness_EsignWritesLowSSignatures :
    (1 : XReg) ≠ 2 ∧ (small [0, 0, 0, 5, 3, 12] []).status.err = false ∧
    exec (.esign 1 2 3 4 5) (small [0, 0, 0, 5, 3, 12] []) =
      .next (run (.esign 1 2 3 4 5) (small [0, 0, 0, 5, 3, 12] [])) ∧
    (run (.esign 1 2 3 4 5) (small [0, 0, 0, 5, 3, 12] [])).status.err = false := by
  refine ⟨by decide, rfl, ?_, by decide⟩
  unfold run after
  rfl

theorem witness_EsignOutcomesWithInternalNonces :
    (1 : XReg) ≠ 2 ∧ (busy 0#32 { small [0, 0, 0, 5, 12] [] with ctrl := ⟨false, false⟩ }).engine = .busy 0#32 ∧
    (busy 0#32 { small [0, 0, 0, 5, 12] [] with ctrl := ⟨false, false⟩ }).ctrl.nsrc = false ∧
    (small [0, 0, 0, 5, 12] []).nvalid = true ∧ 2 < (small [0, 0, 0, 5, 12] []).curveN.toNat ∧
    GenLegal (busy 0#32 { small [0, 0, 0, 5, 12] [] with ctrl := ⟨false, false⟩ }) ∧
    1 ≤ (small [0, 0, 0, 5, 12] []).x[4].toNat ∧
    (small [0, 0, 0, 5, 12] []).x[4].toNat < (small [0, 0, 0, 5, 12] []).curveN.toNat :=
  ⟨by decide, rfl, rfl, rfl, by decide, small_gen [0, 0, 0, 5, 12] [], by decide, by decide⟩

/-- V-EC-09, V-EC-08 (w = 9, u = v = 6, T1 = 6 G, T2 = 18 G), and an INF key whose T is INF for z = 0. -/
theorem witness_EverifyComparesTheXCoordinate :
    (small [0, 5, 0, 5] [.aff 8#256 3#256]).pt[0] = (Point.aff 8 3).toReg ∧ (8 < 2 ^ 256 ∧ 3 < 2 ^ 256) ∧
    (small [0, 5, 0, 5] [.aff 8#256 3#256]).nvalid = true ∧
    2 < (small [0, 5, 0, 5] [.aff 8#256 3#256]).curveN.toNat ∧
    GenLegal (small [0, 5, 0, 5] [.aff 8#256 3#256]) ∧
    Nat.gcd ((small [0, 5, 0, 5] [.aff 8#256 3#256]).x[2].toNat % 13) 13 ≠ 1 ∧
    (9 < 13 ∧ (small [0, 5, 16, 5] [.aff 8#256 3#256]).x[2].toNat * 9 % 13 = 1 ∧
      scalarMul (small [0, 5, 16, 5] [.aff 8#256 3#256]) (5 * 9 % 13) (.aff 2 7) = .ok (.aff 7 9) ∧
      scalarMul (small [0, 5, 16, 5] [.aff 8#256 3#256]) (5 * 9 % 13) (.aff 8 3) = .ok (.aff 3 6) ∧
      pointAdd 11 1 (.aff 7 9) (.aff 3 6) = .ok (.aff 5 9)) ∧
    (small [] [.inf]).pt[0] = Point.inf.toReg ∧
    (scalarMul (small [] [.inf]) (0 * 9 % 13) (.aff 2 7) = .ok .inf ∧
      scalarMul (small [] [.inf]) (0 * 9 % 13) .inf = .ok .inf ∧ pointAdd 11 1 .inf .inf = .ok .inf) :=
  ⟨by decide, by decide, rfl, by decide, small_gen _ _, by decide,
    ⟨by decide, by decide, by rfl, by rfl, by rfl⟩, by decide, ⟨by rfl, by rfl, rfl⟩⟩

/-- With s = 1 and w = 1: T1 fails on the generator (6, 6); T2 fails on the key (6, 6), with T1 = INF; and the sum of
(1, 1) and (4, 8) fails. -/
theorem witness_EverifyComparesTheXCoordinate_not_invertible :
    ((cubic 6#256 6#256 [0, 1, 1, 1] [.aff 6#256 6#256]).pt[0] = (Point.aff 6 6).toReg ∧
      (cubic 6#256 6#256 [0, 1, 1, 1] [.aff 6#256 6#256]).engine = .busy 0#32 ∧
      GenLegal (cubic 6#256 6#256 [0, 1, 1, 1] [.aff 6#256 6#256]) ∧
      2 < (cubic 6#256 6#256 [0, 1, 1, 1] [.aff 6#256 6#256]).curveN.toNat ∧
      1 < (cubic 6#256 6#256 [0, 1, 1, 1] [.aff 6#256 6#256]).curveN.toNat ∧
      (cubic 6#256 6#256 [0, 1, 1, 1] [.aff 6#256 6#256]).x[2].toNat * 1 % 13 = 1 ∧
      scalarMul (cubic 6#256 6#256 [0, 1, 1, 1] [.aff 6#256 6#256]) (1 * 1 % 13) (.aff 6 6) = .error .notInvertible) ∧
    (GenLegal (cubic 1#256 1#256 [0, 1, 1, 0] [.aff 6#256 6#256]) ∧
      scalarMul (cubic 1#256 1#256 [0, 1, 1, 0] [.aff 6#256 6#256]) (0 * 1 % 13) (.aff 1 1) = .ok .inf ∧
      scalarMul (cubic 1#256 1#256 [0, 1, 1, 0] [.aff 6#256 6#256]) (1 * 1 % 13) (.aff 6 6) = .error .notInvertible) ∧
    (GenLegal (cubic 1#256 1#256 [0, 1, 1, 1] [.aff 4#256 8#256]) ∧
      scalarMul (cubic 1#256 1#256 [0, 1, 1, 1] [.aff 4#256 8#256]) (1 * 1 % 13) (.aff 1 1) = .ok (.aff 1 1) ∧
      scalarMul (cubic 1#256 1#256 [0, 1, 1, 1] [.aff 4#256 8#256]) (1 * 1 % 13) (.aff 4 8) = .ok (.aff 4 8) ∧
      pointAdd 15 0 (.aff 1 1) (.aff 4 8) = .error .notInvertible) :=
  ⟨⟨by decide, rfl, cubic_six_gen _ _, by decide, by decide, by decide, by rfl⟩,
    ⟨cubic_one_gen _ _, by rfl, by rfl⟩, ⟨cubic_one_gen _ _, by rfl, by rfl, by rfl⟩⟩

/-- On the curve of order 3, n = 3: z = 1, d = 1, k = 1 give r = 1 and s = 1 mod 3 after low-S. -/
theorem witness_EsignedSignaturesVerify :
    ∃ (s t u : State) (_ : Fact s.curveP.toNat.Prime) (G : (curveOf s).Point),
      2 < s.curveP.toNat ∧ s.curveN.toNat.Prime ∧ s.curveN.toNat • G = 0 ∧ Stands s (.aff s.curveGX s.curveGY) G ∧
      s.status.err = false ∧ exec (.esign 1 2 3 4 5) s = .next t ∧ t.status.err = false ∧
      exec (.keygen 0 4) t = .next u ∧ (1 : XReg) ≠ 2 ∧ (3 : XReg) ≠ 1 ∧ (3 : XReg) ≠ 2 ∧ (4 : XReg) ≠ 1 ∧
      (4 : XReg) ≠ 2 :=
  ⟨tor [0, 0, 0, 1, 1, 1] [], run (.esign 1 2 3 4 5) (tor [0, 0, 0, 1, 1, 1] []),
    run (.keygen 0 4) (run (.esign 1 2 3 4 5) (tor [0, 0, 0, 1, 1, 1] [])), prime_eleven, torPoint,
    by decide, by decide, @tor_three prime_eleven, tor_stands _ _, rfl, by unfold run after; rfl, by decide,
    by unfold run after; rfl, by decide, by decide, by decide, by decide, by decide⟩

theorem witness_EverifyAcceptsHighS :
    ∃ (s t : State) (_ : Fact s.curveP.toNat.Prime) (G Q : (curveOf s).Point),
      2 < s.curveP.toNat ∧ s.nvalid = true ∧ 2 < s.curveN.toNat ∧ s.curveA.toNat < s.curveP.toNat ∧
      s.curveB.toNat < s.curveP.toNat ∧ s.curveN.toNat • G = 0 ∧ Stands s (.aff s.curveGX s.curveGY) G ∧
      s.curveN.toNat • Q = 0 ∧ Stands s s.pt[0] Q ∧ (3 : XReg) ≠ 2 ∧ (1 : XReg) ≠ 2 ∧
      1 ≤ s.x[2].toNat ∧ s.x[2].toNat < s.curveN.toNat ∧ exec (.everify 3 1 2 0) s = .next t ∧
      t.status.vok = true :=
  ⟨tor [0, 1, 2, 1] [.aff 1#256 1#256], run (.everify 3 1 2 0) (tor [0, 1, 2, 1] [.aff 1#256 1#256]), prime_eleven,
    torPoint, torPoint, by decide, rfl, by decide, by decide, by decide, @tor_three prime_eleven, tor_stands _ _,
    @tor_three prime_eleven, tor_stands _ _, by decide, by decide, by decide, by decide, by unfold run after; rfl,
    by decide⟩

theorem witness_SecencWritesTheSecString :
    (small [] [.aff 10#256 2#256, .inf]).pt[0] = .aff 10#256 2#256 ∧
    (small [] [.aff 10#256 2#256, .inf]).pt[1] = .inf ∧
    (busy 0#32 (small [] [])).engine = .busy 0#32 ∧ (busy 0#32 (small [] [])).pt[7] = .empty := by decide

/-! #### The host side -/

theorem witness_HostReadsReturnTheRegisterMap :
    (turns [readTurn (Loc.ptY 7 7).offset] (busy 0#32 State.reset)).turns = readTurn (Loc.ptY 7 7).offset :: [] := by
  decide

/-- A misaligned write, an 8-bit read, and a write on three lanes. -/
theorem witness_UnsupportedAccessesSetBuserr :
    (turns [.host ⟨0x401#12, 32, 0xF#4, .write 1#32⟩] State.reset).turns =
      .host ⟨0x401#12, 32, 0xF#4, .write 1#32⟩ :: [] ∧ (0x401#12).toNat % 4 ≠ 0 ∧
    (turns [.host ⟨0x400#12, 8, 0xF#4, .read⟩] State.reset).turns = .host ⟨0x400#12, 8, 0xF#4, .read⟩ :: [] ∧
    (8 : Nat) ≠ 32 ∧
    (turns [.host ⟨0x400#12, 32, 0x7#4, .write 1#32⟩] State.reset).turns =
      .host ⟨0x400#12, 32, 0x7#4, .write 1#32⟩ :: [] ∧ (0x7#4 : BitVec 4) ≠ 0xF#4 := by decide

/-- The last unmapped word, 0xFFC; and writes to OBUF word 17 and to pt[7].Y limb 7. -/
theorem witness_UnmappedAndReadOnlyAccessesSetBuserr :
    (0xFFC#12).toNat % 4 = 0 ∧ locate 0xFFC#12 = none ∧
    (turns [readTurn 0xFFC#12] State.reset).turns = readTurn 0xFFC#12 :: [] ∧
    (0x144#12).toNat % 4 = 0 ∧ 0x100 ≤ (0x144#12).toNat ∧ (0x144#12).toNat < 0x148 ∧
    (0xBDC#12).toNat % 4 = 0 ∧ 0x800 ≤ (0xBDC#12).toNat ∧ (0xBDC#12).toNat < 0xC00 ∧
    (turns [writeTurn 0xBDC#12 1#32] State.reset).turns = writeTurn 0xBDC#12 1#32 :: [] := by decide +kernel

theorem witness_unmapped_offset : ∀ l : Loc, l.offset ≠ 0xFFC#12 := by
  intro l
  rcases l with _ | _ | _ | _ | _ | _ | _ | k | ⟨r, j⟩ | _ | j | ⟨i, j⟩ | i | ⟨i, j⟩ | ⟨i, j⟩
  all_goals try decide
  · revert k; decide
  · cases r <;> revert j <;> decide
  · revert j; decide
  · revert i j; decide +kernel
  · revert i; decide
  · revert i j; decide +kernel
  · revert i j; decide +kernel

theorem witness_HostWritesReplaceOneLimb :
    (turns [writeTurn (Loc.x 15 7).offset 1#32] State.reset).engine = .idle ∧
    (turns [writeTurn (Loc.x 15 7).offset 1#32] State.reset).turns = writeTurn (Loc.x 15 7).offset 1#32 :: [] ∧
    (turns [writeTurn (Loc.modulus 0).offset 1#32] State.reset).turns = writeTurn (Loc.modulus 0).offset 1#32 :: [] := by
  decide

theorem witness_CurveWritesEmptyAffinePoints :
    (turns [writeTurn (Loc.curve .n 7).offset 1#32] (small [] [.aff 2#256 7#256])).engine = .idle ∧
    (turns [writeTurn (Loc.curve .n 7).offset 1#32] State.reset).turns = writeTurn (Loc.curve .n 7).offset 1#32 :: [] ∧
    (turns [writeTurn Loc.nvalid.offset 1#32] State.reset).turns = writeTurn Loc.nvalid.offset 1#32 :: [] := by decide

theorem witness_WritesWhileBusyAreDropped :
    (turns [writeTurn Loc.ctrl.offset 3#32] (busy 0#32 State.reset)).engine = .busy 0#32 ∧
    (turns [writeTurn Loc.ctrl.offset 3#32] (busy 0#32 State.reset)).turns = writeTurn Loc.ctrl.offset 3#32 :: [] ∧
    (3#32).getLsbD 2 = false ∧
    (∀ l ∈ [Loc.x 0 0, Loc.x 15 7, Loc.modulus 0, Loc.modulus 7, Loc.curve .p 0, Loc.curve .n 7, Loc.nvalid, Loc.cmd],
      (turns [writeTurn l.offset 3#32] (busy 0#32 State.reset)).turns = writeTurn l.offset 3#32 :: [] ∧
      ((∃ i j, l = .x i j) ∨ (∃ j, l = .modulus j) ∨ (∃ r j, l = .curve r j) ∨ l = .nvalid ∨ l = .cmd)) := by
  refine ⟨rfl, rfl, by decide, ?_⟩
  simp [turns]

theorem witness_BusyProtectsEveryRegister :
    (turns [writeTurn 0x008#12 3#32] (busy 0#32 State.reset)).engine = .busy 0#32 ∧
    (turns [writeTurn 0x008#12 3#32] (busy 0#32 State.reset)).turns = writeTurn 0x008#12 3#32 :: [] ∧
    ¬ IsSoftReset ⟨0x008#12, 32, 0xF#4, .write 3#32⟩ := by
  refine ⟨rfl, rfl, ?_⟩
  rintro ⟨-, -, -, v, hv, h⟩
  cases hv
  exact absurd h (by decide)

theorem witness_StatusWritesClearFlags :
    (turns [writeTurn 0x00C#12 0xC6#32] erred).turns = writeTurn 0x00C#12 0xC6#32 :: [] := by decide

theorem witness_CtrlWritesStoreIeAndNsrc :
    (turns [writeTurn 0x008#12 0xFFFFFFFB#32] State.reset).engine = .idle ∧ (0xFFFFFFFB#32).getLsbD 2 = false ∧
    (turns [writeTurn 0x008#12 0xFFFFFFFB#32] State.reset).turns = writeTurn 0x008#12 0xFFFFFFFB#32 :: [] := by decide

theorem witness_ClearingErrAdmitsCommandsAgain :
    (turns [writeTurn 0x00C#12 4#32, writeTurn 0x010#12 0#32] erred).engine = .idle ∧
    (turns [writeTurn 0x00C#12 4#32, writeTurn 0x010#12 0#32] erred).status.err = true ∧ (4#32).getLsbD 2 = true ∧
    (turns [writeTurn 0x00C#12 4#32, writeTurn 0x010#12 0#32] erred).turns =
      writeTurn 0x00C#12 4#32 :: writeTurn 0x010#12 0#32 :: [] := by decide

/-- A completion with IE = 1; then each of the four ways to clear the interrupt, from a state whose IRQ is 1. -/
theorem witness_IrqIsALevelOfCompletion :
    exec (.pinf 0) (small [] []) = .next (run (.pinf 0) (small [] [])) ∧
    (run (.pinf 0) (small [] [])).irq = true ∧
    (2#32).getLsbD 1 = true ∧ (0#32).getLsbD 0 = false ∧ (run (.pinf 0) (small [] [])).engine = .idle ∧
    (run (.pinf 0) (small [] [])).status.err = false ∧
    step (turns [writeTurn 0x00C#12 2#32] (run (.pinf 0) (small [] []))) =
      .next (act (writeTurn 0x00C#12 2#32) (run (.pinf 0) (small [] []))) ∧
    step (busy 0#32 (small [] [])) = .next (act .engine (busy 0#32 (small [] []))) ∧
    (busy 0#32 (small [] [])).status.done = false ∧ (act .engine (busy 0#32 (small [] []))).status.done = true := by
  refine ⟨rfl, by decide, by decide, by decide, rfl, rfl, rfl, rfl, rfl, by decide⟩

theorem witness_SetxAndSetrLoadWholeRegisters :
    (turns (setxProg 0x1000 15 7#256) State.reset).engine = .idle ∧
    (turns (setxProg 0x1000 15 7#256) State.reset).turns = setxProg 0x1000 15 7#256 ++ [] ∧
    (turns (setmodProg 0x1000 7#256) State.reset).turns = setmodProg 0x1000 7#256 ++ [] ∧
    (turns (setrProg 0x1000 .n 7#256) State.reset).turns = setrProg 0x1000 .n 7#256 ++ [] :=
  ⟨rfl, (List.append_nil _).symm, (List.append_nil _).symm, (List.append_nil _).symm⟩

theorem witness_IssuedCommandsAreExecuted :
    (Instr.pget 6 7 2).wellFormed = true ∧ State.reset.engine = .idle ∧ State.reset.status.err = false ∧
    (turns (issueProg 0 (.pget 6 7 2) ++ [.engine]) State.reset).turns = issueProg 0 (.pget 6 7 2) ++ .engine :: [] :=
  ⟨by decide, rfl, rfl, rfl⟩

end Sys2Proof.Tests
end

section
/-! What an execution yields: a small logic over `Except`, so that a fact about a command's result is proved along its
sequence of reads and checks, one rule a construct (spec/60_exceptions.md R271, R274). -/

namespace Sys2Proof.Machine

/-- Every value the execution `r` answers meets `Q`; nothing is said of one that fails. -/
def Yields {α : Type} (r : Except ErrCode α) (Q : α → Prop) : Prop := ∀ a, r = .ok a → Q a

theorem yields_ok {α : Type} {Q : α → Prop} {a : α} (h : Q a) : Yields (.ok a) Q := by
  rintro _ ⟨⟩
  exact h

theorem yields_error {α : Type} {Q : α → Prop} {c : ErrCode} : Yields (.error c) Q := by
  rintro _ ⟨⟩

theorem Yields.bind {α β : Type} {r : Except ErrCode α} {f : α → Except ErrCode β} {P : α → Prop}
    {Q : β → Prop} (hr : Yields r P) (hf : ∀ a, P a → Yields (f a) Q) : Yields (r >>= f) Q := by
  intro b h
  obtain ⟨a, ha, hb⟩ := bind_ok_iff.1 h
  exact hf a (hr a ha) b hb

/-- The rule for a first part of which nothing is needed. -/
theorem yields_bind {α β : Type} {r : Except ErrCode α} {f : α → Except ErrCode β} {Q : β → Prop}
    (hf : ∀ a, Yields (f a) Q) : Yields (r >>= f) Q :=
  Yields.bind (P := fun _ => True) (fun _ _ => trivial) fun a _ => hf a

/-- A completed command meets `Q` when its writes do and the error entry does (R274, R275). -/
theorem complete_yields {Q : State → Prop} {s t : State} {r : Except ErrCode State} (h : complete s r = .next t)
    (hok : Yields r fun u => Q u.finish) (herr : ∀ c, Q (s.errorEntry c)) : Q t := by
  obtain ⟨u, hu, rfl⟩ | ⟨c, -, rfl⟩ := complete_cases h
  · exact hok u hu
  · exact herr c

end Sys2Proof.Machine
end

section
/-! What a host access can do to the state, said once (spec/20_memory.md R83 to R87, spec/60_exceptions.md R272): every
invariant of the host side is a case analysis over `HostEffect`. -/

namespace Sys2Proof.Machine

theorem busy_eq_false_iff {s : State} : s.busy = false ↔ s.engine = .idle := by
  unfold State.busy
  cases s.engine <;> simp

theorem unlessBusy_idle {s : State} (t : State) (h : s.engine = .idle) : s.unlessBusy t = t := by
  simp [State.unlessBusy, busy_eq_false_iff.2 h]

theorem unlessBusy_busy {s : State} (t : State) {w : BusWord} (h : s.engine = .busy w) :
    s.unlessBusy t = s.setDrop := by
  simp [State.unlessBusy, State.busy, h]

/-- The states one host access can lead to. -/
inductive HostEffect (s : State) : State → Prop
  | refused : HostEffect s s.setBusErr
  | refusedRead : HostEffect s (s.setBusErr.respond 0#32)
  | answered (v : BusWord) : HostEffect s (s.respond v)
  | dropped : HostEffect s s.setDrop
  | reset : HostEffect s s.doReset
  | cleared (v : BusWord) : HostEffect s { s with status := s.status.clear v }
  | accepted (w : BusWord) (hidle : s.engine = .idle) (herr : s.status.err = false) :
      HostEffect s { s with engine := .busy w, status := { s.status with done := false } }
  | ctrl (c : Ctrl) (hidle : s.engine = .idle) : HostEffect s { s with ctrl := c }
  | curve (r : CurveReg) (v : Word) (hidle : s.engine = .idle) : HostEffect s (s.setCurve r v).invalidatePoints
  | nvalid (b : Bool) (hidle : s.engine = .idle) : HostEffect s { s with nvalid := b }.invalidatePoints
  | modulus (v : Word) (hidle : s.engine = .idle) : HostEffect s { s with modulus := v }
  | x (i : Fin 16) (v : Word) (hidle : s.engine = .idle) : HostEffect s { s with x := s.x.set i.val v }

/-- A write to a command input is dropped or, while the engine is IDLE, performed (R86). -/
theorem unlessBusy_effect {s t : State} (h : s.engine = .idle → HostEffect s t) : HostEffect s (s.unlessBusy t) := by
  cases he : s.engine with
  | idle =>
    rw [unlessBusy_idle t he]
    exact h he
  | busy w =>
    rw [unlessBusy_busy t he]
    exact .dropped

theorem writeCtrl_effect (s : State) (v : BusWord) : HostEffect s (s.writeCtrl v) := by
  unfold State.writeCtrl
  split
  · exact .reset
  · exact unlessBusy_effect (.ctrl _)

theorem issue_effect (s : State) (w : BusWord) : HostEffect s (s.issue w) := by
  unfold State.issue
  split
  · exact .dropped
  · rename_i h
    obtain ⟨hbusy, herr⟩ : s.busy = false ∧ s.status.err = false := by simpa using h
    exact .accepted w (busy_eq_false_iff.1 hbusy) herr

theorem writeLoc_effect (s : State) (v : BusWord) (l : Loc) : HostEffect s (writeLoc s v l) := by
  cases l with
  | ctrl => exact writeCtrl_effect s v
  | status => exact .cleared v
  | cmd => exact issue_effect s v
  | curve r j => exact unlessBusy_effect (.curve r _)
  | nvalid => exact unlessBusy_effect (.nvalid _)
  | modulus j => exact unlessBusy_effect (.modulus _)
  | x i j => exact unlessBusy_effect (.x i _)
  | _ => exact .refused

theorem badAccess_effect (s : State) (op : AccessOp) : HostEffect s (s.badAccess op) := by
  cases op with
  | read => exact .refusedRead
  | write v => exact .refused

theorem hostAccess_effect (s : State) (a : Access) : HostEffect s (hostAccess s a) := by
  obtain h | ⟨l, -, -, -, h⟩ | ⟨l, v, -, -, -, h⟩ := hostAccess_cases s a <;> rw [h]
  · exact badAccess_effect s a.op
  · exact .answered _
  · exact writeLoc_effect s v l

/-- A predicate that ignores pending turns is kept by every step when it is kept by host accesses, resets, error
entries and commands. -/
theorem step_keeps {I : State → Prop} (hturns : ∀ s rest, I s → I { s with turns := rest })
    (hhost : ∀ s t, HostEffect s t → I s → I t) (herr : ∀ s c, I s → I (s.errorEntry c))
    (hexec : ∀ i s t, exec i s = .next t → I s → I t) {s t : State} (h : step s = .next t) (hs : I s) : I t := by
  obtain ⟨-, -, rfl⟩ | ⟨rest, -, -, rfl⟩ | ⟨a, rest, -, rfl⟩ | ⟨rest, -, rfl⟩ |
    ⟨w, rest, -, -, ⟨i, -, hi⟩ | ⟨_, -, rfl⟩⟩ := step_cases h
  · exact hs
  · exact hturns s rest hs
  · exact hhost _ _ (hostAccess_effect _ a) (hturns s rest hs)
  · exact hhost _ _ .reset (hturns s rest hs)
  · exact hexec i _ t hi (hturns s rest hs)
  · exact herr _ _ (hturns s rest hs)

end Sys2Proof.Machine
end

section
/-! The group law keeps the curve, over any modulus: for prime and composite CURVE_P alike the slope's denominator is a
unit, and that is all the argument needs (spec/41_point.md R178, R180). -/

namespace Sys2Proof.Machine

/-- The third point of a line through (x1, y1) whose slope `lam` meets the curve again at abscissa x2: `hroot` says that
x2 is a root of what is left of the cubic after dividing by (X - x1). Its mirror image is on the curve. -/
theorem third_point_equation {R : Type} [CommRing R] {a b lam x1 y1 x2 x3 y3 : R}
    (h1 : y1 ^ 2 = x1 ^ 3 + a * x1 + b)
    (hroot : x2 ^ 2 + x1 * x2 + x1 ^ 2 + a = lam ^ 2 * (x2 - x1) + 2 * lam * y1)
    (hx : x3 = lam ^ 2 - x1 - x2) (hy : y3 = lam * (x1 - x3) - y1) : y3 ^ 2 = x3 ^ 3 + a * x3 + b := by
  subst hy hx
  linear_combination h1 - (lam ^ 2 - x1 - x2 - x1) * hroot

/-- The chord through two points of the curve whose abscissas differ by a unit. -/
theorem chord_root {R : Type} [CommRing R] {a b u x1 y1 x2 y2 : R} (hu : (x2 - x1) * u = 1)
    (h1 : y1 ^ 2 = x1 ^ 3 + a * x1 + b) (h2 : y2 ^ 2 = x2 ^ 3 + a * x2 + b) :
    x2 ^ 2 + x1 * x2 + x1 ^ 2 + a = ((y2 - y1) * u) ^ 2 * (x2 - x1) + 2 * ((y2 - y1) * u) * y1 := by
  linear_combination u * (h1 - h2) - (x2 ^ 2 + x1 * x2 + x1 ^ 2 + a + (y2 - y1) ^ 2 * u) * hu

/-- The tangent at a point of the curve whose double ordinate is a unit. -/
theorem tangent_root {R : Type} [CommRing R] {a u x y : R} (hu : 2 * y * u = 1) :
    x ^ 2 + x * x + x ^ 2 + a = ((3 * x ^ 2 + a) * u) ^ 2 * (x - x) + 2 * ((3 * x ^ 2 + a) * u) * y := by
  linear_combination (-(3 * x ^ 2 + a)) * hu

end Sys2Proof.Machine
end

section
/-! The frame of a command, from what `Writes` says a successful one writes (spec/10_state.md R36, R45, R47, R49). -/

namespace Sys2Proof.Machine

open Sys2Proof.Claims

/-- Outside x, pt, the three result flags and the output buffer a successful command leaves the state as it was. -/
theorem Writes.frame {s u : State} {i : Instr} (h : Writes s i u) :
    u = { s with
      x := u.x, pt := u.pt, olen := u.olen, obuf := u.obuf
      status := { s.status with eq := u.status.eq, vok := u.status.vok, oinf := u.status.oinf } } := by
  cases h <;> rfl

theorem setX_x_of_ne (s : State) {i r : XReg} (v : Nat) (h : r ≠ i) : (s.setX i v).x[r.val] = s.x[r.val] := by
  rw [State.setX_x, Vector.getElem_set_ne]
  exact fun hv => h (Fin.ext hv.symm)

theorem setPt_pt_of_ne (s : State) {i r : PReg} (v : Point) (h : r ≠ i) : (s.setPt i v).pt[r.val] = s.pt[r.val] := by
  rw [State.setPt_pt, Vector.getElem_set_ne]
  exact fun hv => h (Fin.ext hv.symm)

theorem Writes.x_of_not_dest {s u : State} {i : Instr} (h : Writes s i u) {r : XReg} (hr : r ∉ xDests i) :
    u.x[r.val] = s.x[r.val] := by
  cases h with
  | pget x y | esign x y =>
    simp only [xDests, List.mem_cons, List.not_mem_nil, or_false, not_or] at hr
    rw [setX_x_of_ne _ _ hr.2, setX_x_of_ne _ _ hr.1]
  | fred v | fadd v | fsub v | fmul v | fdiv v | finv v | fpow v =>
    exact setX_x_of_ne s v (mt List.mem_singleton.2 hr)
  | _ => rfl

theorem Writes.pt_of_not_dest {s u : State} {i : Instr} (h : Writes s i u) {r : PReg} (hr : r ∉ ptDests i) :
    u.pt[r.val] = s.pt[r.val] := by
  cases h with
  | pset | pinf | pgen | padd | pdbl | pmul | keygen => exact setPt_pt_of_ne s _ (mt List.mem_singleton.2 hr)
  | _ => rfl

theorem Writes.output_of_no_encoder {s u : State} {i : Instr} (h : Writes s i u) (hd : ∀ xr xs, i ≠ .derenc xr xs)
    (hs : ∀ c pp, i ≠ .secenc c pp) : u.obuf = s.obuf ∧ u.olen = s.olen ∧ u.status.oinf = s.status.oinf := by
  cases h with
  | derenc => exact absurd rfl (hd _ _)
  | secenc | secencInf => exact absurd rfl (hs _ _)
  | _ => exact ⟨rfl, rfl, rfl⟩

theorem Writes.eq_of_no_comparison {s u : State} {i : Instr} (h : Writes s i u) (hf : ∀ ms xa xb, i ≠ .feq ms xa xb)
    (hp : ∀ pa pb, i ≠ .peq pa pb) : u.status.eq = s.status.eq := by
  cases h with
  | feq => exact absurd rfl (hf _ _ _)
  | peq => exact absurd rfl (hp _ _)
  | _ => rfl

theorem Writes.vok_of_no_everify {s u : State} {i : Instr} (h : Writes s i u)
    (hv : ∀ xz xr xs pq, i ≠ .everify xz xr xs pq) : u.status.vok = s.status.vok := by
  cases h with
  | everify => exact absurd rfl (hv _ _ _ _)
  | _ => rfl

/-- Only ESIGN draws nonces (R52, R221). -/
theorem exec_drawn {i : Instr} {s t : State} (h : exec i s = .next t)
    (hi : ∀ xr xs xz xd xk, i ≠ .esign xr xs xz xd xk) : t.drawn = s.drawn := by
  have completed : ∀ r : Except ErrCode State, exec i s = complete s r → Yields r (fun u => u.drawn = s.drawn) →
      t.drawn = s.drawn := fun r he hr =>
    complete_yields (Q := fun t => t.drawn = s.drawn) (he ▸ h) hr fun _ => rfl
  cases i with
  | esign => exact absurd rfl (hi _ _ _ _ _)
  | pinf | derenc =>
    cases h
    rfl
  | fred | pgen => exact completed _ rfl (yields_bind fun _ => yields_ok rfl)
  | peq | pdbl | pmul => exact completed _ rfl (yields_bind fun _ => yields_bind fun _ => yields_ok rfl)
  | finv | feq | padd =>
    exact completed _ rfl (yields_bind fun _ => yields_bind fun _ => yields_bind fun _ => yields_ok rfl)
  | fadd | fsub | fmul | fdiv | fpow | keygen | everify =>
    exact completed _ rfl
      (yields_bind fun _ => yields_bind fun _ => yields_bind fun _ => yields_bind fun _ => yields_ok rfl)
  | pset =>
    refine completed _ rfl (yields_bind fun _ => yields_bind fun _ => yields_bind fun _ => ?_)
    split
    · exact yields_ok rfl
    · exact yields_error
  | pget =>
    refine completed _ rfl (yields_bind fun v => ?_)
    cases v with
    | inf => exact yields_error
    | aff x y => exact yields_ok rfl
  | secenc =>
    refine completed _ rfl (yields_bind fun v => ?_)
    cases v with
    | inf => exact yields_ok rfl
    | aff x y => exact yields_ok rfl

end Sys2Proof.Machine

namespace Sys2Proof.Proofs

open Sys2Proof.Machine Sys2Proof.Claims

/-- Settles O10: an error writes none of these registers, and a success writes what `Writes` lists. -/
theorem commandsWriteOnlyTheirDestinations : Obligations.CommandsWriteOnlyTheirDestinations := by
  intro i s t h
  have hdrawn := exec_drawn h
  obtain ⟨d, -, ⟨c, he⟩ | ⟨u, hw, he⟩⟩ := exec_cases i s <;> cases he.symm.trans h
  · refine ⟨rfl, rfl, rfl, rfl, rfl, rfl, rfl, rfl, rfl, rfl, rfl, rfl, rfl, fun _ _ => rfl, fun _ _ => rfl,
      fun _ _ => ⟨rfl, rfl, rfl⟩, fun _ _ => rfl, fun _ => rfl, hdrawn⟩
  · have hf := hw.frame
    refine ⟨?_, ?_, ?_, ?_, ?_, ?_, ?_, ?_, ?_, ?_, ?_, ?_, ?_, fun r => hw.x_of_not_dest, fun r => hw.pt_of_not_dest,
      hw.output_of_no_encoder, hw.eq_of_no_comparison, hw.vok_of_no_everify, hdrawn⟩ <;> rw [hf] <;> rfl

end Sys2Proof.Proofs
end

section
/-! The points of the current curve: every operand a command reads, the generator, and every answer of the group law
and of the scalar multiplier belong to it, for prime and composite CURVE_P (spec/41_point.md R178, R180). -/

namespace Sys2Proof.Machine

/-! ### From exact integers to Z/CURVE_P -/

theorem CurveLegal.pos {s : State} (h : CurveLegal s) : 0 < s.curveP.toNat := Nat.zero_lt_of_lt h.1

theorem curveEquation_iff_zmod {s : State} {x y : Nat} :
    CurveEquation s x y ↔ (y : ZMod s.curveP.toNat) ^ 2 =
      (x : ZMod s.curveP.toNat) ^ 3 + (s.curveA.toNat : ZMod s.curveP.toNat) * x + s.curveB.toNat := by
  rw [CurveEquation, ← CharP.intCast_eq_zero_iff (ZMod s.curveP.toNat)]
  push_cast
  exact sub_eq_zero

theorem imod_zmod (v : Int) {m : Nat} (hm : 0 < m) : (imod v m : ZMod m) = v := by
  exact_mod_cast (ZMod.intCast_eq_intCast_iff _ _ _).2 (imod_modEq v hm)

theorem modInv_zmod {a m v : Nat} (hm : 2 < m) (h : modInv a m = .ok v) : (a : ZMod m) * v = 1 := by
  obtain ⟨-, -, hav⟩ := (modInv_ok_iff hm).1 h
  exact_mod_cast (ZMod.natCast_mod (a * v) m).symm.trans (congrArg Nat.cast hav)

/-! ### Point values on the curve -/

/-- A point value that belongs to the current curve: what `PointReg.OnCurrentCurve` says, of exact coordinates. -/
def Point.OnCurve (s : State) : Point → Prop
  | .inf => True
  | .aff x y => CurveLegal s ∧ x < s.curveP.toNat ∧ y < s.curveP.toNat ∧ CurveEquation s x y

theorem toReg_onCurrentCurve {s : State} {v : Point} (h : v.OnCurve s) : v.toReg.OnCurrentCurve s := by
  cases v with
  | inf => trivial
  | aff x y =>
    obtain ⟨hl, hx, hy, he⟩ := h
    have hp := s.curveP.isLt
    simpa only [Point.toReg, PointReg.OnCurrentCurve, ofNat_toNat_of_lt (hx.trans hp), ofNat_toNat_of_lt (hy.trans hp)]
      using ⟨hl, hx, hy, he⟩

theorem readPt_onCurve {s : State} (hs : PointsOnCurve s) (i : PReg) : Yields (readPt s i) (Point.OnCurve s) := by
  intro v h
  have hi := hs i
  obtain ⟨-, rfl⟩ | ⟨x, y, hr, rfl⟩ := readPt_ok_iff.1 h
  · trivial
  · rwa [hr] at hi

theorem genOK_onCurve (s : State) : Yields (genOK s) (Point.OnCurve s) := by
  intro g h
  obtain ⟨hl, hx, hy, he, rfl⟩ := genOK_ok_iff.1 h
  exact ⟨hl, hx, hy, he⟩

theorem thirdPoint_onCurve {s : State} {lam x1 y1 x2 : Nat} (hl : CurveLegal s) (h1 : CurveEquation s x1 y1)
    (hroot : (x2 : ZMod s.curveP.toNat) ^ 2 + x1 * x2 + x1 ^ 2 + s.curveA.toNat =
      (lam : ZMod s.curveP.toNat) ^ 2 * (x2 - x1) + 2 * lam * y1) :
    (thirdPoint s.curveP.toNat lam x1 y1 x2).OnCurve s := by
  have hp := hl.pos
  refine ⟨hl, imod_lt _ hp, imod_lt _ hp, curveEquation_iff_zmod.2 ?_⟩
  refine third_point_equation (curveEquation_iff_zmod.1 h1) hroot ?_ ?_
  · rw [imod_zmod _ hp]
    push_cast
    rfl
  · rw [imod_zmod _ hp]
    push_cast
    rfl

theorem pointDouble_onCurve {s : State} {v r : Point} (hv : v.OnCurve s)
    (h : pointDouble s.curveP.toNat s.curveA.toNat v = .ok r) : r.OnCurve s := by
  obtain ⟨-, rfl⟩ | ⟨x, -, rfl⟩ | ⟨x, y, inv, rfl, -, hinv, rfl⟩ := pointDouble_cases h
  · trivial
  · trivial
  · obtain ⟨hl, -, -, he⟩ := hv
    have hu := modInv_zmod hl.1 hinv
    refine thirdPoint_onCurve hl he ?_
    push_cast [ZMod.natCast_mod] at hu ⊢
    exact tangent_root hu

theorem pointAdd_onCurve {s : State} (v1 v2 r : Point) (h1 : v1.OnCurve s) (h2 : v2.OnCurve s)
    (h : pointAdd s.curveP.toNat s.curveA.toNat v1 v2 = .ok r) : r.OnCurve s := by
  obtain ⟨-, rfl⟩ | ⟨-, rfl⟩ | ⟨-, hd⟩ | ⟨_, _, _, -, -, -, rfl⟩ |
    ⟨x1, y1, x2, y2, inv, rfl, rfl, -, hinv, rfl⟩ := pointAdd_cases h
  · exact h2
  · exact h1
  · exact pointDouble_onCurve h1 hd
  · trivial
  · obtain ⟨hl, -, -, he1⟩ := h1
    obtain ⟨-, -, -, he2⟩ := h2
    have hp := hl.pos
    have hu := modInv_zmod hl.1 hinv
    refine thirdPoint_onCurve hl he1 ?_
    rw [imod_zmod _ hp] at hu
    push_cast [ZMod.natCast_mod, imod_zmod _ hp] at hu ⊢
    exact chord_root hu (curveEquation_iff_zmod.1 he1) (curveEquation_iff_zmod.1 he2)

theorem scalarMul_onCurve {s : State} {k : Nat} {v : Point} (hv : v.OnCurve s) :
    Yields (scalarMul s k v) (Point.OnCurve s) :=
  fun _ => scalarMul_induction (s := s) trivial pointAdd_onCurve hv

/-! ### Point registers -/

/-- Which curve a register value belongs to depends on CURVE_P, CURVE_A and CURVE_B alone. -/
theorem onCurrentCurve_congr {s t : State} (hp : t.curveP = s.curveP) (ha : t.curveA = s.curveA)
    (hb : t.curveB = s.curveB) (r : PointReg) : r.OnCurrentCurve t ↔ r.OnCurrentCurve s := by
  cases r <;> simp only [PointReg.OnCurrentCurve, CurveLegal, CurveEquation, hp, ha, hb]

theorem PointsOnCurve.congr {s t : State} (hpt : t.pt = s.pt) (hp : t.curveP = s.curveP) (ha : t.curveA = s.curveA)
    (hb : t.curveB = s.curveB) (hs : PointsOnCurve s) : PointsOnCurve t := by
  intro i
  rw [onCurrentCurve_congr hp ha hb, hpt]
  exact hs i

theorem PointsOnCurve.finish_setPt {s : State} (hs : PointsOnCurve s) (i : PReg) {v : Point} (hv : v.OnCurve s) :
    PointsOnCurve (s.setPt i v).finish := by
  intro j
  rw [onCurrentCurve_congr (s := s) (t := (s.setPt i v).finish) rfl rfl rfl, State.finish_pt, State.setPt_pt,
    Vector.getElem_set]
  split
  · exact toReg_onCurrentCurve hv
  · exact hs j

/-- After a curve write no register is AFF, so every register belongs to whatever curve there is now (R43). -/
theorem pointsOnCurve_invalidatePoints (s : State) : PointsOnCurve s.invalidatePoints := by
  intro i
  rw [State.invalidatePoints_pt, Vector.getElem_ofFn]
  cases s.pt[(⟨i.val, i.isLt⟩ : Fin 8)] <;> trivial

theorem HostEffect.pointsOnCurve {s t : State} (h : HostEffect s t) (hs : PointsOnCurve s) : PointsOnCurve t := by
  cases h with
  | curve | nvalid => exact pointsOnCurve_invalidatePoints _
  | reset =>
    intro i
    simp [State.reset, PointReg.OnCurrentCurve]
  | _ => exact hs.congr rfl rfl rfl rfl

/-- A command with no point destination leaves points and curve alone (O10). -/
theorem exec_pointsOnCurve_of_no_ptDest {i : Instr} {s t : State} (hi : Claims.ptDests i = [])
    (h : exec i s = .next t) (hs : PointsOnCurve s) : PointsOnCurve t := by
  obtain ⟨hp, ha, hb, -, -, -, -, -, -, -, -, -, -, -, hpt, -⟩ :=
    Proofs.commandsWriteOnlyTheirDestinations i s t h
  refine hs.congr (Vector.ext fun j hj => ?_) hp ha hb
  exact hpt ⟨j, hj⟩ (by simp [hi])

/-- Every command keeps the points on the curve: those that write a point register write a point of the curve. -/
theorem exec_pointsOnCurve {i : Instr} {s t : State} (h : exec i s = .next t) (hs : PointsOnCurve s) :
    PointsOnCurve t := by
  have completed : ∀ r : Except ErrCode State, complete s r = .next t →
      Yields r (fun u => PointsOnCurve u.finish) → PointsOnCurve t :=
    fun r he hr => complete_yields he hr fun _ => hs.congr rfl rfl rfl rfl
  have write : ∀ (pd : PReg) (v : Point), v.OnCurve s →
      Yields (.ok (s.setPt pd v)) (fun u => PointsOnCurve u.finish) :=
    fun pd v hv => yields_ok (hs.finish_setPt pd hv)
  cases i with
  | pset pd xx xy =>
    refine completed _ h (Yields.bind (fun _ => curveOK_ok_iff.1) fun _ hl => Yields.bind (fun _ => elem_ok_iff.1)
      fun x hx => Yields.bind (fun _ => elem_ok_iff.1) fun y hy => ?_)
    split
    · rename_i hc
      exact write pd (.aff x y) ⟨hl, hx.2 ▸ hx.1, hy.2 ▸ hy.1, (onCurve_iff hl.pos).1 hc⟩
    · exact yields_error
  | pinf pd => exact completed (.ok _) h (write pd .inf trivial)
  | pgen pd => exact completed _ h ((genOK_onCurve s).bind (write pd))
  | padd pd pa pb =>
    exact completed _ h ((readPt_onCurve hs pa).bind fun v1 h1 => (readPt_onCurve hs pb).bind fun v2 h2 =>
      Yields.bind (pointAdd_onCurve v1 v2 · h1 h2) (write pd))
  | pdbl pd pa =>
    exact completed _ h ((readPt_onCurve hs pa).bind fun v1 h1 =>
      Yields.bind (fun _ => pointDouble_onCurve h1) (write pd))
  | pmul pd pa xk =>
    exact completed _ h ((readPt_onCurve hs pa).bind fun v1 h1 => (scalarMul_onCurve h1).bind (write pd))
  | keygen pd xs =>
    exact completed _ h (yields_bind fun n => (genOK_onCurve s).bind fun g hg => yields_bind fun _ =>
      (scalarMul_onCurve hg).bind (write pd))
  | _ => exact exec_pointsOnCurve_of_no_ptDest rfl h hs

end Sys2Proof.Machine

namespace Sys2Proof.Proofs

open Sys2Proof.Machine Sys2Proof.Claims

/-- Settles O13: host writes that change the curve empty the points, and every point a command writes is on it. -/
theorem everyStepKeepsPointsOnTheCurve : Obligations.EveryStepKeepsPointsOnTheCurve := by
  intro s t hs h
  exact step_keeps (fun _ _ hs => hs.congr rfl rfl rfl rfl) (fun _ _ => HostEffect.pointsOnCurve)
    (fun _ _ hs => hs.congr rfl rfl rfl rfl) (fun _ _ _ => exec_pointsOnCurve) h hs

end Sys2Proof.Proofs
end

section
/-! The error latch and the output buffer, kept by every step (spec/10_state.md R36, R37, R49, spec/44_serialize.md
R252, R255, spec/60_exceptions.md R272, R275). -/

namespace Sys2Proof.Machine

open Sys2Proof.Claims

/-! ### The error latch -/

/-- The write-1-to-clear rule, flag by flag (R37). -/
theorem Status.clear_eq (st : Status) (v : BusWord) :
    st.clear v = { st with
      done := st.done && !v.getLsbD 1
      err := st.err && !v.getLsbD 2
      errcode := if v.getLsbD 2 then none else st.errcode
      drop := st.drop && !v.getLsbD 6
      buserr := st.buserr && !v.getLsbD 7 } := by
  unfold Status.clear Status.clearErr
  cases v.getLsbD 1 <;> cases v.getLsbD 2 <;> cases v.getLsbD 6 <;> cases v.getLsbD 7 <;> simp

theorem busyFlags_of_idle {s : State} (h : s.engine = .idle) : BusyFlags s := by
  simp [BusyFlags, busy_eq_false_iff.2 h]

theorem HostEffect.errorLatch {s t : State} (h : HostEffect s t) (hs : ErrorLatch s) : ErrorLatch t := by
  cases h with
  | reset => rfl
  | cleared v =>
    unfold ErrorLatch at hs ⊢
    rw [Status.clear_eq, hs]
    cases v.getLsbD 2 <;> simp
  | curve r v => cases r <;> exact hs
  | _ => exact hs

theorem HostEffect.busyFlags {s t : State} (h : HostEffect s t) (hs : BusyFlags s) : BusyFlags t := by
  cases h with
  | reset => exact busyFlags_of_idle rfl
  | cleared v =>
    intro hb
    obtain ⟨herr, hdone⟩ := hs hb
    simp [Status.clear_eq, herr, hdone]
  | accepted w _ herr => exact fun _ => ⟨herr, rfl⟩
  | curve r v hidle => exact busyFlags_of_idle (by simpa using hidle)
  | _ => exact hs

/-- A command ends with the engine IDLE, and sets ERR and ERRCODE together or keeps both (R274, R275). -/
theorem exec_errorLatch {i : Instr} {s t : State} (h : exec i s = .next t) (hs : ErrorLatch s) :
    ErrorLatch t ∧ BusyFlags t := by
  obtain ⟨d, -, ⟨c, he⟩ | ⟨u, hw, he⟩⟩ := exec_cases i s <;> cases he.symm.trans h
  · exact ⟨rfl, busyFlags_of_idle rfl⟩
  · refine ⟨?_, busyFlags_of_idle rfl⟩
    rw [hw.frame]
    exact hs

/-! ### The output buffer -/

theorem OutputForm.congr {s t : State} (hb : t.obuf = s.obuf) (hl : t.olen = s.olen)
    (ho : t.status.oinf = s.status.oinf) (hs : OutputForm s) : OutputForm t := by
  unfold OutputForm
  rwa [hb, hl, ho]

/-- A string of at most 72 bytes in the buffer, with OINF set only beside the empty string (R49, R255). -/
theorem outputForm_setOutput (s : State) {out : List Byte} {b : Bool} (hlen : out.length ≤ 72)
    (hinf : b = true → out = []) : OutputForm ((s.setOutput out).setOINF b).finish := by
  have holen : (BitVec.ofNat 7 out.length).toNat = out.length := by
    rw [BitVec.toNat_ofNat, Nat.mod_eq_of_lt (by omega)]
  refine ⟨?_, fun j hj => ?_, fun hb => ?_⟩
  · exact holen.trans_le hlen
  · have hj : out.length ≤ j.val := holen ▸ hj
    exact (fillObuf_getElem out j.val j.isLt).trans (List.getD_eq_default _ _ hj)
  · obtain rfl := hinf hb
    rfl

theorem HostEffect.outputForm {s t : State} (h : HostEffect s t) (hs : OutputForm s) : OutputForm t := by
  cases h with
  | reset =>
    refine ⟨Nat.zero_le _, fun j _ => ?_, fun _ => rfl⟩
    simp [State.reset]
  | cleared v => exact hs.congr (s := s) rfl rfl (by rw [Status.clear_eq])
  | curve r v => exact hs.congr (by simp) (by simp) (by simp)
  | _ => exact hs.congr rfl rfl rfl

/-- DERENC and SECENC write strings of at most 72 bytes; no other command touches the buffer (R252, R254 to R256). -/
theorem exec_outputForm {i : Instr} {s t : State} (h : exec i s = .next t) (hs : OutputForm s) : OutputForm t := by
  by_cases hd : ∃ xr xs, i = .derenc xr xs
  · obtain ⟨xr, xs, rfl⟩ := hd
    cases h
    exact outputForm_setOutput s (derSignature_length _ _).2 (by simp)
  by_cases he : ∃ c pp, i = .secenc c pp
  · obtain ⟨c, pp, rfl⟩ := he
    refine complete_yields h (yields_bind fun v => ?_) fun _ => hs.congr rfl rfl rfl
    cases v with
    | inf => exact yields_ok (outputForm_setOutput s (by simp) fun _ => rfl)
    | aff x y =>
      refine yields_ok (outputForm_setOutput s ?_ (by simp))
      rw [secPoint_length]
      split <;> omega
  · obtain ⟨-, -, -, -, -, -, -, -, -, -, -, -, -, -, -, hout, -⟩ :=
      Proofs.commandsWriteOnlyTheirDestinations i s t h
    obtain ⟨hb, hl, ho⟩ := hout (fun xr xs hi => hd ⟨xr, xs, hi⟩) (fun c pp hi => he ⟨c, pp, hi⟩)
    exact hs.congr hb hl ho

end Sys2Proof.Machine

namespace Sys2Proof.Proofs

open Sys2Proof.Machine Sys2Proof.Claims

/-- Settles O14: the two invariants together are kept by every host effect, error entry and command. -/
theorem everyStepKeepsTheErrorLatch : Obligations.EveryStepKeepsTheErrorLatch := by
  intro s t he hb h
  exact step_keeps (I := fun s => ErrorLatch s ∧ BusyFlags s) (fun _ _ hs => hs)
    (fun _ _ ht hs => ⟨ht.errorLatch hs.1, ht.busyFlags hs.2⟩) (fun _ _ _ => ⟨rfl, busyFlags_of_idle rfl⟩)
    (fun _ _ _ hx hs => exec_errorLatch hx hs.1) h ⟨he, hb⟩

/-- Settles O15: only a reset, DERENC and SECENC write the buffer, and each leaves it in form. -/
theorem everyStepKeepsTheOutputForm : Obligations.EveryStepKeepsTheOutputForm := by
  intro s t hs h
  exact step_keeps (fun _ _ hs => hs.congr rfl rfl rfl) (fun _ _ => HostEffect.outputForm)
    (fun _ _ hs => hs.congr rfl rfl rfl) (fun _ _ _ => exec_outputForm) h hs

end Sys2Proof.Proofs
end

section
/-! The register window: the map from words to offsets and back, what a read of each word returns, and what a write
to one does (spec/10_state.md R34, R37, R43, R48, R54, spec/20_memory.md R84). -/

namespace Sys2Proof.Machine

open Sys2Proof.Claims

/-! ### The map -/

/-- The offset of a mapped word as a number (R54). -/
def Loc.offsetNat : Loc → Nat
  | .id => 0x000
  | .cfg => 0x004
  | .ctrl => 0x008
  | .status => 0x00C
  | .cmd => 0x010
  | .errcmd => 0x014
  | .olen => 0x018
  | .obuf k => 0x100 + 4 * k.val
  | .curve r j => 0x200 + 0x20 * r.index + 4 * j.val
  | .nvalid => 0x2C0
  | .modulus j => 0x2E0 + 4 * j.val
  | .x i j => 0x400 + 0x20 * i.val + 4 * j.val
  | .ptTag i => 0x800 + 0x80 * i.val
  | .ptX i j => 0x800 + 0x80 * i.val + 0x20 + 4 * j.val
  | .ptY i j => 0x800 + 0x80 * i.val + 0x40 + 4 * j.val

theorem CurveReg.index_lt (r : CurveReg) : r.index < 6 := by cases r <;> decide

theorem CurveReg.ofIndex_index (r : CurveReg) : CurveReg.ofIndex r.index = r := by cases r <;> rfl

theorem CurveReg.index_ofIndex {k : Nat} (h : k < 6) : (CurveReg.ofIndex k).index = k := by
  interval_cases k <;> rfl

theorem Loc.offset_toNat (l : Loc) : l.offset.toNat = l.offsetNat := by
  cases l with
  | curve r j =>
    have := r.index_lt
    simp only [Loc.offset, Loc.offsetNat, BitVec.toNat_ofNat]
    omega
  | obuf | modulus | x | ptTag | ptX | ptY =>
    simp only [Loc.offset, Loc.offsetNat, BitVec.toNat_ofNat]
    omega
  | _ => rfl

theorem Loc.offset_aligned (l : Loc) : l.offset.toNat % 4 = 0 := by
  rw [Loc.offset_toNat]
  cases l <;> simp only [Loc.offsetNat] <;> omega

@[simp] theorem limbAt_val (off : Nat) : (limbAt off).val = off % 0x20 / 4 := by
  rw [limbAt, Fin.val_ofNat]
  omega

theorem limbAt_eq {off : Nat} {j : Fin 8} (h : off % 0x20 = 4 * j.val) : limbAt off = j := by
  apply Fin.ext
  rw [limbAt_val]
  omega

theorem finOfNat_eq {n k : Nat} [NeZero n] {i : Fin n} (h : k = i.val) : Fin.ofNat n k = i :=
  h ▸ Fin.ofNat_val_eq_self i

/-- Each mapped word is found at its offset (R54). -/
theorem locate_offset (l : Loc) : locate l.offset = some l := by
  have h := l.offset_toNat
  generalize l.offset = off at h
  unfold locate
  cases l <;> simp only [Loc.offsetNat] at h
  case obuf k =>
    simp (disch := omega) only [if_neg, if_pos]
    rw [finOfNat_eq (i := k) (by omega)]
  case curve r j =>
    have := r.index_lt
    simp (disch := omega) only [if_neg, if_pos]
    rw [limbAt_eq (j := j) (by omega), show (off.toNat - 0x200) / 0x20 = r.index by omega, r.ofIndex_index]
  case modulus j =>
    simp (disch := omega) only [if_neg, if_pos]
    rw [limbAt_eq (j := j) (by omega)]
  case x i j =>
    simp (disch := omega) only [if_neg, if_pos]
    rw [limbAt_eq (j := j) (by omega), finOfNat_eq (i := i) (by omega)]
  case ptTag i =>
    simp (disch := omega) only [locatePt, if_neg, if_pos]
    rw [finOfNat_eq (i := i) (by omega)]
  case ptX i j | ptY i j =>
    simp (disch := omega) only [locatePt, if_neg, if_pos]
    rw [limbAt_eq (j := j) (by omega), finOfNat_eq (i := i) (by omega)]
  all_goals simp only [h]; rfl

/-- A word found at an aligned place of a point register's block stands there (R46). -/
theorem offsetNat_of_locatePt {i : Fin 8} {o : Nat} {l : Loc} (ho : o % 4 = 0) (h : locatePt i o = some l) :
    l.offsetNat = 0x800 + 0x80 * i.val + o := by
  unfold locatePt at h
  split_ifs at h <;> cases h <;> simp only [Loc.offsetNat, limbAt_val] <;> omega

/-- A word found at an aligned offset stands there (R54). -/
theorem offset_of_locate {off : Offset} {l : Loc} (ha : off.toNat % 4 = 0) (h : locate off = some l) :
    l.offset = off := by
  apply BitVec.eq_of_toNat_eq
  rw [Loc.offset_toNat]
  unfold locate at h
  -- the seven control words from 0x000 to 0x018, each at one offset
  iterate 7
    obtain ⟨ho, ⟨⟩⟩ | ⟨-, h⟩ := ite_eq_iff.1 h
    · exact ho.symm
  obtain ⟨ho, ⟨⟩⟩ | ⟨-, h⟩ := ite_eq_iff.1 h
  · simp only [Loc.offsetNat, Fin.val_ofNat]
    omega
  obtain ⟨ho, ⟨⟩⟩ | ⟨-, h⟩ := ite_eq_iff.1 h
  · rw [Loc.offsetNat, CurveReg.index_ofIndex (by omega), limbAt_val]
    omega
  obtain ⟨ho, ⟨⟩⟩ | ⟨-, h⟩ := ite_eq_iff.1 h
  · exact ho.symm
  obtain ⟨ho, ⟨⟩⟩ | ⟨-, h⟩ := ite_eq_iff.1 h
  · simp only [Loc.offsetNat, limbAt_val]
    omega
  obtain ⟨ho, ⟨⟩⟩ | ⟨-, h⟩ := ite_eq_iff.1 h
  · simp only [Loc.offsetNat, limbAt_val, Fin.val_ofNat]
    omega
  obtain ⟨ho, h⟩ | ⟨-, ⟨⟩⟩ := ite_eq_iff.1 h
  rw [offsetNat_of_locatePt (by omega) h, Fin.val_ofNat]
  omega

end Sys2Proof.Machine
end

section
/-! What a read of each mapped word returns, as a number (spec/10_state.md R32 to R39, R46, R48, R49). -/

namespace Sys2Proof.Machine

open Sys2Proof.Claims

/-- A word of two fields: the lower one below bit k, the upper one from bit k on. -/
theorem toNat_or_shiftLeft {lo hi : BusWord} {k : Nat} (hlo : lo.toNat < 2 ^ k) (hhi : hi.toNat * 2 ^ k < 2 ^ 32) :
    (lo ||| hi <<< k).toNat = lo.toNat + 2 ^ k * hi.toNat := by
  rw [BitVec.toNat_or, BitVec.toNat_shiftLeft, Nat.shiftLeft_eq, Nat.mod_eq_of_lt hhi, ← Nat.shiftLeft_eq,
    Nat.lor_comm, ← Nat.shiftLeft_add_eq_or_of_lt hlo, Nat.shiftLeft_eq]
  ring

theorem setWidth_ofBool_toNat (b : Bool) : ((BitVec.ofBool b).setWidth 32).toNat = bit b := by cases b <;> rfl

theorem bit_le (b : Bool) : bit b ≤ 1 := by cases b <;> decide

theorem bitAt_zero_toNat (b : Bool) : (bitAt b 0).toNat = bit b := by cases b <;> rfl

/-- A flag put at bit k of a word below 2^k. -/
theorem toNat_or_bitAt {w : BusWord} {n k : Nat} (b : Bool) (hk : k < 32) (hw : w.toNat = n) (hn : n < 2 ^ k) :
    (w ||| bitAt b k).toNat = n + 2 ^ k * bit b ∧ n + 2 ^ k * bit b < 2 ^ (k + 1) := by
  have hb := Nat.mul_le_mul_left (2 ^ k) (bit_le b)
  have hk32 : 2 ^ k < 2 ^ 32 := Nat.pow_lt_pow_right (by decide) hk
  constructor
  · rw [bitAt, toNat_or_shiftLeft (hw ▸ hn) (by rw [setWidth_ofBool_toNat, mul_comm]; omega), hw,
      setWidth_ofBool_toNat]
  · rw [pow_succ]
    omega

theorem errByte_toNat (st : Status) : st.errByte.toNat = codeValue st.errcode := by
  unfold Status.errByte
  rcases st.errcode with _ | c
  · rfl
  · cases c <;> rfl

theorem statusWord_toNat (s : State) :
    s.statusWord.toNat = bit s.busy + 2 * bit s.status.done + 4 * bit s.status.err + 8 * bit s.status.eq +
      16 * bit s.status.vok + 32 * bit s.status.oinf + 64 * bit s.status.drop + 128 * bit s.status.buserr +
      256 * codeValue s.status.errcode := by
  have hbusy := bit_le s.busy
  obtain ⟨h1, b1⟩ := toNat_or_bitAt (k := 1) s.status.done (by decide) (bitAt_zero_toNat s.busy) (by omega)
  obtain ⟨h2, b2⟩ := toNat_or_bitAt s.status.err (by decide) h1 b1
  obtain ⟨h3, b3⟩ := toNat_or_bitAt s.status.eq (by decide) h2 b2
  obtain ⟨h4, b4⟩ := toNat_or_bitAt s.status.vok (by decide) h3 b3
  obtain ⟨h5, b5⟩ := toNat_or_bitAt s.status.oinf (by decide) h4 b4
  obtain ⟨h6, b6⟩ := toNat_or_bitAt s.status.drop (by decide) h5 b5
  obtain ⟨h7, b7⟩ := toNat_or_bitAt s.status.buserr (by decide) h6 b6
  have hcode : (s.status.errByte.setWidth 32).toNat = codeValue s.status.errcode := by
    rw [BitVec.toNat_setWidth, Nat.mod_eq_of_lt (by omega), errByte_toNat]
  have hlt := s.status.errByte.isLt
  rw [errByte_toNat] at hlt
  rw [State.statusWord, toNat_or_shiftLeft (h7 ▸ b7) (by omega), h7, hcode]
  norm_num

theorem ctrlWord_toNat (c : Ctrl) : c.word.toNat = bit c.ie + 2 * bit c.nsrc := by
  have := bit_le c.ie
  exact (toNat_or_bitAt (k := 1) c.nsrc (by decide) (bitAt_zero_toNat c.ie) (by omega)).1

theorem getLimb_toNat (v : Word) (j : Fin 8) : (getLimb v j).toNat = limb v.toNat j.val := by
  rw [getLimb, BitVec.extractLsb'_toNat, Nat.shiftRight_eq_div_pow, limb]

theorem append_toNat {m n : Nat} (hi : BitVec m) (lo : BitVec n) : (hi ++ lo).toNat = lo.toNat + 2 ^ n * hi.toNat := by
  rw [BitVec.toNat_append, ← Nat.shiftLeft_add_eq_or_of_lt lo.isLt, Nat.shiftLeft_eq]
  ring

theorem obufWord_toNat (b : Vector Byte 72) (k : Fin 18) :
    (obufWord b k).toNat = b[4 * k.val].toNat + 2 ^ 8 * b[4 * k.val + 1].toNat + 2 ^ 16 * b[4 * k.val + 2].toNat +
      2 ^ 24 * b[4 * k.val + 3].toNat := by
  simp only [obufWord, append_toNat]
  ring

/-- A read of a mapped word returns the register map's value (R54). -/
theorem readLoc_toNat (s : State) (l : Loc) : (readLoc s l).toNat = readValue s l := by
  cases l with
  | ctrl => exact ctrlWord_toNat s.ctrl
  | status =>
    rw [readLoc, statusWord_toNat, State.busy, readValue]
    cases s.engine <;> rfl
  | olen =>
    rw [readLoc, BitVec.toNat_setWidth, Nat.mod_eq_of_lt (by omega), readValue]
  | obuf k => exact obufWord_toNat s.obuf k
  | curve r j => cases r <;> exact getLimb_toNat _ j
  | nvalid => exact bitAt_zero_toNat s.nvalid
  | modulus j | x i j => exact getLimb_toNat _ j
  | ptTag i =>
    simp only [readLoc, readValue]
    cases s.pt[i.val] <;> rfl
  | ptX i j =>
    simp only [readLoc, readValue, getLimb_toNat]
    cases s.pt[i.val] <;> simp [PointReg.xWord, limb]
  | ptY i j =>
    simp only [readLoc, readValue, getLimb_toNat]
    cases s.pt[i.val] <;> simp [PointReg.yWord, limb]
  | _ => rfl

/-- A limb of a register after a write of v to limb j (R48). -/
theorem limb_setLimb (w : Word) (j k : Fin 8) (v : BusWord) :
    limb (setLimb w j v).toNat k.val = if k = j then v.toNat else limb w.toNat k.val := by
  rw [← getLimb_toNat, getLimb_setLimb, ← getLimb_toNat]
  simp only [eq_comm (a := j)]
  split <;> rfl

/-! ### Accesses to mapped words -/

theorem unlessBusy_turns_idle {s : State} {rest : List Turn} (t : State) (h : s.engine = .idle) :
    State.unlessBusy { s with turns := rest } t = t :=
  unlessBusy_idle t h

theorem step_read_loc {s : State} {l : Loc} {rest : List Turn} (h : s.turns = readTurn l.offset :: rest) :
    step s = .next (State.respond { s with turns := rest } (readLoc s l)) := by
  rw [step_read h l.offset_aligned (locate_offset l), readLoc_turns]

theorem step_write_loc {s : State} {l : Loc} {v : BusWord} {rest : List Turn}
    (h : s.turns = writeTurn l.offset v :: rest) : step s = .next (writeLoc { s with turns := rest } v l) :=
  step_write h l.offset_aligned (locate_offset l)

theorem getCurve_invalidatePoints (s : State) (r : CurveReg) : s.invalidatePoints.getCurve r = s.getCurve r := by
  cases r <;> rfl

theorem getCurve_setCurve (s : State) (r r' : CurveReg) (v : Word) :
    (s.setCurve r v).getCurve r' = if r' = r then v else s.getCurve r' := by
  cases r <;> cases r' <;> rfl

theorem getCurve_turns (s : State) (rest : List Turn) (r : CurveReg) :
    State.getCurve { s with turns := rest } r = s.getCurve r := by
  cases r <;> rfl

theorem invalidatePoints_pt_getElem (s : State) (i : PReg) : s.invalidatePoints.pt[i.val] = s.pt[i.val].invalidate := by
  rw [State.invalidatePoints_pt, Vector.getElem_ofFn]
  rfl

/-- A curve write leaves everything but the curve registers and the points (R43). -/
theorem setCurve_frame (s : State) (r : CurveReg) (v : Word) :
    (s.setCurve r v).invalidatePoints = { s with
      pt := (s.setCurve r v).invalidatePoints.pt, curveP := (s.setCurve r v).curveP, curveA := (s.setCurve r v).curveA
      curveB := (s.setCurve r v).curveB, curveGX := (s.setCurve r v).curveGX, curveGY := (s.setCurve r v).curveGY
      curveN := (s.setCurve r v).curveN } := by
  cases r <;> rfl

end Sys2Proof.Machine

namespace Sys2Proof.Proofs

open Sys2Proof.Machine Sys2Proof.Claims

/-- Settles O6, from the two directions of the map. -/
theorem registerMapIsOneToOne : Obligations.RegisterMapIsOneToOne :=
  ⟨fun l => ⟨l.offset_aligned, locate_offset l⟩, fun _ _ => offset_of_locate⟩

/-- Settles O45, word by word. -/
theorem hostReadsReturnTheRegisterMap : Obligations.HostReadsReturnTheRegisterMap := by
  intro s l rest h
  rw [step_read_loc h, ← readLoc_toNat, BitVec.ofNat_toNat, BitVec.setWidth_eq]
  rfl

/-- Settles O48: the new value is the old one with limb j set. -/
theorem hostWritesReplaceOneLimb : Obligations.HostWritesReplaceOneLimb := by
  intro s j v rest hidle
  refine ⟨fun i h => ⟨setLimb s.x[i.val] j v, fun k => limb_setLimb _ j k v, ?_⟩,
    fun h => ⟨setLimb s.modulus j v, fun k => limb_setLimb _ j k v, ?_⟩⟩
  · rw [step_write_loc h, writeLoc, unlessBusy_turns_idle _ hidle]
  · rw [step_write_loc h, writeLoc, unlessBusy_turns_idle _ hidle]

/-- Settles O49: the write sets one curve register and then empties the points. -/
theorem curveWritesEmptyAffinePoints : Obligations.CurveWritesEmptyAffinePoints := by
  intro s v rest hidle
  refine ⟨fun r j h => ?_, fun h => ?_⟩
  · rw [step_write_loc h, writeLoc, unlessBusy_turns_idle _ hidle]
    refine ⟨_, rfl, State.setCurve_turns _ r _, fun i => ?_, fun r' k => ?_, setCurve_frame _ r _⟩
    · rw [invalidatePoints_pt_getElem]
      simp only [State.setCurve_pt]
      cases s.pt[i.val] <;> rfl
    · rw [getCurve_invalidatePoints, getCurve_setCurve, getCurve_turns s rest r, getCurve_turns s rest r']
      by_cases hr : r' = r
      · simp [hr, limb_setLimb]
      · simp [hr]
  · rw [step_write_loc h, writeLoc, unlessBusy_turns_idle _ hidle]
    refine ⟨_, rfl, fun i => ?_, rfl⟩
    rw [invalidatePoints_pt_getElem]
    cases s.pt[i.val] <;> rfl

/-- Settles O52, by the write-1-to-clear rule. -/
theorem statusWritesClearFlags : Obligations.StatusWritesClearFlags := by
  intro s v rest h
  rw [step_write_loc (l := .status) h, writeLoc, Status.clear_eq]

/-- Settles O53: the write is no reset and the engine is IDLE, so it is performed. -/
theorem ctrlWritesStoreIeAndNsrc : Obligations.CtrlWritesStoreIeAndNsrc := by
  intro s v rest hidle hv h
  rw [step_write_loc (l := .ctrl) h, writeLoc, State.writeCtrl, hv, if_neg Bool.false_ne_true,
    unlessBusy_turns_idle _ hidle]
  rfl

end Sys2Proof.Proofs
end

section
/-! Accesses the block refuses: unsupported ones, unmapped offsets, and writes to read-only words
(spec/20_memory.md R83, R84). -/

namespace Sys2Proof.Machine

theorem Access.supported_iff {a : Access} :
    a.supported = true ↔ a.off.toNat % 4 = 0 ∧ a.width = 32 ∧ a.lanes = 0xF#4 := by
  simp [Access.supported, and_assoc]

/-- An aligned offset is unmapped when no word stands there (R54). -/
theorem locate_eq_none_iff {off : Offset} (ha : off.toNat % 4 = 0) : locate off = none ↔ ∀ l : Loc, l.offset ≠ off := by
  constructor
  · rintro h l rfl
    rw [locate_offset] at h
    cases h
  · exact fun h => Option.eq_none_iff_forall_ne_some.2 fun l hl => h l (offset_of_locate ha hl)

/-- An access that is unsupported, or that names no mapped word, is refused. -/
theorem hostAccess_eq_badAccess (s : State) {a : Access} (h : a.supported = true → locate a.off = none) :
    hostAccess s a = s.badAccess a.op := by
  obtain hbad | ⟨l, -, hs, hl, -⟩ | ⟨l, v, -, hs, hl, -⟩ := hostAccess_cases s a
  · exact hbad
  · exact absurd hl (by simp [h hs])
  · exact absurd hl (by simp [h hs])

theorem step_badAccess {s : State} {a : Access} {rest : List Turn} (ht : s.turns = .host a :: rest)
    (h : a.supported = true → locate a.off = none) :
    step s = .next (State.badAccess { s with turns := rest } a.op) := by
  rw [step_host ht, hostAccess_eq_badAccess _ h]

/-- The words the host can read but not write (R84). -/
def Loc.ReadOnly : Loc → Prop
  | .id | .cfg | .errcmd | .olen | .obuf _ | .ptTag _ | .ptX _ _ | .ptY _ _ => True
  | .ctrl | .status | .cmd | .curve _ _ | .nvalid | .modulus _ | .x _ _ => False

/-- The read-only words are those at the offsets R84 lists. -/
theorem Loc.readOnly_iff (l : Loc) :
    l.ReadOnly ↔ l.offset = Loc.id.offset ∨ l.offset = Loc.cfg.offset ∨ l.offset = Loc.errcmd.offset ∨
      l.offset = Loc.olen.offset ∨ (0x100 ≤ l.offset.toNat ∧ l.offset.toNat < 0x148) ∨
      (0x800 ≤ l.offset.toNat ∧ l.offset.toNat < 0xC00) := by
  simp only [← BitVec.toNat_inj, Loc.offset_toNat]
  cases l with
  | curve r j =>
    have := r.index_lt
    exact iff_of_false not_false (by simp only [Loc.offsetNat]; omega)
  | ctrl | status | cmd | nvalid => exact iff_of_false not_false (by decide)
  | modulus | x => exact iff_of_false not_false (by simp only [Loc.offsetNat]; omega)
  | id | cfg | errcmd | olen => exact iff_of_true trivial (by decide)
  | obuf | ptTag | ptX | ptY => exact iff_of_true trivial (by simp only [Loc.offsetNat]; omega)

theorem writeLoc_readOnly (s : State) (v : BusWord) {l : Loc} (h : l.ReadOnly) : writeLoc s v l = s.setBusErr := by
  cases l with
  | ctrl | status | cmd | curve | nvalid | modulus | x => exact h.elim
  | _ => rfl

end Sys2Proof.Machine

namespace Sys2Proof.Proofs

open Sys2Proof.Machine Sys2Proof.Claims

/-- Settles O46: each of the three causes makes the access unsupported. -/
theorem unsupportedAccessesSetBuserr : Obligations.UnsupportedAccessesSetBuserr := by
  intro s a rest ht hbad
  have hs : a.supported = true → locate a.off = none := fun hs => by
    obtain ⟨hoff, hwidth, hlanes⟩ := Access.supported_iff.1 hs
    simp [hoff, hwidth, hlanes] at hbad
  rw [step_badAccess ht hs]
  constructor
  · intro hop
    rw [hop]
    rfl
  · intro v hop
    rw [hop]
    rfl

/-- Settles O47: an offset R84 lists holds a read-only word or none. -/
theorem unmappedAndReadOnlyAccessesSetBuserr : Obligations.UnmappedAndReadOnlyAccessesSetBuserr := by
  intro s off v rest ha
  refine ⟨fun hnone ht => step_badAccess ht fun _ => (locate_eq_none_iff ha).2 hnone, fun hoff ht => ?_⟩
  cases hl : locate off with
  | none => exact step_badAccess ht fun _ => hl
  | some l =>
    obtain rfl := offset_of_locate ha hl
    have hro : l.ReadOnly := l.readOnly_iff.2 (hoff.resolve_left fun hnone => hnone l rfl)
    rw [step_write_loc ht, writeLoc_readOnly _ v hro]
    rfl

end Sys2Proof.Proofs
end

section
/-! What the host can still do while the engine is BUSY (spec/20_memory.md R86, R87). -/

namespace Sys2Proof.Machine

/-- A write of v to the word is one R86 drops while BUSY (CURVE_NVALID: log 13). -/
def Loc.CommandInput (v : BusWord) : Loc → Prop
  | .x _ _ | .modulus _ | .curve _ _ | .nvalid | .cmd => True
  | .ctrl => v.getLsbD 2 = false
  | .id | .cfg | .status | .errcmd | .olen | .obuf _ | .ptTag _ | .ptX _ _ | .ptY _ _ => False

theorem writeLoc_busy_commandInput {s : State} {w v : BusWord} {l : Loc} (hb : s.engine = .busy w)
    (h : l.CommandInput v) : writeLoc s v l = s.setDrop := by
  cases l with
  | x | modulus | curve | nvalid => exact unlessBusy_busy _ hb
  | cmd => simp [writeLoc, State.issue, State.busy, hb]
  | ctrl =>
    rw [writeLoc, State.writeCtrl, show v.getLsbD 2 = false from h, if_neg Bool.false_ne_true, unlessBusy_busy _ hb]
  | _ => exact h.elim

/-- Every mapped word: a command input, a read-only word, STATUS, or CTRL under a write that resets. -/
theorem Loc.write_cases (l : Loc) (v : BusWord) :
    l.CommandInput v ∨ l.ReadOnly ∨ l = .status ∨ (l = .ctrl ∧ v.getLsbD 2 = true) := by
  cases l with
  | x | modulus | curve | nvalid | cmd => exact .inl trivial
  | status => exact .inr (.inr (.inl rfl))
  | ctrl =>
    cases hv : v.getLsbD 2 with
    | false => exact .inl hv
    | true => exact .inr (.inr (.inr ⟨rfl, rfl⟩))
  | _ => exact .inr (.inl trivial)

/-- Only the sticky flags, ERRCODE and the answers to reads differ (R86, R87). -/
def OnlyFlagsChanged (s t : State) : Prop :=
  t = { s with status := t.status, responses := t.responses } ∧
    t.status.eq = s.status.eq ∧ t.status.vok = s.status.vok ∧ t.status.oinf = s.status.oinf

theorem badAccess_onlyFlagsChanged (s : State) (op : AccessOp) : OnlyFlagsChanged s (s.badAccess op) := by
  cases op <;> exact ⟨rfl, rfl, rfl, rfl⟩

theorem clear_onlyFlagsChanged (s : State) (v : BusWord) :
    OnlyFlagsChanged s { s with status := s.status.clear v } := by
  rw [Status.clear_eq]
  exact ⟨rfl, rfl, rfl, rfl⟩

/-- While BUSY, a write that does not reset changes flags only. -/
theorem writeLoc_busy_onlyFlagsChanged {s : State} {w v : BusWord} {l : Loc} (hb : s.engine = .busy w)
    (h : ¬ (l = .ctrl ∧ v.getLsbD 2 = true)) : OnlyFlagsChanged s (writeLoc s v l) := by
  obtain hin | hro | rfl | hreset := l.write_cases v
  · rw [writeLoc_busy_commandInput hb hin]
    exact ⟨rfl, rfl, rfl, rfl⟩
  · rw [writeLoc_readOnly s v hro]
    exact ⟨rfl, rfl, rfl, rfl⟩
  · exact clear_onlyFlagsChanged s v
  · exact absurd hreset h

/-- A supported write that resets is a soft reset (R35). -/
theorem isSoftReset_of_ctrl {a : Access} {v : BusWord} (hs : a.supported = true) (hl : locate a.off = some .ctrl)
    (hop : a.op = .write v) (hv : v.getLsbD 2 = true) : Claims.IsSoftReset a := by
  obtain ⟨hoff, hwidth, hlanes⟩ := Access.supported_iff.1 hs
  exact ⟨(offset_of_locate hoff hl).symm, hwidth, hlanes, v, hop, hv⟩

/-- While BUSY, a host access that is no soft reset changes flags and answers only. -/
theorem hostAccess_busy_onlyFlagsChanged {s : State} {a : Access} {w : BusWord} (hb : s.engine = .busy w)
    (h : ¬ Claims.IsSoftReset a) : OnlyFlagsChanged s (hostAccess s a) := by
  obtain hbad | ⟨l, -, -, -, hread⟩ | ⟨l, v, hop, hs, hl, hwrite⟩ := hostAccess_cases s a
  · rw [hbad]
    exact badAccess_onlyFlagsChanged s a.op
  · rw [hread]
    exact ⟨rfl, rfl, rfl, rfl⟩
  · rw [hwrite]
    refine writeLoc_busy_onlyFlagsChanged hb ?_
    rintro ⟨rfl, hv⟩
    exact h (isSoftReset_of_ctrl hs hl hop hv)

end Sys2Proof.Machine

namespace Sys2Proof.Proofs

open Sys2Proof.Machine Sys2Proof.Claims

/-- Settles O50: each word listed is a command input. -/
theorem writesWhileBusyAreDropped : Obligations.WritesWhileBusyAreDropped := by
  intro s w v l rest hb ht hl
  have hin : l.CommandInput v := by
    obtain ⟨i, j, rfl⟩ | ⟨j, rfl⟩ | ⟨r, j, rfl⟩ | rfl | rfl | ⟨rfl, hv⟩ := hl
    case inr.inr.inr.inr.inr => exact hv
    all_goals exact trivial
  rw [step_write_loc ht, writeLoc_busy_commandInput (s := { s with turns := rest }) hb hin]
  rfl

/-- Settles O51, by what a host access can do while BUSY. -/
theorem busyProtectsEveryRegister : Obligations.BusyProtectsEveryRegister := by
  intro s w a rest hb ht hno
  exact ⟨_, step_host ht, hostAccess_busy_onlyFlagsChanged (s := { s with turns := rest }) hb hno⟩

end Sys2Proof.Proofs
end

section
/-! The decoder and the encoder undo each other on the fields of a word (spec/30_encoding.md R110, R111, R113, R114). -/

namespace Sys2Proof

theorem plainTail_ok_iff {f : Fields} {u : Unit} : plainTail f = .ok u ↔ f.rsv = 0 ∧ f.c = 0 := by
  simp [plainTail, illegal_bind_ok_iff, zeroField_ok_iff]

/-- The fields of a well-formed command decode to it, whichever its row. -/
theorem decodeFields_fieldsOf (i : Instr) : Laws.Fields.Statement i := by
  cases i with
  | fred => apply Laws.Fields.fred
  | fadd => apply Laws.Fields.fadd
  | fsub => apply Laws.Fields.fsub
  | fmul => apply Laws.Fields.fmul
  | fdiv => apply Laws.Fields.fdiv
  | finv => apply Laws.Fields.finv
  | fpow => apply Laws.Fields.fpow
  | feq => apply Laws.Fields.feq
  | pset => apply Laws.Fields.pset
  | pinf => apply Laws.Fields.pinf
  | pgen => apply Laws.Fields.pgen
  | pget => apply Laws.Fields.pget
  | peq => apply Laws.Fields.peq
  | padd => apply Laws.Fields.padd
  | pdbl => apply Laws.Fields.pdbl
  | pmul => apply Laws.Fields.pmul
  | keygen => apply Laws.Fields.keygen
  | esign => apply Laws.Fields.esign
  | everify => apply Laws.Fields.everify
  | derenc => apply Laws.Fields.derenc
  | secenc => apply Laws.Fields.secenc

/-- A one-bit field from the test whether it is set. -/
theorem ofBool_decide_eq_one (c : BitVec 1) : BitVec.ofBool (c = 1#1) = c := by
  revert c
  decide

theorem xField_inj {v v' : BitVec 4} : xField v = xField v' ↔ v = v' := by
  rw [← xBits_inj, xBits_xField, xBits_xField]

/-- Two equal destinations are no command (R114). -/
theorem sameDestination_ok_iff {p : Prop} [Decidable p] {i j : Instr} :
    (if p then .error .sameDestination else .ok i : Except Illegal Instr) = .ok j ↔ ¬ p ∧ i = j := by
  split <;> simp [*]

/-- Fields that decode to a command are the fields of that command, and it is well-formed. -/
theorem fieldsOf_of_decodeFields {f : Fields} {i : Instr} (h : decodeFields f = .ok i) :
    fieldsOf i = f ∧ i.wellFormed = true := by
  obtain ⟨op, f1, f2, f3, f4, f5, ms, rsv, c⟩ := f
  unfold decodeFields at h
  dsimp only at h
  split at h
  case h_22 => cases h
  -- in each row: read every field off the successful checks, then compare
  all_goals
    simp only [field2, field3, illegal_bind_ok_iff, plainTail_ok_iff, zeroField_ok_iff, msField_ok_iff, pField_ok_iff,
      sameDestination_ok_iff, pure, Except.pure, Except.ok.injEq, exists_const] at h
    casesm* _ ∧ _, ∃ _, _
    subst_vars
    simp [fieldsOf, ofBool_decide_eq_one, Instr.wellFormed, xField_inj, *]

theorem decode_encode {i : Instr} (h : i.wellFormed = true) : decode (encode i) = .ok i := by
  rw [decode, encode, Fields.ofWord_toWord, decodeFields_fieldsOf i h]

theorem encode_of_decode {w : BusWord} {i : Instr} (h : decode w = .ok i) : encode i = w ∧ i.wellFormed = true := by
  obtain ⟨hf, hwf⟩ := fieldsOf_of_decodeFields h
  exact ⟨by rw [encode, hf, Fields.toWord_ofWord], hwf⟩

end Sys2Proof

namespace Sys2Proof.Proofs

/-- Settles O1, by the fields of the word. -/
theorem decodeInvertsEncode : Obligations.DecodeInvertsEncode := fun _ => decode_encode

/-- Settles O2: a successful decoding fixes every field. -/
theorem encodeInvertsDecode : Obligations.EncodeInvertsDecode := fun _ _ => encode_of_decode

/-- Settles O4, by evaluation of the ten words. -/
theorem workedEncodingsDecode : Obligations.WorkedEncodingsDecode := by
  unfold Obligations.WorkedEncodingsDecode
  decide

end Sys2Proof.Proofs
end

section
/-! The match/mask table on the fields of a word (spec/30_encoding.md R113, R114). -/

namespace Sys2Proof

/-- The bits two field lists share (R113: `w AND mask`, field by field). -/
def Fields.land (f g : Fields) : Fields :=
  ⟨f.op &&& g.op, f.f1 &&& g.f1, f.f2 &&& g.f2, f.f3 &&& g.f3, f.f4 &&& g.f4, f.f5 &&& g.f5, f.ms &&& g.ms,
    f.rsv &&& g.rsv, f.c &&& g.c⟩

theorem Fields.ofWord_and (v w : BusWord) : Fields.ofWord (v &&& w) = (Fields.ofWord v).land (Fields.ofWord w) := by
  simp only [Fields.ofWord, Fields.land, BitVec.extractLsb'_and]

theorem Fields.ofWord_inj {v w : BusWord} : Fields.ofWord v = Fields.ofWord w ↔ v = w :=
  ⟨fun h => by rw [← Fields.toWord_ofWord v, h, Fields.toWord_ofWord], congrArg _⟩

/-- What R114 asks of the fields of a word in a row: the row's shape, MS in a field command, two destinations. -/
def Row.Admits (r : Row) (f : Fields) : Prop :=
  f.land (Fields.ofWord r.mask) = Fields.ofWord r.pattern ∧ (r ∈ fieldRows → f.ms ≠ 3#2) ∧
  (r.mnemonic = "PGET" ∨ r.mnemonic = "ESIGN" → f.f1 ≠ f.f2)

theorem Row.land_eq_iff {r : Row} {w : BusWord} :
    (Fields.ofWord w).land (Fields.ofWord r.mask) = Fields.ofWord r.pattern ↔ w &&& r.mask = r.pattern := by
  rw [← Fields.ofWord_and, Fields.ofWord_inj]

/-- R114's conditions on a word are those on its fields. -/
theorem Row.admits_ofWord_iff {r : Row} {w : BusWord} :
    r.Admits (Fields.ofWord w) ↔ w &&& r.mask = r.pattern ∧ (r ∈ fieldRows → w.extractLsb' 4 2 ≠ 3#2) ∧
      (r.mnemonic = "PGET" ∨ r.mnemonic = "ESIGN" → w.extractLsb' 22 4 ≠ w.extractLsb' 18 4) :=
  and_congr Row.land_eq_iff Iff.rfl

/-! ### The masks of one field -/

theorem and_ones_one (v : BitVec 1) : v &&& 1#1 = v := by revert v; decide
theorem and_ones_two (v : BitVec 2) : v &&& 3#2 = v := by revert v; decide
theorem and_ones_three (v : BitVec 3) : v &&& 7#3 = v := by revert v; decide
theorem and_ones_four (v : BitVec 4) : v &&& 15#4 = v := by revert v; decide
theorem and_ones_six (v : BitVec 6) : v &&& 63#6 = v := by revert v; decide

/-- Bit 3 is 0 exactly in the fields that name a point register (R111). -/
theorem and_eight_eq_zero_iff {v : BitVec 4} : v &&& 8#4 = 0#4 ↔ ∃ r : PReg, v = pBits r := by
  revert v
  decide

theorem pBits_and_eight (r : PReg) : pBits r &&& 8#4 = 0#4 := and_eight_eq_zero_iff.2 ⟨r, rfl⟩

/-- Every value of MS but 3 names a modulus (R111). -/
theorem ne_three_iff {v : BitVec 2} : v ≠ 3#2 ↔ ∃ ms : ModSel, v = msBits ms := by
  constructor
  · intro h
    obtain rfl | rfl | rfl : v = msBits .m ∨ v = msBits .p ∨ v = msBits .n := by
      revert v
      decide
    exacts [⟨_, rfl⟩, ⟨_, rfl⟩, ⟨_, rfl⟩]
  · rintro ⟨ms, rfl⟩
    cases ms <;> decide

/-! ### The row of a command -/

/-- The commands stand in the order of the opcode map (R113). -/
def Instr.row (i : Instr) : Row :=
  opcodeTable[i.ctorIdx]'(by cases i <;> simp [Instr.ctorIdx, opcodeTable, fieldRows, otherRows])

theorem Instr.row_mem (i : Instr) : i.row ∈ opcodeTable := List.getElem_mem _

theorem Instr.row_mnemonic (i : Instr) : i.row.mnemonic = i.mnemonic := by cases i <;> rfl

/-- The row of a well-formed command admits its fields. -/
theorem Instr.row_admits {i : Instr} (h : i.wellFormed = true) : i.row.Admits (fieldsOf i) := by
  -- with the row as a variable the masks are evaluated on its literal, not on the lookup
  generalize hr : i.row = r
  cases i
  all_goals
    simp only [Instr.row, Instr.ctorIdx, opcodeTable, fieldRows, otherRows, List.cons_append, List.nil_append,
      List.getElem_cons_succ, List.getElem_cons_zero] at hr
    subst hr
    simp only [Instr.wellFormed, decide_eq_true_eq] at h
    simp [Row.Admits, fieldRows, fieldsOf, Fields.land, Fields.ofWord, pBits_and_eight, ne_three_iff, h]

/-- Fields that a row admits pass every check of the decoder. -/
theorem Row.exists_decodeFields {r : Row} {f : Fields} (hr : r ∈ opcodeTable) (h : r.Admits f) :
    ∃ i, decodeFields f = .ok i := by
  obtain ⟨op, f1, f2, f3, f4, f5, ms, rsv, c⟩ := f
  simp only [opcodeTable, fieldRows, otherRows, List.cons_append, List.nil_append, List.mem_cons, List.not_mem_nil,
    or_false] at hr
  rcases hr with rfl | rfl | rfl | rfl | rfl | rfl | rfl | rfl | rfl | rfl | rfl | rfl | rfl | rfl | rfl | rfl | rfl |
    rfl | rfl | rfl | rfl
  -- in each row: read the fields off the mask and the constraints, then decode
  all_goals
    simp [Row.Admits, fieldRows, Fields.land, Fields.ofWord, and_ones_one, and_ones_two, and_ones_three, and_ones_four,
      and_ones_six, and_eight_eq_zero_iff, ne_three_iff] at h
    casesm* _ ∧ _, ∃ _, _
    subst_vars
    simp [decodeFields, field2, field3, plainTail, pure, Except.pure, *]

/-! ### At most one row -/

theorem opcodeTable_op_nodup : (opcodeTable.map fun r => (Fields.ofWord r.pattern).op).Nodup := by decide

theorem mask_op_of_mem {r : Row} (hr : r ∈ opcodeTable) : (Fields.ofWord r.mask).op = 63#6 := by
  revert r
  decide

/-- A word has the opcode of every row it matches. -/
theorem op_of_matches {r : Row} {w : BusWord} (hr : r ∈ opcodeTable) (h : w &&& r.mask = r.pattern) :
    (Fields.ofWord w).op = (Fields.ofWord r.pattern).op := by
  rw [← h, Fields.ofWord_and, Fields.land, mask_op_of_mem hr, and_ones_six]

/-- At most one row matches a word (R113). -/
theorem row_unique {r r' : Row} {w : BusWord} (hr : r ∈ opcodeTable) (hr' : r' ∈ opcodeTable)
    (h : w &&& r.mask = r.pattern) (h' : w &&& r'.mask = r'.pattern) : r = r' :=
  List.inj_on_of_nodup_map opcodeTable_op_nodup hr hr' ((op_of_matches hr h).symm.trans (op_of_matches hr' h'))

/-! ### Words -/

/-- The row of a legal word's command admits the word. -/
theorem row_admits_of_decode {w : BusWord} {i : Instr} (h : decode w = .ok i) : i.row.Admits (Fields.ofWord w) := by
  obtain ⟨hf, hwf⟩ := fieldsOf_of_decodeFields h
  exact hf ▸ Instr.row_admits hwf

/-- A word is legal exactly when a row admits it (R114). -/
theorem legal_iff_admitted (w : BusWord) : (∃ i, decode w = .ok i) ↔ ∃ r ∈ opcodeTable, r.Admits (Fields.ofWord w) :=
  ⟨fun ⟨i, h⟩ => ⟨i.row, i.row_mem, row_admits_of_decode h⟩, fun ⟨_, hr, h⟩ => Row.exists_decodeFields hr h⟩

/-- A legal word's command is the one of the row it matches. -/
theorem mnemonic_of_matches {w : BusWord} {i : Instr} {r : Row} (h : decode w = .ok i) (hr : r ∈ opcodeTable)
    (hw : w &&& r.mask = r.pattern) : i.mnemonic = r.mnemonic := by
  obtain ⟨hrow, -⟩ := row_admits_of_decode h
  rw [row_unique hr i.row_mem hw (Row.land_eq_iff.1 hrow), Instr.row_mnemonic]

end Sys2Proof
end

section
/-! The completion of a command word, legal or not (spec/30_encoding.md R114, spec/60_exceptions.md R274, R275). -/

namespace Sys2Proof.Machine

/-- With no turn left a BUSY engine completes its word (R274). -/
theorem nextMove_busy_nil {s : State} {w : BusWord} (hb : s.engine = .busy w) (ht : s.turns = []) :
    s.nextMove = (.command w, s) := by
  simp [State.nextMove, State.engineTurn, ht, hb]

/-- A BUSY engine that takes its turn completes its word (R274). -/
theorem nextMove_busy_engine {s : State} {w : BusWord} {rest : List Turn} (hb : s.engine = .busy w)
    (ht : s.turns = .engine :: rest) : s.nextMove = (.command w, { s with turns := rest }) := by
  simp [State.nextMove, State.engineTurn, ht, hb]

theorem step_command {s u : State} {w : BusWord} {i : Instr} (h : s.nextMove = (.command w, u))
    (hw : decode w = .ok i) : step s = exec i u := by
  simp [step, h, hw]

/-- An illegal word completes with E_ILLEGAL (R114, R275). -/
theorem step_illegal {s u : State} {w : BusWord} {e : Illegal} (h : s.nextMove = (.command w, u))
    (hw : decode w = .error e) : step s = .next (u.errorEntry .illegal) := by
  simp [step, h, hw, completeIllegal]

theorem errorEntry_eq_failed {s : State} {w : BusWord} (c : ErrCode) (hb : s.engine = .busy w) :
    s.errorEntry c = Claims.failed s w c := by
  simp [State.errorEntry, State.wordForErrcmd, hb, State.finish, Claims.failed]

end Sys2Proof.Machine

namespace Sys2Proof.Proofs

open Sys2Proof.Machine

/-- Settles O3: R114's conditions are read on the fields, and the opcode fixes the row. -/
theorem legalWordsAreThoseOfTheTable : Obligations.LegalWordsAreThoseOfTheTable := by
  refine ⟨fun w => ?_, fun w i h r hr hw => mnemonic_of_matches h hr hw,
    fun w r hr r' hr' h h' => row_unique hr hr' h h', fun s w e hb hw => ⟨fun ht => ?_, fun rest ht => ?_⟩⟩
  · simp only [legal_iff_admitted, Row.admits_ofWord_iff]
  · rw [step_illegal (nextMove_busy_nil hb ht) hw, errorEntry_eq_failed _ hb]
  · rw [step_illegal (nextMove_busy_engine hb ht) hw, errorEntry_eq_failed (s := { s with turns := rest }) _ hb]

end Sys2Proof.Proofs
end

section
/-! Programs of host writes: one word (ISSUE) and the eight limbs of a register (SETX, SETR) (spec/30_encoding.md R120,
spec/10_state.md R48, spec/20_memory.md R80). -/

namespace Sys2Proof.Machine

/-! ### Runs -/

theorem run_succ_of_step {s t : State} (n : Nat) (h : step s = .next t) : core.run (n + 1) s = core.run n t := by
  have hcore : core.step s = .next t := h
  simp only [Host.Core.run, hcore]

theorem run_one (s : State) : core.run 1 s = step s := by
  have hcore : core.step s = step s := rfl
  simp only [Host.Core.run, hcore]
  split <;> simp only [*]

/-! ### Writing a register limb by limb -/

/-- A register after the limbs `js` of v have been written to it, in that order (R48). -/
def loadLimbs (v : Word) (js : List (Fin 8)) (w : Word) : Word := js.foldl (fun w j => setLimb w j (getLimb v j)) w

theorem getLimb_loadLimbs (v : Word) (js : List (Fin 8)) (w : Word) (k : Fin 8) :
    getLimb (loadLimbs v js w) k = if k ∈ js then getLimb v k else getLimb w k := by
  induction js generalizing w with
  | nil => simp [loadLimbs]
  | cons j js ih =>
    rw [loadLimbs, List.foldl_cons, ← loadLimbs, ih, getLimb_setLimb]
    by_cases hk : k = j <;> simp [hk, eq_comm]

/-- The eight limbs determine the register (R48). -/
theorem eq_of_getLimb_eq {v w : Word} (h : ∀ j, getLimb v j = getLimb w j) : v = w := by
  apply BitVec.eq_of_getLsbD_eq
  intro k hk
  have hbit := congrArg (·.getLsbD (k % 32)) (h ⟨k / 32, by omega⟩)
  simpa only [getLimb_getLsbD, Nat.mod_lt k (show 32 > 0 by decide), decide_true, Bool.true_and,
    Nat.div_add_mod] using hbit

/-- Eight limbs written are the whole register. -/
theorem loadLimbs_limbs (v w : Word) : loadLimbs v limbs w = v := by
  apply eq_of_getLimb_eq
  intro j
  rw [getLimb_loadLimbs, if_pos]
  revert j
  decide

/-- A register with its limbs at the words `place`: what reads it (`get`), what a write of it leaves (`set`), and that
an IDLE engine lets the host replace one limb (R48, R84). -/
structure LimbRegister (place : Fin 8 → Loc) (get : State → Word) (set : State → Word → State) : Prop where
  write (s : State) (v : BusWord) (j : Fin 8) (h : s.engine = .idle) :
    writeLoc s v (place j) = set s (setLimb (get s) j v)
  get_set (s : State) (w : Word) : get (set s w) = w
  set_set (s : State) (w w' : Word) : set (set s w) w' = set s w'
  engine (s : State) (w : Word) : (set s w).engine = s.engine
  turns (s : State) (w : Word) : (set s w).turns = s.turns
  set_turns (s : State) (w : Word) (rest : List Turn) :
    { set s w with turns := rest } = set { s with turns := rest } w
  get_turns (s : State) (rest : List Turn) : get { s with turns := rest } = get s

/-- The writes that put the limbs `js` of v at the words `place`, limb by limb (R120). -/
def limbWrites (base : Nat) (place : Fin 8 → Loc) (v : Word) (js : List (Fin 8)) : List Turn :=
  js.flatMap fun j => wr base (place j).offset (getLimb v j)

theorem limbWrites_cons (base : Nat) (place : Fin 8 → Loc) (v : Word) (j : Fin 8) (js : List (Fin 8)) :
    limbWrites base place v (j :: js) = writeTurn (place j).offset (getLimb v j) :: limbWrites base place v js := by
  rw [limbWrites, List.flatMap_cons, wr_eq]
  rfl

section
variable {place : Fin 8 → Loc} {get : State → Word} {set : State → Word → State} (R : LimbRegister place get set)
include R

/-- The write of the first limb is one step. -/
theorem LimbRegister.step_write {base : Nat} {v : Word} {j : Fin 8} {js : List (Fin 8)} {rest : List Turn} {s : State}
    (hidle : s.engine = .idle) (ht : s.turns = limbWrites base place v (j :: js) ++ rest) :
    step s = .next (set { s with turns := limbWrites base place v js ++ rest } (setLimb (get s) j (getLimb v j))) := by
  rw [limbWrites_cons, List.cons_append] at ht
  rw [step_write_loc ht, R.write { s with turns := limbWrites base place v js ++ rest } _ _ hidle, R.get_turns]

/-- Writes of at least one limb, one step each. -/
theorem LimbRegister.run_writes {base : Nat} {v : Word} {rest : List Turn} (js : List (Fin 8)) (j : Fin 8) {s : State}
    (hidle : s.engine = .idle) (ht : s.turns = limbWrites base place v (j :: js) ++ rest) :
    core.run (js.length + 1) s = .next (set { s with turns := rest } (loadLimbs v (j :: js) (get s))) := by
  induction js generalizing s j with
  | nil => exact (run_one s).trans (R.step_write hidle ht)
  | cons j' js ih =>
    rw [List.length_cons, run_succ_of_step _ (R.step_write hidle ht), ih j' _ (R.turns _ _), R.set_turns, R.set_set,
      R.get_set]
    · rfl
    · exact (R.engine _ _).trans hidle

/-- The eight writes of SETX or SETR set the register (R120). -/
theorem LimbRegister.run_load {base : Nat} {s : State} {v : Word} {rest : List Turn} (hidle : s.engine = .idle)
    (ht : s.turns = limbWrites base place v limbs ++ rest) :
    core.run 8 s = .next (set { s with turns := rest } v) := by
  have h := R.run_writes [1, 2, 3, 4, 5, 6, 7] 0 hidle ht
  rwa [← limbs, loadLimbs_limbs] at h

end

theorem limbRegister_x (i : XReg) :
    LimbRegister (.x i) (fun s => s.x[i.val]) (fun s w => { s with x := s.x.set i.val w }) where
  write _ _ _ h := unlessBusy_idle _ h
  get_set _ _ := Vector.getElem_set_self ..
  set_set _ _ _ := by rw [Vector.set_set]
  engine _ _ := rfl
  turns _ _ := rfl
  set_turns _ _ _ := rfl
  get_turns _ _ := rfl

theorem limbRegister_modulus :
    LimbRegister .modulus (fun s => s.modulus) (fun s w => { s with modulus := w }) where
  write _ _ _ h := unlessBusy_idle _ h
  get_set _ _ := rfl
  set_set _ _ _ := rfl
  engine _ _ := rfl
  turns _ _ := rfl
  set_turns _ _ _ := rfl
  get_turns _ _ := rfl

theorem invalidate_invalidate (p : PointReg) : p.invalidate.invalidate = p.invalidate := by cases p <;> rfl

theorem invalidatePoints_invalidatePoints (s : State) : s.invalidatePoints.invalidatePoints = s.invalidatePoints := by
  have hpt : s.invalidatePoints.invalidatePoints.pt = s.invalidatePoints.pt := Vector.ext fun i hi => by
    rw [invalidatePoints_pt_getElem _ ⟨i, hi⟩, invalidatePoints_pt_getElem _ ⟨i, hi⟩, invalidate_invalidate]
  rw [State.invalidatePoints, ← State.invalidatePoints_pt, hpt]

theorem setCurve_invalidatePoints (s : State) (r : CurveReg) (w : Word) :
    s.invalidatePoints.setCurve r w = (s.setCurve r w).invalidatePoints := by cases r <;> rfl

theorem setCurve_setCurve (s : State) (r : CurveReg) (w w' : Word) :
    (s.setCurve r w).setCurve r w' = s.setCurve r w' := by cases r <;> rfl

theorem limbRegister_curve (r : CurveReg) :
    LimbRegister (.curve r) (fun s => s.getCurve r) (fun s w => (s.setCurve r w).invalidatePoints) where
  write _ _ _ h := unlessBusy_idle _ h
  get_set s w := by rw [getCurve_invalidatePoints, getCurve_setCurve, if_pos rfl]
  set_set s w w' := by rw [setCurve_invalidatePoints, setCurve_setCurve, invalidatePoints_invalidatePoints]
  engine s w := by simp
  turns s w := by simp
  set_turns s w rest := by cases r <;> rfl
  get_turns s rest := getCurve_turns s rest r

end Sys2Proof.Machine

namespace Sys2Proof.Proofs

open Sys2Proof.Machine

/-- Settles O56: SETX, SETR MOD and SETR are the eight limb writes of one register. -/
theorem setxAndSetrLoadWholeRegisters : Obligations.SetxAndSetrLoadWholeRegisters := by
  intro base s v rest hidle
  refine ⟨fun i ht => (limbRegister_x i).run_load hidle ht, fun ht => limbRegister_modulus.run_load hidle ht,
    fun r ht => ⟨_, (limbRegister_curve r).run_load hidle ht, by simp, by simp, fun r' => ?_⟩⟩
  rw [getCurve_invalidatePoints, getCurve_setCurve, getCurve_turns]

/-- Settles O57: the write to CMD is accepted, and the engine's turn runs the command its word decodes to. -/
theorem issuedCommandsAreExecuted : Obligations.IssuedCommandsAreExecuted := by
  intro base s i rest hwf hidle herr ht
  rw [issueProg, wr_eq] at ht
  have haccept : step s = .next { s with
      turns := .engine :: rest, engine := .busy (encode i), status := { s.status with done := false } } := by
    rw [step_write_loc ht]
    simp [writeLoc, State.issue, State.busy, hidle, herr]
  rw [run_succ_of_step 1 haccept, run_one, step_command (nextMove_busy_engine rfl rfl) (decode_encode hwf)]

end Sys2Proof.Proofs
end

section
/-! The assembler reads back what the printer writes (spec/30_encoding.md R119). -/

namespace Sys2Proof.Machine

/-! ### Blanks and commas -/

theorem dropWhile_isBlank_of_head {cs : List Char} (h : ∀ c ∈ cs.head?, isBlank c = false) :
    cs.dropWhile isBlank = cs := by
  cases cs with
  | nil => rfl
  | cons c cs => exact List.dropWhile_cons_of_neg (by simp [h c rfl])

/-- Text that neither begins nor ends with a blank is kept whole. -/
theorem trimBlanks_eq_self {cs : List Char} (hhead : ∀ c ∈ cs.head?, isBlank c = false)
    (hlast : ∀ c ∈ cs.getLast?, isBlank c = false) : trimBlanks cs = cs := by
  rw [← List.head?_reverse] at hlast
  rw [trimBlanks, dropWhile_isBlank_of_head hhead, dropWhile_isBlank_of_head hlast, List.reverse_reverse]

theorem splitCommas_of_no_comma {cs : List Char} (h : ',' ∉ cs) : splitCommas cs = [cs] := by
  induction cs with
  | nil => rfl
  | cons c cs ih =>
    obtain ⟨hc, hcs⟩ := not_or.1 (mt List.mem_cons.2 h)
    rw [splitCommas, if_neg (Ne.symm hc), ih hcs]

theorem splitCommas_append {cs : List Char} (h : ',' ∉ cs) (rest : List Char) :
    splitCommas (cs ++ ',' :: rest) = cs :: splitCommas rest := by
  induction cs with
  | nil => rfl
  | cons c cs ih =>
    obtain ⟨hc, hcs⟩ := not_or.1 (mt List.mem_cons.2 h)
    rw [List.cons_append, splitCommas, if_neg (Ne.symm hc), ih hcs]

/-! ### Operands -/

/-- A character that separates nothing: no comma, no semicolon, no blank. -/
def isPlain (c : Char) : Bool := c != ',' && c != ';' && !isBlank c

theorem isPlain_of_mem_text {o : Operand} {c : Char} (h : c ∈ o.text) : isPlain c = true := by
  have hx : ∀ r : XReg, (Operand.x r).text.all isPlain = true := by decide
  have hpt : ∀ r : PReg, (Operand.pt r).text.all isPlain = true := by decide
  cases o with
  | x r => exact List.all_eq_true.1 (hx r) c h
  | pt r => exact List.all_eq_true.1 (hpt r) c h

theorem text_ne_nil (o : Operand) : o.text ≠ [] := by cases o <;> exact List.cons_ne_nil _ _

theorem isBlank_of_isPlain {c : Char} (h : isPlain c = true) : isBlank c = false := by
  simp only [isPlain, Bool.and_eq_true, Bool.not_eq_true'] at h
  exact h.2

theorem comma_notMem_text (o : Operand) : ',' ∉ o.text := fun h => absurd (isPlain_of_mem_text h) (by decide)

theorem semicolon_notMem_text (o : Operand) : ';' ∉ o.text := fun h => absurd (isPlain_of_mem_text h) (by decide)

theorem parseReg_x (r : XReg) : parseReg 16 (regDigits r.val) = some r := by
  revert r
  decide

theorem parseReg_pt (r : PReg) : parseReg 8 (regDigits r.val) = some r := by
  revert r
  decide

theorem trimBlanks_space (cs : List Char) : trimBlanks (' ' :: cs) = trimBlanks cs := rfl

/-- An operand is read back from its text, the space before it included. -/
theorem parseOperand_text (o : Operand) : parseOperand (' ' :: o.text) = some o := by
  have htrim : trimBlanks (' ' :: o.text) = o.text := by
    rw [trimBlanks_space]
    exact trimBlanks_eq_self (fun c hc => isBlank_of_isPlain (isPlain_of_mem_text (List.mem_of_head? hc)))
      fun c hc => isBlank_of_isPlain (isPlain_of_mem_text (List.mem_of_getLast? hc))
  rw [parseOperand, htrim]
  cases o with
  | x r => simp [Operand.text, parseReg_x]
  | pt r => simp [Operand.text, parseReg_pt]

/-! ### Operand lists -/

theorem operandsText_cons_cons (o o' : Operand) (os : List Operand) :
    operandsText (o :: o' :: os) = o.text ++ ',' :: ' ' :: operandsText (o' :: os) := rfl

/-- Cut at its commas, an operand list falls into its operands, each after one space. -/
theorem splitCommas_operandsText (o : Operand) (os : List Operand) :
    splitCommas (' ' :: operandsText (o :: os)) = (o :: os).map fun o => ' ' :: o.text := by
  have hcomma : ∀ o : Operand, ',' ∉ ' ' :: o.text := fun o =>
    mt List.mem_cons.1 (not_or.2 ⟨by decide, comma_notMem_text o⟩)
  induction os generalizing o with
  | nil => exact splitCommas_of_no_comma (hcomma o)
  | cons o' os ih =>
    rw [operandsText_cons_cons, ← List.cons_append, splitCommas_append (hcomma o), ih]
    rfl

theorem parseOperands_operandsText (o : Operand) (os : List Operand) :
    parseOperands (' ' :: operandsText (o :: os)) = some (o :: os) := by
  rw [parseOperands, splitCommas_operandsText]
  generalize o :: os = ops
  induction ops with
  | nil => rfl
  | cons o ops ih =>
    simp only [List.map_cons, List.mapM_cons, parseOperand_text, ih, Option.pure_def, Option.bind_eq_bind,
      Option.bind_some]

theorem semicolon_notMem_operandsText (o : Operand) (os : List Operand) : ';' ∉ operandsText (o :: os) := by
  induction os generalizing o with
  | nil => exact semicolon_notMem_text o
  | cons o' os ih =>
    rw [operandsText_cons_cons]
    simp [semicolon_notMem_text, ih]

/-- An operand list ends with the text of its last operand. -/
theorem exists_operandsText_eq_append (o : Operand) (os : List Operand) :
    ∃ (cs : List Char) (o' : Operand), operandsText (o :: os) = cs ++ o'.text := by
  induction os generalizing o with
  | nil => exact ⟨[], o, rfl⟩
  | cons o' os ih =>
    obtain ⟨cs, last, h⟩ := ih o'
    exact ⟨o.text ++ ',' :: ' ' :: cs, last, by rw [operandsText_cons_cons, h]; simp⟩

/-! ### Command lines -/

/-- The suffix as it stands in the line (R119). -/
def suffixText : Option Char → List Char
  | none => []
  | some c => ['.', c]

theorem commandText_eq (m : String) (suffix : Option Char) (ops : List Operand) :
    commandText m suffix ops = m.toList ++ (suffixText suffix ++ ' ' :: operandsText ops) := by
  cases suffix <;> simp [commandText, suffixText]

/-- The suffix text is taken off the line up to the operands. -/
theorem takeSuffix_suffixText {suffix : Option Char} (h : ∀ c ∈ suffix, c.isAlpha = true) (cs : List Char) :
    takeSuffix (suffixText suffix ++ ' ' :: cs) = (suffix.map fun c => [c], ' ' :: cs) := by
  have hspace : ' '.isAlpha = false := rfl
  cases suffix with
  | none => rfl
  | some c => simp [suffixText, takeSuffix, h c rfl, hspace]

/-- What stands after the mnemonic begins with no letter. -/
theorem suffixText_head (suffix : Option Char) (cs : List Char) :
    ∃ c rest, suffixText suffix ++ ' ' :: cs = c :: rest ∧ c.isAlpha = false := by
  cases suffix with
  | none => exact ⟨_, _, rfl, rfl⟩
  | some c => exact ⟨_, _, rfl, rfl⟩

/-- A mnemonic: at least one letter, all in upper case (R119). -/
def isMnemonic (m : String) : Bool := m.toList ≠ [] && m.toList.all Char.isUpper

theorem isMnemonic_iff {m : String} : isMnemonic m = true ↔ m.toList ≠ [] ∧ ∀ c ∈ m.toList, c.isUpper = true := by
  simp only [isMnemonic, Bool.and_eq_true, decide_eq_true_eq, List.all_eq_true]

theorem isMnemonic_mnemonic (i : Instr) : isMnemonic i.mnemonic = true := by
  cases i <;> simp [Instr.mnemonic, isMnemonic]

theorem isBlank_of_isUpper {c : Char} (h : c.isUpper = true) : isBlank c = false := by
  simp only [isBlank, Bool.or_eq_false_iff, decide_eq_false_iff_not]
  constructor <;> rintro rfl <;> exact absurd h (by decide)

section
variable {m : String} {suffix : Option Char} (hm : isMnemonic m = true) (hs : ∀ c ∈ suffix, c.isAlpha = true)
include hm

theorem isAlpha_of_mem_mnemonic : ∀ c ∈ m.toList, c.isAlpha = true := fun c hc => by
  rw [Char.isAlpha, (isMnemonic_iff.1 hm).2 c hc, Bool.true_or]

theorem map_toUpper_mnemonic : m.toList.map Char.toUpper = m.toList :=
  (List.map_congr_left fun c hc =>
    Char.toUpper_eq_of_not_isLower (Char.not_isLower_of_isUpper ((isMnemonic_iff.1 hm).2 c hc))).trans (List.map_id _)

/-- The letters at the front of a line are its mnemonic. -/
theorem span_isAlpha_commandText (ops : List Operand) :
    (commandText m suffix ops).takeWhile Char.isAlpha = m.toList ∧
      (commandText m suffix ops).dropWhile Char.isAlpha = suffixText suffix ++ ' ' :: operandsText ops := by
  obtain ⟨c, rest, hrest, hc⟩ := suffixText_head suffix (operandsText ops)
  have hmem := isAlpha_of_mem_mnemonic hm
  rw [commandText_eq, List.takeWhile_append_of_pos hmem, List.dropWhile_append_of_pos hmem, hrest]
  simp [hc]

/-- A command line has no blank at its ends. -/
theorem trimBlanks_commandText (o : Operand) (os : List Operand) :
    trimBlanks (commandText m suffix (o :: os)) = commandText m suffix (o :: os) := by
  obtain ⟨hne, hupper⟩ := isMnemonic_iff.1 hm
  apply trimBlanks_eq_self
  · intro c hc
    rw [commandText_eq, List.head?_append_of_ne_nil _ hne] at hc
    exact isBlank_of_isUpper (hupper c (List.mem_of_head? hc))
  · intro c hc
    obtain ⟨cs, last, h⟩ := exists_operandsText_eq_append o os
    rw [commandText_eq, h, ← List.cons_append, ← List.append_assoc, ← List.append_assoc,
      List.getLast?_append_of_ne_nil _ (text_ne_nil last)] at hc
    exact isBlank_of_isPlain (isPlain_of_mem_text (List.mem_of_getLast? hc))

include hs

/-- A command line has no comment. -/
theorem semicolon_notMem_commandText (o : Operand) (os : List Operand) : ';' ∉ commandText m suffix (o :: os) := by
  have hmnemonic : ';' ∉ m.toList := fun h => absurd (isAlpha_of_mem_mnemonic hm _ h) (by decide)
  have hsuffix : ';' ∉ suffixText suffix := by
    cases suffix with
    | none => exact List.not_mem_nil
    | some c =>
      have hc : ';' ≠ c := by
        rintro rfl
        exact absurd (hs ';' rfl) (by decide)
      simp [suffixText, hc]
  rw [commandText_eq]
  simp [hmnemonic, hsuffix, semicolon_notMem_operandsText]

/-- The assembler finds the three parts of a printed line. -/
theorem assemble_commandText (o : Operand) (os : List Operand) :
    assemble (commandText m suffix (o :: os)) = buildCommand m.toList (suffix.map fun c => [c]) (o :: os) := by
  have hcode : (commandText m suffix (o :: os)).takeWhile (· ≠ ';') = commandText m suffix (o :: os) :=
    List.takeWhile_eq_self_iff.2 fun c hc =>
      decide_eq_true (ne_of_mem_of_not_mem hc (semicolon_notMem_commandText hm hs o os))
  obtain ⟨htake, hdrop⟩ := span_isAlpha_commandText (suffix := suffix) hm (o :: os)
  simp only [assemble, hcode, trimBlanks_commandText hm, htake, hdrop, map_toUpper_mnemonic hm,
    takeSuffix_suffixText hs, parseOperands_operandsText]

end

theorem msSuffix_isAlpha (ms : ModSel) : ∀ c ∈ some (msSuffix ms), c.isAlpha = true := by
  rintro _ ⟨⟩
  cases ms <;> rfl

end Sys2Proof.Machine

namespace Sys2Proof.Proofs

open Sys2Proof.Machine

/-- Settles O5: the three parts of the printed line build the command they were printed from. -/
theorem assembleInvertsPrinting : Obligations.AssembleInvertsPrinting := by
  intro i
  have hm := isMnemonic_mnemonic i
  cases i with
  | fred ms | fadd ms | fsub ms | fmul ms | fdiv ms | finv ms | fpow ms | feq ms =>
    refine (assemble_commandText hm (msSuffix_isAlpha ms) ..).trans ?_
    cases ms <;> simp [msSuffix, buildCommand, buildField, Instr.mnemonic]
  | secenc compressed =>
    cases compressed with
    | false =>
      refine (assemble_commandText hm (suffix := none) nofun ..).trans ?_
      simp [buildCommand, buildPlain, Instr.mnemonic]
    | true =>
      refine (assemble_commandText hm (suffix := some 'c') (by simp) ..).trans ?_
      simp [buildCommand, Instr.mnemonic]
  | _ =>
    refine (assemble_commandText hm (suffix := none) nofun ..).trans ?_
    simp [buildCommand, buildPlain, Instr.mnemonic]

end Sys2Proof.Proofs
end

section
/-! The field commands: how they read their modulus and operands, with the errors in their order, and how they complete
(spec/40_field.md R140 to R152). -/

namespace Sys2Proof.Machine

open Sys2Proof.Claims

/-! ### The modulus and the operands -/

theorem isModulus_iff {s : State} {ms : ModSel} {m : Nat} :
    IsModulus s ms m ↔ m = modulusOf s ms ∧ (ms = .n → s.nvalid = true) := by
  cases ms <;> simp [IsModulus, modulusOf, and_comm]

theorem selMod_of_isModulus {s : State} {ms : ModSel} {m : Nat} (h : IsModulus s ms m) (hm : 2 < m) :
    selMod s ms = .ok m := by
  obtain ⟨heq, hn⟩ := isModulus_iff.1 h
  exact selMod_ok_iff.2 ⟨heq, hm, hn⟩

/-- Where a field command's error comes from (R152): SelMod refuses the modulus, or a legal modulus meets an operand that
is not below it. -/
theorem selMod_of_fieldError {s : State} {ms : ModSel} {rs : List XReg} {c : ErrCode} (h : FieldError s ms rs c) :
    selMod s ms = .error c ∨ c = .range ∧ ∃ m, selMod s ms = .ok m ∧ ∃ r ∈ rs, elem (s.getX r) m = .error .range := by
  cases c with
  | noOrder =>
    obtain ⟨hms, hn⟩ := h
    exact .inl (selMod_error_iff.2 (.inl ⟨hms, hn, rfl⟩))
  | badModulus =>
    obtain ⟨m, hmod, hm⟩ := h
    obtain ⟨rfl, hn⟩ := isModulus_iff.1 hmod
    exact .inl (selMod_error_iff.2 (.inr ⟨hn, hm, rfl⟩))
  | range =>
    obtain ⟨m, hmod, hm, r, hr, hle⟩ := h
    exact .inr ⟨rfl, m, selMod_of_isModulus hmod hm, r, hr, elem_error_iff.2 ⟨hle, rfl⟩⟩
  | _ => exact h.elim

theorem elem_getX_of_lt {s : State} {i : XReg} {m : Nat} (h : s.x[i.val].toNat < m) :
    elem (s.getX i) m = .ok s.x[i.val].toNat :=
  elem_of_lt h

/-- Two operands below a legal modulus are handed on as they stand, whatever is computed from them. -/
theorem binaryOperands_of_lt {α : Type} {s : State} {ms : ModSel} {xa xb : XReg} {m : Nat}
    (k : Nat → Nat → Nat → Except ErrCode α) (hmod : IsModulus s ms m) (hm : 2 < m) (ha : s.x[xa.val].toNat < m)
    (hb : s.x[xb.val].toNat < m) :
    (do let m ← selMod s ms; let a ← elem (s.getX xa) m; let b ← elem (s.getX xb) m; k m a b) =
      k m s.x[xa.val].toNat s.x[xb.val].toNat := by
  rw [selMod_of_isModulus hmod hm, ok_bind, elem_getX_of_lt ha, ok_bind, elem_getX_of_lt hb, ok_bind]

/-- Two operands are refused before anything is computed from them, whatever that is. -/
theorem binaryOperands_of_fieldError {α : Type} {s : State} {ms : ModSel} {xa xb : XReg} {c : ErrCode}
    (k : Nat → Nat → Nat → Except ErrCode α) (h : FieldError s ms [xa, xb] c) :
    (do let m ← selMod s ms; let a ← elem (s.getX xa) m; let b ← elem (s.getX xb) m; k m a b) = .error c := by
  obtain hsel | ⟨rfl, m, hsel, r, hr, he⟩ := selMod_of_fieldError h
  · rw [hsel, error_bind]
  · obtain rfl | rfl : r = xa ∨ r = xb := by simpa using hr
    · rw [hsel, ok_bind, he, error_bind]
    · rw [hsel, ok_bind, he]
      cases ha : elem (s.getX xa) m with
      | ok a => rfl
      | error e => rw [(elem_error_iff.1 ha).2, error_bind]

/-! ### Completion -/

theorem complete_of_error {s : State} {r : Except ErrCode State} {w : BusWord} {c : ErrCode} (hw : s.engine = .busy w)
    (h : r = .error c) : complete s r = .next (failed s w c) := by
  rw [h, complete_error, errorEntry_eq_failed c hw]

section
variable {s : State} {ms : ModSel} {xd xa xb : XReg} {w : BusWord} {c : ErrCode} {m r : Nat}

theorem fieldUnary_of_fieldError {f : Nat → Nat → Except ErrCode Nat} (hw : s.engine = .busy w)
    (h : FieldError s ms [xa] c) : fieldUnary s ms xd xa f = .next (failed s w c) := by
  refine complete_of_error hw ?_
  obtain hsel | ⟨rfl, m, hsel, r, hr, he⟩ := selMod_of_fieldError h
  · rw [hsel, error_bind]
  · obtain rfl : r = xa := by simpa using hr
    rw [hsel, ok_bind, he, error_bind]

theorem fieldBinary_of_fieldError {f : Nat → Nat → Nat → Except ErrCode Nat} (hw : s.engine = .busy w)
    (h : FieldError s ms [xa, xb] c) : fieldBinary s ms xd xa xb f = .next (failed s w c) :=
  complete_of_error hw (binaryOperands_of_fieldError _ h)

section
variable (hmod : IsModulus s ms m) (hm : 2 < m) (ha : s.x[xa.val].toNat < m)
include hmod hm ha

/-- The completion of a one-operand command on a legal modulus and operand rests on `f` alone. -/
theorem fieldUnary_eq (f : Nat → Nat → Except ErrCode Nat) :
    fieldUnary s ms xd xa f = complete s ((f m s.x[xa.val].toNat).map (s.setX xd)) := by
  rw [fieldUnary, selMod_of_isModulus hmod hm, ok_bind, elem_getX_of_lt ha]
  rfl

/-- The completion of a two-operand command on a legal modulus and operands rests on `f` alone. -/
theorem fieldBinary_eq (hb : s.x[xb.val].toNat < m) (f : Nat → Nat → Nat → Except ErrCode Nat) :
    fieldBinary s ms xd xa xb f = complete s ((f m s.x[xa.val].toNat s.x[xb.val].toNat).map (s.setX xd)) := by
  rw [fieldBinary, binaryOperands_of_lt _ hmod hm ha hb]
  rfl

end

theorem complete_map_setX_ok {q : Except ErrCode Nat} (h : q = .ok r) :
    complete s (q.map (s.setX xd)) = .next (succeeded { s with x := s.x.set xd.val (BitVec.ofNat 256 r) }) := by
  rw [h]
  rfl

theorem complete_map_setX_error {q : Except ErrCode Nat} (hw : s.engine = .busy w) (h : q = .error c) :
    complete s (q.map (s.setX xd)) = .next (failed s w c) :=
  complete_of_error hw (by rw [h]; rfl)

end

/-! ### The arithmetic of two elements -/

/-- R144: the difference of two elements needs at most one addition of the modulus. -/
theorem imod_sub_of_lt {a b m : Nat} (ha : a < m) (hb : b < m) :
    imod ((a : Int) - b) m = if b ≤ a then a - b else a + m - b := by
  split
  case isTrue h =>
    refine imod_unique (by omega) ?_
    rw [Nat.cast_sub h]
  case isFalse h =>
    refine imod_unique (by omega) (Int.modEq_iff_dvd.2 ⟨-1, ?_⟩)
    rw [Nat.cast_sub (by omega)]
    push_cast
    ring

theorem modInv_of_coprime {b m : Nat} (hb : b < m) (h : Nat.gcd b m = 1) : modInv b m = .ok (inverse b m) := by
  rw [modInv, Nat.mod_eq_of_lt hb, if_pos h]

theorem modInv_of_not_coprime {b m : Nat} (hb : b < m) (h : Nat.gcd b m ≠ 1) : modInv b m = .error .notInvertible :=
  modInv_error_iff.2 ⟨by rwa [Nat.mod_eq_of_lt hb], rfl⟩

end Sys2Proof.Machine

namespace Sys2Proof.Proofs

open Sys2Proof.Machine

/-- Settles O19: the two operands are read as they stand, and FSUB's residue is the one in [0, m). -/
theorem fieldSumDifferenceAndProduct : Obligations.FieldSumDifferenceAndProduct := by
  refine fun ms xd xa xb s => ⟨fun m hmod hm ha hb => ⟨?fadd, ?fsub, ?fmul⟩, fun w c hw h => ⟨?_, ?_, ?_⟩⟩
  case fadd => exact (fieldBinary_eq hmod hm ha hb _).trans (complete_map_setX_ok rfl)
  case fsub =>
    refine (fieldBinary_eq hmod hm ha hb _).trans (complete_map_setX_ok ?_)
    rw [imod_sub_of_lt ha hb]
  case fmul => exact (fieldBinary_eq hmod hm ha hb _).trans (complete_map_setX_ok rfl)
  all_goals exact fieldBinary_of_fieldError hw h

/-- Settles O20: ModInv answers the one inverse of a unit and refuses every other divisor (R11). -/
theorem inverseAndQuotient : Obligations.InverseAndQuotient := by
  refine fun ms xd xa xb s => ⟨fun m hmod hm ha hb => ⟨fun hg => ?unit, fun w hw hg => ?nonUnit⟩,
    fun w c hw => ⟨fieldUnary_of_fieldError hw, fieldBinary_of_fieldError hw⟩⟩
  case unit =>
    have hinv := modInv_of_coprime hb hg
    obtain ⟨hpos, hlt, hmul⟩ := (modInv_ok_iff hm).1 hinv
    refine ⟨_, hpos, hlt, hmul, (fieldUnary_eq hmod hm hb _).trans (complete_map_setX_ok hinv),
      (fieldBinary_eq hmod hm ha hb _).trans (complete_map_setX_ok ?_)⟩
    rw [hinv, ok_bind, except_pure]
  case nonUnit =>
    have hinv := modInv_of_not_coprime hb hg
    refine ⟨(fieldUnary_eq hmod hm hb _).trans (complete_map_setX_error hw hinv),
      (fieldBinary_eq hmod hm ha hb _).trans (complete_map_setX_error hw ?_)⟩
    rw [hinv, error_bind]

/-- Settles O21: repeated squaring computes the power, and the exponent is an operand like any other. -/
theorem fpowRaisesToThePower : Obligations.FpowRaisesToThePower := by
  refine fun ms xd xa xb s => ⟨fun m hmod hm ha hb => ?_, fun w c hw h => fieldBinary_of_fieldError hw h⟩
  refine (fieldBinary_eq hmod hm ha hb _).trans (complete_map_setX_ok ?_)
  rw [powMod_eq (by omega)]

/-- Settles O18: FRED reads its operand without a range check, so only SelMod can refuse. -/
theorem fredReduces : Obligations.FredReduces := by
  refine fun ms xd xa s => ⟨fun m hmod hm => ?_, fun w c hw h => complete_of_error hw ?_⟩
  · rw [exec, execFred, selMod_of_isModulus hmod hm]
    rfl
  · obtain hsel | ⟨-, m, -, r, hr, -⟩ := selMod_of_fieldError h
    · rw [hsel, error_bind]
    · cases hr

/-- Settles O22: two elements below the modulus are equal exactly when their registers are. -/
theorem feqComparesElements : Obligations.FeqComparesElements := by
  refine fun ms xa xb s => ⟨fun m hmod hm ha hb => ?_,
    fun w c hw h => complete_of_error hw (binaryOperands_of_fieldError _ h)⟩
  rw [exec, execFeq, binaryOperands_of_lt _ hmod hm ha hb]
  simp only [← BitVec.toNat_inj]
  rfl

end Sys2Proof.Proofs
end

section
/-! The point commands: how they read their operands, with the errors in their order, how they complete, and the group
law as congruences mod CURVE_P (spec/41_point.md R170 to R182). -/

namespace Sys2Proof.Machine

open Sys2Proof.Claims

/-! ### Point operands -/

theorem readPt_of_empty {s : State} {i : PReg} (h : s.pt[i.val] = .empty) : readPt s i = .error .emptyPoint :=
  readPt_error_iff.2 ⟨h, rfl⟩

/-- A register that is not EMPTY is read as a point value, and that value written back is the register's. -/
theorem readPt_of_ne_empty {s : State} {i : PReg} (h : s.pt[i.val] ≠ .empty) :
    ∃ v, readPt s i = .ok v ∧ v.toReg = s.pt[i.val] := by
  cases hr : s.pt[i.val] with
  | empty => exact absurd hr h
  | inf => exact ⟨_, readPt_of_inf hr, rfl⟩
  | aff x y => exact ⟨_, readPt_of_aff hr, toReg_aff_word x y⟩

/-- What ReadPt answers depends on the value of the register alone. -/
theorem readPt_congr {s : State} {i j : PReg} (h : s.pt[i.val] = s.pt[j.val]) : readPt s i = readPt s j := by
  have hij : s.pt[i] = s.pt[j] := h
  rw [readPt, hij, readPt]

/-- Two registers that are read as the same point hold the same value. -/
theorem readPt_inj {s : State} {i j : PReg} {v : Point} (hi : readPt s i = .ok v) (hj : readPt s j = .ok v) :
    s.pt[i.val] = s.pt[j.val] := by
  have reg : ∀ k : PReg, readPt s k = .ok v → s.pt[k.val] = v.toReg := by
    intro k hk
    obtain ⟨hr, rfl⟩ | ⟨x, y, hr, rfl⟩ := readPt_ok_iff.1 hk
    · exact hr
    · rw [hr, toReg_aff_word]
  rw [reg i hi, reg j hj]

/-- An EMPTY operand on either side is refused before anything is computed (R177, R179). -/
theorem pointOperands_of_empty {α : Type} {s : State} {i j : PReg} (k : Point → Point → Except ErrCode α)
    (h : s.pt[i.val] = .empty ∨ s.pt[j.val] = .empty) :
    (do let v1 ← readPt s i; let v2 ← readPt s j; k v1 v2) = .error .emptyPoint := by
  cases hi : readPt s i with
  | error e => rw [(readPt_error_iff.1 hi).2, error_bind]
  | ok v =>
    have hj : s.pt[j.val] = .empty := h.resolve_left fun he => by rw [readPt_of_empty he] at hi; cases hi
    rw [ok_bind, readPt_of_empty hj, error_bind]

/-! ### Checked coordinates -/

/-- What PSET and GenOK share (R171, R172): CurveOK, two range-checked coordinates, and the equation of the curve. -/
def checkedPoint (s : State) (x y : Nat) : Except ErrCode Point := do
  curveOK s
  let x ← elem x s.curveP.toNat
  let y ← elem y s.curveP.toNat
  if onCurve s x y then .ok (.aff x y) else .error .notOnCurve

section
variable {s : State} {x y : Nat}

theorem checkedPoint_of_lt (hl : CurveLegal s) (hx : x < s.curveP.toNat) (hy : y < s.curveP.toNat) :
    checkedPoint s x y = if onCurve s x y then .ok (.aff x y) else .error .notOnCurve := by
  rw [checkedPoint, (curveOK_ok_iff (u := ())).2 hl, ok_bind, elem_of_lt hx, ok_bind, elem_of_lt hy, ok_bind]

theorem checkedPoint_ok (hl : CurveLegal s) (hx : x < s.curveP.toNat) (hy : y < s.curveP.toNat)
    (he : CurveEquation s x y) : checkedPoint s x y = .ok (.aff x y) := by
  rw [checkedPoint_of_lt hl hx hy, if_pos ((onCurve_iff hl.pos).2 he)]

theorem checkedPoint_notOnCurve (hl : CurveLegal s) (hx : x < s.curveP.toNat) (hy : y < s.curveP.toNat)
    (he : ¬ CurveEquation s x y) : checkedPoint s x y = .error .notOnCurve := by
  rw [checkedPoint_of_lt hl hx hy, if_neg (mt (onCurve_iff hl.pos).1 he)]

theorem checkedPoint_badModulus (hp : s.curveP.toNat ≤ 2) : checkedPoint s x y = .error .badModulus := by
  rw [checkedPoint, curveOK_error_iff.2 (.inl ⟨hp, rfl⟩), error_bind]

theorem checkedPoint_range (hp : 2 < s.curveP.toNat)
    (h : s.curveP.toNat ≤ s.curveA.toNat ∨ s.curveP.toNat ≤ s.curveB.toNat ∨ s.curveP.toNat ≤ x ∨
      s.curveP.toNat ≤ y) : checkedPoint s x y = .error .range := by
  rw [checkedPoint]
  by_cases hab : s.curveP.toNat ≤ s.curveA.toNat ∨ s.curveP.toNat ≤ s.curveB.toNat
  · rw [curveOK_error_iff.2 (.inr ⟨hp, hab, rfl⟩), error_bind]
  have hl : CurveLegal s := ⟨hp, by omega, by omega⟩
  rw [(curveOK_ok_iff (u := ())).2 hl, ok_bind]
  by_cases hx : s.curveP.toNat ≤ x
  · rw [elem_error_iff.2 ⟨hx, rfl⟩, error_bind]
  · rw [elem_of_lt (by omega), ok_bind, elem_error_iff.2 ⟨by omega, rfl⟩, error_bind]

end

/-! ### Completion -/

theorem setX_toNat (s : State) (i : XReg) (v : Word) : s.setX i v.toNat = { s with x := s.x.set i.val v } := by
  rw [State.setX, BitVec.ofNat_toNat, BitVec.setWidth_eq]

section
variable {s : State} {pd pa pb : PReg} {w : BusWord} {c : ErrCode} {v v1 v2 : Point} {r : PointReg}

/-- A command that computes a point value writes its register. -/
theorem complete_map_setPt_ok {q : Except ErrCode Point} (h : q = .ok v) (hr : v.toReg = r) :
    complete s (q.map (s.setPt pd)) = .next (succeeded { s with pt := s.pt.set pd.val r }) := by
  subst h hr
  rfl

theorem complete_map_setPt_error {q : Except ErrCode Point} (hw : s.engine = .busy w) (h : q = .error c) :
    complete s (q.map (s.setPt pd)) = .next (failed s w c) :=
  complete_of_error hw (by rw [h]; rfl)

theorem exec_pset_eq (pd : PReg) (xx xy : XReg) (s : State) :
    exec (.pset pd xx xy) s =
      complete s ((checkedPoint s s.x[xx.val].toNat s.x[xy.val].toNat).map (s.setPt pd)) := by
  refine congrArg (complete s) ?_
  show _ = s.setPt pd <$> checkedPoint s (s.getX xx) (s.getX xy)
  simp only [checkedPoint, map_bind, apply_ite (s.setPt pd <$> ·)]
  rfl

theorem exec_pgen_eq (pd : PReg) (s : State) :
    exec (.pgen pd) s =
      complete s ((checkedPoint s s.curveGX.toNat s.curveGY.toNat).map (s.setPt pd)) := rfl

/-- Every completion of a command that writes a point of checked coordinates (R171, R172, R174): PSET and PGEN. -/
theorem checkedPoint_outcomes {x y : Word} {o : Host.Outcome State Fault Refusal}
    (ho : o = complete s ((checkedPoint s x.toNat y.toNat).map (s.setPt pd))) :
    (CurveLegal s → x.toNat < s.curveP.toNat → y.toNat < s.curveP.toNat → CurveEquation s x.toNat y.toNat →
      o = .next (succeeded { s with pt := s.pt.set pd.val (.aff x y) })) ∧
    (∀ w, s.engine = .busy w →
      (s.curveP.toNat ≤ 2 → o = .next (failed s w .badModulus)) ∧
      (2 < s.curveP.toNat →
        (s.curveP.toNat ≤ s.curveA.toNat ∨ s.curveP.toNat ≤ s.curveB.toNat ∨
         s.curveP.toNat ≤ x.toNat ∨ s.curveP.toNat ≤ y.toNat) → o = .next (failed s w .range)) ∧
      (CurveLegal s → x.toNat < s.curveP.toNat → y.toNat < s.curveP.toNat → ¬ CurveEquation s x.toNat y.toNat →
        o = .next (failed s w .notOnCurve))) := by
  subst ho
  refine ⟨fun hl hx hy he => ?_, fun w hw => ⟨fun hp => ?_, fun hp h => ?_, fun hl hx hy he => ?_⟩⟩
  · exact complete_map_setPt_ok (checkedPoint_ok hl hx hy he) (toReg_aff_word _ _)
  · exact complete_map_setPt_error hw (checkedPoint_badModulus hp)
  · exact complete_map_setPt_error hw (checkedPoint_range hp h)
  · exact complete_map_setPt_error hw (checkedPoint_notOnCurve hl hx hy he)

/-- PADD of two operands that are not EMPTY completes with their sum (R181). -/
theorem exec_padd_eq (pd : PReg) (h1 : readPt s pa = .ok v1) (h2 : readPt s pb = .ok v2) :
    exec (.padd pd pa pb) s = complete s ((pointAdd s.curveP.toNat s.curveA.toNat v1 v2).map (s.setPt pd)) := by
  rw [exec, execPadd, h1, ok_bind, h2, ok_bind]
  rfl

/-- PDBL of an operand that is not EMPTY completes with its double (R182). -/
theorem exec_pdbl_eq (pd : PReg) (h : readPt s pa = .ok v) :
    exec (.pdbl pd pa) s = complete s ((pointDouble s.curveP.toNat s.curveA.toNat v).map (s.setPt pd)) := by
  rw [exec, execPdbl, h, ok_bind]
  rfl

theorem exec_padd_of_empty (pd : PReg) (h : s.pt[pa.val] = .empty ∨ s.pt[pb.val] = .empty) :
    exec (.padd pd pa pb) s = complete s (.error .emptyPoint) :=
  congrArg (complete s) (pointOperands_of_empty _ h)

theorem exec_pdbl_of_empty (pd : PReg) (h : s.pt[pa.val] = .empty) :
    exec (.pdbl pd pa) s = complete s (.error .emptyPoint) := by
  rw [exec, execPdbl, readPt_of_empty h, error_bind]

end

/-! ### The group law as congruences -/

theorem gcd_imod (v : Int) {m : Nat} (hm : 0 < m) : Nat.gcd (imod v m) m = Int.gcd v m := by
  rw [← Int.gcd_natCast_natCast, imod_cast v hm, Int.gcd_emod]

theorem imod_congr {v w : Int} {m : Nat} (h : v ≡ w [ZMOD m]) : imod v m = imod w m := by
  rw [imod, h, imod]

section
variable {p : Nat} {d : Int}

/-- Division mod p: the product of n and the inverse of d solves `lam d = n` (R11, R180). -/
theorem mul_modInv_modEq {n inv : Nat} {e : Int} (hp : 2 < p) (hinv : modInv (imod d p) p = .ok inv)
    (hn : (n : Int) ≡ e [ZMOD p]) : ((n * inv % p : Nat) : Int) * d ≡ e [ZMOD p] := by
  obtain ⟨-, -, hone⟩ := (modInv_ok_iff hp).1 hinv
  have hunit : (imod d p : Int) * inv ≡ 1 [ZMOD p] := by
    have h : imod d p * inv ≡ 1 [MOD p] := by rw [Nat.ModEq, hone, Nat.mod_eq_of_lt (by omega)]
    exact_mod_cast Int.natCast_modEq_iff.2 h
  calc ((n * inv % p : Nat) : Int) * d ≡ (n * inv : Nat) * imod d p [ZMOD p] :=
        Int.ModEq.mul (by push_cast; exact Int.mod_modEq _ _) (imod_modEq d (by omega)).symm
    _ = n * (imod d p * inv) := by push_cast; ring
    _ ≡ e * 1 [ZMOD p] := hn.mul hunit
    _ = e := mul_one e

/-- A slope below p is determined by what it solves. -/
theorem slope_unique {e : Int} {lam lam' : Nat} (hp : 0 < p) (hlt : lam < p) (hlt' : lam' < p)
    (hg : Int.gcd d p = 1) (h : (lam : Int) * d ≡ e [ZMOD p]) (h' : (lam' : Int) * d ≡ e [ZMOD p]) : lam = lam' := by
  have hmod := Int.ModEq.cancel_right_div_gcd (by omega) (h.trans h'.symm)
  rw [Int.gcd_comm, hg, Nat.cast_one, Int.ediv_one] at hmod
  exact Nat.ModEq.eq_of_lt_of_lt (Int.natCast_modEq_iff.1 hmod) hlt hlt'

end

section
variable {p : Nat} {x1 y1 x2 y2 : Nat}

/-- The third point of a line, by its congruences (R180). -/
theorem thirdPoint_modEq (hp : 0 < p) (lam x1 y1 x2 : Nat) :
    ∃ x3 y3 : Nat, x3 < p ∧ y3 < p ∧ (x3 : Int) ≡ (lam : Int) ^ 2 - x1 - x2 [ZMOD p] ∧
      (y3 : Int) ≡ lam * ((x1 : Int) - x3) - y1 [ZMOD p] ∧ thirdPoint p lam x1 y1 x2 = .aff x3 y3 :=
  ⟨_, _, imod_lt _ hp, imod_lt _ hp, imod_modEq _ hp, imod_modEq _ hp, rfl⟩

/-- The third point is the same from either of two points on the line. -/
theorem thirdPoint_swap {lam : Nat} (h : (lam : Int) * ((x2 : Int) - x1) ≡ (y2 : Int) - y1 [ZMOD p]) :
    thirdPoint p lam x1 y1 x2 = thirdPoint p lam x2 y2 x1 := by
  simp only [thirdPoint, sub_right_comm _ (x2 : Int), Point.aff.injEq, true_and]
  refine imod_congr (Int.modEq_iff_dvd.2 ?_)
  convert Int.modEq_iff_dvd.1 h.symm using 1
  ring

theorem pointAdd_of_x_ne (a : Nat) (hx : x1 ≠ x2) :
    pointAdd p a (.aff x1 y1) (.aff x2 y2) = (do
      let inv ← modInv (imod ((x2 : Int) - x1) p) p
      return thirdPoint p (imod ((y2 : Int) - y1) p * inv % p) x1 y1 x2) := by
  rw [pointAdd, if_neg fun h => hx h.1, if_neg hx]

/-- The chord through two points whose abscissas differ by a unit (R180). -/
theorem pointAdd_chord (a : Nat) (hp : 2 < p) (hx : x1 ≠ x2) (hg : Int.gcd ((x2 : Int) - x1) p = 1) :
    ∃ lam, lam < p ∧ (lam : Int) * ((x2 : Int) - x1) ≡ (y2 : Int) - y1 [ZMOD p] ∧
      pointAdd p a (.aff x1 y1) (.aff x2 y2) = .ok (thirdPoint p lam x1 y1 x2) := by
  have hp0 : 0 < p := by omega
  have hinv := modInv_of_coprime (imod_lt _ hp0) ((gcd_imod _ hp0).trans hg)
  refine ⟨_, Nat.mod_lt _ hp0, mul_modInv_modEq hp hinv (imod_modEq _ hp0), ?_⟩
  rw [pointAdd_of_x_ne a hx, hinv, ok_bind, except_pure]

theorem pointAdd_chord_error (a : Nat) (hp : 2 < p) (hx : x1 ≠ x2) (hg : Int.gcd ((x2 : Int) - x1) p ≠ 1) :
    pointAdd p a (.aff x1 y1) (.aff x2 y2) = .error .notInvertible := by
  have hp0 : 0 < p := by omega
  rw [pointAdd_of_x_ne a hx, modInv_of_not_coprime (imod_lt _ hp0) ((gcd_imod _ hp0).trans_ne hg), error_bind]

/-- Two points with one abscissa and different ordinates count as mutual inverses, whatever CURVE_P is (R180, step 4). -/
theorem pointAdd_of_y_ne (p a : Nat) (hy : y1 ≠ y2) : pointAdd p a (.aff x1 y1) (.aff x1 y2) = .ok .inf := by
  rw [pointAdd, if_neg fun h => hy h.2, if_pos rfl]

theorem pointDouble_of_y_zero (p a : Nat) : pointDouble p a (.aff x1 0) = .ok .inf := rfl

/-- The tangent at a point whose double ordinate is a unit (R180). -/
theorem pointDouble_tangent (a : Nat) (hp : 2 < p) (hy : y1 ≠ 0) (hg : Nat.gcd (2 * y1) p = 1) :
    ∃ lam : Nat, (lam : Int) * (2 * (y1 : Int)) ≡ 3 * (x1 : Int) ^ 2 + a [ZMOD p] ∧
      pointDouble p a (.aff x1 y1) = .ok (thirdPoint p lam x1 y1 x1) := by
  have hinv : modInv (2 * y1 % p) p = .ok (inverse (2 * y1 % p) p) := by
    refine modInv_of_coprime (Nat.mod_lt _ (by omega)) ?_
    rwa [← Nat.gcd_rec, Nat.gcd_comm]
  refine ⟨_, mul_modInv_modEq hp (inv := inverse (2 * y1 % p) p) ?_ (n := (3 * x1 ^ 2 + a) % p) ?_, ?_⟩
  · rwa [← Nat.cast_two, ← Nat.cast_mul, imod_natCast]
  · push_cast
    exact Int.mod_modEq _ _
  · rw [pointDouble, if_neg hy, hinv, ok_bind, except_pure]

/-- PointAdd is commutative, errors included, whenever CURVE_P is a legal modulus (R181). -/
theorem pointAdd_comm (a : Nat) (hp : 2 < p) (v1 v2 : Point) : pointAdd p a v1 v2 = pointAdd p a v2 v1 := by
  rcases v1 with _ | ⟨x1, y1⟩
  · rw [pointAdd_inf_left, pointAdd_inf_right]
  rcases v2 with _ | ⟨x2, y2⟩
  · rw [pointAdd_inf_left, pointAdd_inf_right]
  by_cases hx : x1 = x2
  · subst hx
    by_cases hy : y1 = y2
    · rw [hy]
    · rw [pointAdd_of_y_ne p a hy, pointAdd_of_y_ne p a (Ne.symm hy)]
  have hswap : Int.gcd ((x1 : Int) - x2) p = Int.gcd ((x2 : Int) - x1) p := by rw [← neg_sub, Int.neg_gcd]
  by_cases hg : Int.gcd ((x2 : Int) - x1) p = 1
  · obtain ⟨lam, hlt, hlam, hadd⟩ := pointAdd_chord (y1 := y1) (y2 := y2) a hp hx hg
    obtain ⟨lam', hlt', hlam', hadd'⟩ := pointAdd_chord (y1 := y2) (y2 := y1) a hp (Ne.symm hx) (hswap.trans hg)
    have hback : (lam' : Int) * ((x2 : Int) - x1) ≡ (y2 : Int) - y1 [ZMOD p] := by
      simpa only [← mul_neg, neg_sub] using hlam'.neg
    obtain rfl := slope_unique (by omega) hlt hlt' hg hlam hback
    rw [hadd, hadd', thirdPoint_swap hlam]
  · rw [pointAdd_chord_error a hp hx hg, pointAdd_chord_error a hp (Ne.symm hx) (hswap.trans_ne hg)]

end

end Sys2Proof.Machine

namespace Sys2Proof.Proofs

open Sys2Proof.Machine

/-- Settles O23: CurveOK, the two range checks and the equation are what PSET checks. -/
theorem psetConstructsPointsOfTheCurve : Obligations.PsetConstructsPointsOfTheCurve :=
  fun pd xx xy s => checkedPoint_outcomes (exec_pset_eq pd xx xy s)

/-- Settles O24: PINF checks nothing, and GenOK checks the generator as PSET checks its operands. -/
theorem pinfAndPgenLoadTheirPoints : Obligations.PinfAndPgenLoadTheirPoints := by
  intro pd s
  obtain ⟨hok, herror⟩ := checkedPoint_outcomes (exec_pgen_eq pd s)
  exact ⟨rfl, fun ⟨hl, hx, hy, he⟩ => hok hl hx hy he, herror⟩

/-- Settles O25, by the value of the register. -/
theorem pgetReadsBothCoordinates : Obligations.PgetReadsBothCoordinates := by
  refine fun xd xe ps s _ => ⟨fun x y h => ?_, fun w hw => ⟨fun h => ?_, fun h => ?_⟩⟩
  · rw [exec, execPget, readPt_of_aff h, ok_bind]
    simp only [setX_toNat]
    rfl
  · exact complete_of_error hw (by rw [readPt_of_empty h, error_bind])
  · exact complete_of_error hw (by rw [readPt_of_inf h, ok_bind])

/-- Settles O26: two registers hold the same point exactly when they are read as the same value. -/
theorem peqComparesPoints : Obligations.PeqComparesPoints := by
  refine fun pa pb s => ⟨fun ha hb => ?_, fun w hw h => complete_of_error hw (pointOperands_of_empty _ h)⟩
  obtain ⟨v1, h1, -⟩ := readPt_of_ne_empty ha
  obtain ⟨v2, h2, -⟩ := readPt_of_ne_empty hb
  have heq : v1 = v2 ↔ s.pt[pa.val] = s.pt[pb.val] := by
    constructor
    · rintro rfl
      exact readPt_inj h1 h2
    · intro h
      rw [readPt_congr h, h2] at h1
      exact (Except.ok.inj h1).symm
  rw [exec, execPeq, h1, ok_bind, h2, ok_bind]
  simp only [heq]
  rfl

/-- Settles O27: identity, mutual inverses and the chord are the cases of PointAdd but the doubling. -/
theorem paddFollowsTheChordRule : Obligations.PaddFollowsTheChordRule := by
  refine fun pd pa pb s => ⟨fun ha hb => ?infLeft, fun hb ha => ?infRight, fun x y1 y2 ha hb hy => ?inverses,
    fun x1 y1 x2 y2 ha hb hx hp => ⟨fun hg => ?chord, fun w hw hg => ?notInvertible⟩, fun w hw h => ?empty⟩
  case infLeft =>
    obtain ⟨v, hv, hr⟩ := readPt_of_ne_empty hb
    rw [exec_padd_eq pd (readPt_of_inf ha) hv]
    exact complete_map_setPt_ok rfl hr
  case infRight =>
    obtain ⟨v, hv, hr⟩ := readPt_of_ne_empty ha
    rw [exec_padd_eq pd hv (readPt_of_inf hb)]
    exact complete_map_setPt_ok (pointAdd_inf_right ..) hr
  case inverses =>
    rw [exec_padd_eq pd (readPt_of_aff ha) (readPt_of_aff hb)]
    exact complete_map_setPt_ok (pointAdd_of_y_ne _ _ (mt BitVec.eq_of_toNat_eq hy)) rfl
  case chord =>
    obtain ⟨lam, -, hlam, hadd⟩ := pointAdd_chord s.curveA.toNat hp (mt BitVec.eq_of_toNat_eq hx) hg
    obtain ⟨x3, y3, hx3, hy3, hx3', hy3', hthird⟩ :=
      thirdPoint_modEq (p := s.curveP.toNat) (by omega) lam x1.toNat y1.toNat x2.toNat
    refine ⟨lam, x3, y3, hx3, hy3, hlam, hx3', hy3', ?_⟩
    rw [exec_padd_eq pd (readPt_of_aff ha) (readPt_of_aff hb)]
    exact complete_map_setPt_ok (hthird ▸ hadd) rfl
  case notInvertible =>
    rw [exec_padd_eq pd (readPt_of_aff ha) (readPt_of_aff hb)]
    exact complete_map_setPt_error hw (pointAdd_chord_error _ hp (mt BitVec.eq_of_toNat_eq hx) hg)
  case empty => exact (exec_padd_of_empty pd h).trans (complete_of_error hw rfl)

/-- Settles O28: the cases of PointDouble, and PointAdd of equal points is PointDouble. -/
theorem pdblFollowsTheTangentRule : Obligations.PdblFollowsTheTangentRule := by
  refine fun pd pa s => ⟨fun ha => ?inf, fun x ha => ?yZero,
    fun x y ha hy hp => ⟨fun hg => ?tangent, fun w hw hg => ?notInvertible⟩, fun w hw ha => ?empty,
    fun pb hb => ?same⟩
  case inf =>
    rw [exec_pdbl_eq pd (readPt_of_inf ha)]
    exact complete_map_setPt_ok rfl rfl
  case yZero =>
    rw [exec_pdbl_eq pd (readPt_of_aff ha)]
    exact complete_map_setPt_ok (pointDouble_of_y_zero _ _) rfl
  case tangent =>
    obtain ⟨lam, hlam, hdouble⟩ :=
      pointDouble_tangent (x1 := x.toNat) s.curveA.toNat hp (mt (BitVec.eq_of_toNat_eq (y := 0#256)) hy) hg
    obtain ⟨x3, y3, hx3, hy3, hx3', hy3', hthird⟩ :=
      thirdPoint_modEq (p := s.curveP.toNat) (by omega) lam x.toNat y.toNat x.toNat
    refine ⟨lam, x3, y3, hx3, hy3, hlam, ?_, hy3', ?_⟩
    · rwa [two_mul, ← sub_sub]
    · rw [exec_pdbl_eq pd (readPt_of_aff ha)]
      exact complete_map_setPt_ok (hthird ▸ hdouble) rfl
  case notInvertible =>
    rw [exec_pdbl_eq pd (readPt_of_aff ha)]
    exact complete_map_setPt_error hw (pointDouble_error_of_gcd (mt (BitVec.eq_of_toNat_eq (y := 0#256)) hy) hg)
  case empty => exact (exec_pdbl_of_empty pd ha).trans (complete_of_error hw rfl)
  case same =>
    by_cases ha : s.pt[pa.val] = .empty
    · rw [exec_padd_of_empty pd (.inl ha), exec_pdbl_of_empty pd ha]
    · obtain ⟨v, hv, -⟩ := readPt_of_ne_empty ha
      rw [exec_padd_eq pd hv ((readPt_congr hb).trans hv), exec_pdbl_eq pd hv, pointAdd_self]

/-- Settles O29: a point that is not INF makes CURVE_P a legal modulus, and then PointAdd is commutative. -/
theorem paddIsCommutative : Obligations.PaddIsCommutative := by
  intro pd pa pb s hs
  by_cases h : s.pt[pa.val] = .empty ∨ s.pt[pb.val] = .empty
  · rw [exec_padd_of_empty pd h, exec_padd_of_empty pd h.symm]
  · obtain ⟨ha, hb⟩ := not_or.1 h
    obtain ⟨v1, h1, -⟩ := readPt_of_ne_empty ha
    obtain ⟨v2, h2, -⟩ := readPt_of_ne_empty hb
    rw [exec_padd_eq pd h1 h2, exec_padd_eq pd h2 h1]
    cases v1 with
    | inf => rw [pointAdd_inf_left, pointAdd_inf_right]
    | aff x y =>
      obtain ⟨⟨hp, -, -⟩, -, -, -⟩ := readPt_onCurve hs pa _ h1
      rw [pointAdd_comm _ hp]

end Sys2Proof.Proofs
end

section
/-! For a prime CURVE_P the group law refines Mathlib's group of the curve (spec/41_point.md R180, spec/42_scalar.md
R201): the slopes and third points of the two are the same elements of Z/CURVE_P. -/

namespace Sys2Proof.Machine

open Sys2Proof.Claims WeierstrassCurve

/-- A point value that stands for a nonsingular point of the curve: what `Claims.Stands` says, of exact coordinates. -/
def Point.StandsFor (s : State) : Point → (curveOf s).Point → Prop
  | .inf, P => P = 0
  | .aff x y, P => x < s.curveP.toNat ∧ y < s.curveP.toNat ∧
      ∃ h : (curveOf s).Nonsingular (x : ZMod s.curveP.toNat) (y : ZMod s.curveP.toNat), P = .some _ _ h

section
variable {s : State} {P Q : (curveOf s).Point}

theorem Point.StandsFor.toReg {v : Point} (h : v.StandsFor s P) : Stands s v.toReg P := by
  cases v with
  | inf => exact .inl ⟨rfl, h⟩
  | aff x y =>
    obtain ⟨hx, hy, hns, rfl⟩ := h
    have hx' := ofNat_toNat_of_lt (hx.trans s.curveP.isLt)
    have hy' := ofNat_toNat_of_lt (hy.trans s.curveP.isLt)
    refine .inr ⟨BitVec.ofNat 256 x, BitVec.ofNat 256 y, by rwa [hx', hy'], rfl, by rwa [hx'], by rwa [hy'], ?_⟩
    simp only [hx', hy']

/-- A register that stands for a point is read as a value that stands for it. -/
theorem readPt_of_stands {i : PReg} (h : Stands s s.pt[i.val] P) : ∃ v, readPt s i = .ok v ∧ v.StandsFor s P := by
  obtain ⟨hr, rfl⟩ | ⟨x, y, hns, hr, hx, hy, rfl⟩ := h
  · exact ⟨_, readPt_of_inf hr, rfl⟩
  · exact ⟨_, readPt_of_aff hr, hx, hy, hns, rfl⟩

end

/-! ### Slopes over a prime CURVE_P -/

theorem natCast_inj_of_lt {p x y : Nat} (hx : x < p) (hy : y < p) : (x : ZMod p) = y ↔ x = y := by
  rw [ZMod.natCast_eq_natCast_iff]
  exact ⟨fun h => h.eq_of_lt_of_lt hx hy, fun h => h ▸ rfl⟩

theorem curveOf_negY (s : State) (x y : ZMod s.curveP.toNat) : (curveOf s).negY x y = -y := by
  simp [Affine.negY, curveOf]

section
variable {s : State} {x1 y1 x2 y2 lam : Nat}

/-- The third point is the one with Mathlib's coordinates for the same slope. -/
theorem thirdPoint_standsFor {P : (curveOf s).Point} {l : ZMod s.curveP.toNat} (hp : 0 < s.curveP.toNat)
    (hl : (lam : ZMod s.curveP.toNat) = l)
    (hns : (curveOf s).Nonsingular ((curveOf s).addX x1 x2 l) ((curveOf s).addY x1 x2 y1 l))
    (hP : P = .some _ _ hns) : (thirdPoint s.curveP.toNat lam x1 y1 x2).StandsFor s P := by
  subst hl hP
  have hX : ((imod ((lam : Int) ^ 2 - x1 - x2) s.curveP.toNat : Nat) : ZMod s.curveP.toNat) =
      (curveOf s).addX x1 x2 lam := by
    rw [imod_zmod _ hp]
    simp [Affine.addX, curveOf]
  have hY : ((imod (lam * ((x1 : Int) - imod ((lam : Int) ^ 2 - x1 - x2) s.curveP.toNat) - y1) s.curveP.toNat : Nat) :
      ZMod s.curveP.toNat) = (curveOf s).addY x1 x2 y1 lam := by
    rw [imod_zmod _ hp, Affine.addY, Affine.negAddY, curveOf_negY, ← hX]
    push_cast
    ring
  refine ⟨imod_lt _ hp, imod_lt _ hp, by rwa [hX, hY], ?_⟩
  simp only [hX, hY]

end

section
variable {s : State} [Fact s.curveP.toNat.Prime] {x1 y1 x2 y2 lam : Nat}

theorem chord_slope (hx : (x1 : ZMod s.curveP.toNat) ≠ x2)
    (h : (lam : Int) * ((x2 : Int) - x1) ≡ (y2 : Int) - y1 [ZMOD s.curveP.toNat]) :
    (lam : ZMod s.curveP.toNat) = (curveOf s).slope x1 x2 y1 y2 := by
  have hz := (ZMod.intCast_eq_intCast_iff _ _ _).2 h
  push_cast at hz
  rw [Affine.slope_of_X_ne hx, eq_div_iff (sub_ne_zero.2 hx)]
  linear_combination -hz

theorem tangent_slope (hy : (y1 : ZMod s.curveP.toNat) ≠ (curveOf s).negY x1 y1)
    (h : (lam : Int) * (2 * (y1 : Int)) ≡ 3 * (x1 : Int) ^ 2 + s.curveA.toNat [ZMOD s.curveP.toNat]) :
    (lam : ZMod s.curveP.toNat) = (curveOf s).slope x1 x1 y1 y1 := by
  have hz := (ZMod.intCast_eq_intCast_iff _ _ _).2 h
  push_cast at hz
  rw [Affine.slope_of_Y_ne rfl hy, eq_div_iff (sub_ne_zero.2 hy), curveOf_negY]
  simp only [curveOf]
  linear_combination hz

end

/-! ### Sums and doubles -/

section
variable {s : State} [hprime : Fact s.curveP.toNat.Prime] {v v1 v2 : Point} {P Q : (curveOf s).Point}

/-- 2 y has an inverse for every ordinate y that is not 0, since CURVE_P is odd. -/
theorem double_ordinate_coprime {y : Nat} (hp : 2 < s.curveP.toNat) (hy : y < s.curveP.toNat) (h0 : y ≠ 0) :
    Nat.gcd (2 * y) s.curveP.toNat = 1 := by
  refine Nat.Coprime.mul_left ?_ ?_
  · exact (Nat.coprime_primes Nat.prime_two hprime.out).2 (by omega)
  · exact (Nat.coprime_of_lt_prime h0 hy hprime.out).symm

theorem abscissa_difference_coprime {x1 x2 : Nat} (h : (x1 : ZMod s.curveP.toNat) ≠ x2) :
    Int.gcd ((x2 : Int) - x1) s.curveP.toNat = 1 := by
  refine Int.isCoprime_iff_gcd_eq_one.1 (IsCoprime.symm ?_)
  refine (Nat.prime_iff_prime_int.1 hprime.out).coprime_iff_not_dvd.2 ?_
  rw [← ZMod.intCast_zmod_eq_zero_iff_dvd]
  push_cast
  exact sub_ne_zero.2 h.symm

theorem pointDouble_standsFor (hp : 2 < s.curveP.toNat) (h : v.StandsFor s P) :
    ∃ r, pointDouble s.curveP.toNat s.curveA.toNat v = .ok r ∧ r.StandsFor s (P + P) := by
  cases v with
  | inf =>
    subst h
    exact ⟨.inf, rfl, add_zero 0⟩
  | aff x y =>
    obtain ⟨hx, hy, hns, rfl⟩ := h
    by_cases h0 : y = 0
    · subst h0
      refine ⟨.inf, pointDouble_of_y_zero _ _, Affine.Point.add_self_of_Y_eq ?_⟩
      rw [curveOf_negY, Nat.cast_zero, neg_zero]
    · have hg := double_ordinate_coprime hp hy h0
      obtain ⟨lam, hlam, hdouble⟩ := pointDouble_tangent (x1 := x) s.curveA.toNat hp h0 hg
      have hne : (y : ZMod s.curveP.toNat) ≠ (curveOf s).negY x y := by
        rw [curveOf_negY, ne_eq, eq_neg_iff_add_eq_zero, ← two_mul]
        intro hz
        have hunit := (ZMod.isUnit_iff_coprime (2 * y) s.curveP.toNat).2 hg
        push_cast at hunit
        exact hunit.ne_zero hz
      exact ⟨_, hdouble, thirdPoint_standsFor (by omega) (tangent_slope hne hlam) _
        (Affine.Point.add_self_of_Y_ne hne)⟩

/-- For a prime CURVE_P, PointAdd never fails, and it is the addition of the group (R180, R201). -/
theorem pointAdd_standsFor (hp : 2 < s.curveP.toNat) (h1 : v1.StandsFor s P) (h2 : v2.StandsFor s Q) :
    ∃ r, pointAdd s.curveP.toNat s.curveA.toNat v1 v2 = .ok r ∧ r.StandsFor s (P + Q) := by
  rcases v1 with _ | ⟨x1, y1⟩
  · subst h1
    exact ⟨v2, rfl, (zero_add Q).symm ▸ h2⟩
  rcases v2 with _ | ⟨x2, y2⟩
  · subst h2
    exact ⟨_, pointAdd_inf_right .., (add_zero P).symm ▸ h1⟩
  have ⟨hx1, hy1, hns1, hP⟩ := h1
  obtain ⟨hx2, hy2, hns2, rfl⟩ := h2
  by_cases hx : x1 = x2
  · subst hx
    by_cases hy : y1 = y2
    · subst hy hP
      rw [pointAdd_self]
      exact pointDouble_standsFor hp h1
    · refine ⟨.inf, pointAdd_of_y_ne _ _ hy, hP ▸ Affine.Point.add_of_Y_eq rfl ?_⟩
      exact (Affine.Y_eq_of_X_eq hns1.1 hns2.1 rfl).resolve_left
        (mt (natCast_inj_of_lt hy1 hy2).1 hy)
  · have hne : (x1 : ZMod s.curveP.toNat) ≠ x2 := mt (natCast_inj_of_lt hx1 hx2).1 hx
    obtain ⟨lam, -, hlam, hadd⟩ :=
      pointAdd_chord (y1 := y1) (y2 := y2) s.curveA.toNat hp hx (abscissa_difference_coprime hne)
    exact ⟨_, hadd, thirdPoint_standsFor (by omega) (chord_slope hne hlam) _
      (hP ▸ Affine.Point.add_of_X_ne hne)⟩

end

end Sys2Proof.Machine

namespace Sys2Proof.Proofs

open Sys2Proof.Machine

/-- Settles O31: PointAdd of the two values read answers a value that stands for the sum. -/
theorem paddIsTheGroupLaw : Obligations.PaddIsTheGroupLaw := by
  intro pd pa pb s _ P Q hp hP hQ
  obtain ⟨v1, h1, hv1⟩ := readPt_of_stands hP
  obtain ⟨v2, h2, hv2⟩ := readPt_of_stands hQ
  obtain ⟨r, hadd, hr⟩ := pointAdd_standsFor hp hv1 hv2
  exact ⟨r.toReg, hr.toReg, (exec_padd_eq pd h1 h2).trans (complete_map_setPt_ok hadd rfl)⟩

end Sys2Proof.Proofs
end

section
/-! The scalar multiplier: the scalar it uses, its corner cases with their errors, and PMUL as its completion
(spec/42_scalar.md R200, R201, R203). -/

namespace Sys2Proof.Machine

open Sys2Proof.Claims

/-! ### The scalar of an affine point -/

/-- The scalar the loop starts from for an affine point: reduced when the order is known (R200). -/
def usedScalar (s : State) (k : Nat) : Nat := if s.nvalid = true then k % s.curveN.toNat else k

section
variable {s : State} {k x y : Nat}

theorem usedScalar_of_known (h : s.nvalid = true) (k : Nat) : usedScalar s k = k % s.curveN.toNat := if_pos h

theorem usedScalar_of_unknown (h : s.nvalid = false) (k : Nat) : usedScalar s k = k := if_neg (by simp [h])

theorem usedScalar_eq_zero_iff : usedScalar s k = 0 ↔ k = 0 ∨ (s.nvalid = true ∧ s.curveN.toNat ∣ k) := by
  cases h : s.nvalid with
  | false => simp [usedScalar_of_unknown h]
  | true =>
    rw [usedScalar_of_known h, ← Nat.dvd_iff_mod_eq_zero]
    refine ⟨fun hd => .inr ⟨rfl, hd⟩, ?_⟩
    rintro (rfl | ⟨-, hd⟩)
    · exact dvd_zero _
    · exact hd

theorem reduceScalar_badModulus (h : s.nvalid = true) (hn : s.curveN.toNat ≤ 2) :
    reduceScalar s k (.aff x y) = .error .badModulus := by
  rw [reduceScalar, if_pos ⟨h, by simp⟩, if_pos hn]

section
variable (hn : s.nvalid = true → 2 < s.curveN.toNat)
include hn

theorem usedScalar_one : usedScalar s 1 = 1 := by
  cases h : s.nvalid with
  | false => exact usedScalar_of_unknown h 1
  | true => rw [usedScalar_of_known h, Nat.mod_eq_of_lt (by have := hn h; omega)]

theorem reduceScalar_aff : reduceScalar s k (.aff x y) = .ok (usedScalar s k) := by
  cases h : s.nvalid with
  | false => rw [reduceScalar_keep (.inl h), usedScalar_of_unknown h]
  | true => rw [reduceScalar_mod h (hn h), usedScalar_of_known h]

theorem scalarMul_aff : scalarMul s k (.aff x y) =
    scalarLoop s.curveP.toNat s.curveA.toNat (usedScalar s k) (usedScalar s k) .inf (.aff x y) := by
  rw [scalarMul, reduceScalar_aff hn, ok_bind]

/-! ### Corner cases -/

theorem scalarMul_eq_inf_of_usedScalar_zero (hk : usedScalar s k = 0) : scalarMul s k (.aff x y) = .ok .inf := by
  rw [scalarMul_aff hn, hk, scalarLoop_zero]

/-- ScalarMul(1, V) is V, provided that the double of V, which is not used, can be computed (R200, R201). -/
theorem scalarMul_one {c : Point} (h : pointDouble s.curveP.toNat s.curveA.toNat (.aff x y) = .ok c) :
    scalarMul s 1 (.aff x y) = .ok (.aff x y) := by
  have hadd : addIfOdd s.curveP.toNat s.curveA.toNat 1 .inf (.aff x y) = .ok (.aff x y) := rfl
  rw [scalarMul_aff hn, usedScalar_one hn, scalarLoop, if_neg one_ne_zero, hadd, ok_bind, pointAdd_self, h, ok_bind]
  rfl

/-- An affine point that has no double has no multiple either, but for the scalar 0 (R200). -/
theorem scalarMul_of_double_error {e : ErrCode} (hk : usedScalar s k ≠ 0)
    (h : pointDouble s.curveP.toNat s.curveA.toNat (.aff x y) = .error e) :
    scalarMul s k (.aff x y) = .error e := by
  rw [scalarMul_aff hn, scalarLoop_of_double_error hk h]

end

theorem scalarMul_badModulus (h : s.nvalid = true) (hn : s.curveN.toNat ≤ 2) :
    scalarMul s k (.aff x y) = .error .badModulus := by
  rw [scalarMul, reduceScalar_badModulus h hn, error_bind]

/-- Every multiple of INF is INF (R201). -/
theorem scalarLoop_inf (p a : Nat) : ∀ fuel k : Nat, scalarLoop p a fuel k .inf .inf = .ok .inf
  | 0, _ => rfl
  | fuel + 1, k => by
    have hadd : addIfOdd p a k .inf .inf = .ok .inf := by rw [addIfOdd, pointAdd_inf_left, ite_self]
    rw [scalarLoop, hadd, ok_bind, pointAdd_inf_left, ok_bind, scalarLoop_inf p a fuel, ite_self]

theorem scalarMul_inf (s : State) (k : Nat) : scalarMul s k .inf = .ok .inf := by
  rw [scalarMul, reduceScalar_keep (.inr rfl), ok_bind, scalarLoop_inf]

/-- A point has a double when y = 0 or 2 y has an inverse (R180). -/
theorem pointDouble_ok {p : Nat} (a : Nat) (hp : 2 < p) (h : y = 0 ∨ Nat.gcd (2 * y) p = 1) :
    ∃ c, pointDouble p a (.aff x y) = .ok c := by
  by_cases h0 : y = 0
  · subst h0
    exact ⟨_, pointDouble_of_y_zero p a⟩
  · obtain ⟨_, -, hdouble⟩ := pointDouble_tangent (x1 := x) a hp h0 (h.resolve_left h0)
    exact ⟨_, hdouble⟩

end

/-! ### PMUL -/

/-- PMUL of a point that is not EMPTY completes with what ScalarMul answers (R203). -/
theorem exec_pmul_eq {s : State} {pa : PReg} {v : Point} (pd : PReg) (xk : XReg) (h : readPt s pa = .ok v) :
    exec (.pmul pd pa xk) s = complete s ((scalarMul s s.x[xk.val].toNat v).map (s.setPt pd)) := by
  rw [exec, execPmul, h, ok_bind]
  rfl

theorem exec_pmul_of_empty {s : State} {pa : PReg} (pd : PReg) (xk : XReg) (h : s.pt[pa.val] = .empty) :
    exec (.pmul pd pa xk) s = complete s (.error .emptyPoint) := by
  rw [exec, execPmul, readPt_of_empty h, error_bind]

section
variable {s : State} {pd pa : PReg} {xk : XReg} {v q : Point} {r : PointReg} {w : BusWord} {c : ErrCode}

theorem exec_pmul_ok (h : readPt s pa = .ok v) (hmul : scalarMul s s.x[xk.val].toNat v = .ok q) (hr : q.toReg = r) :
    exec (.pmul pd pa xk) s = .next (succeeded { s with pt := s.pt.set pd.val r }) :=
  (exec_pmul_eq pd xk h).trans (complete_map_setPt_ok hmul hr)

theorem exec_pmul_error (hw : s.engine = .busy w) (h : readPt s pa = .ok v)
    (hmul : scalarMul s s.x[xk.val].toNat v = .error c) : exec (.pmul pd pa xk) s = .next (failed s w c) :=
  (exec_pmul_eq pd xk h).trans (complete_map_setPt_error hw hmul)

end

end Sys2Proof.Machine

namespace Sys2Proof.Proofs

open Sys2Proof.Machine

/-- Settles O30: what ScalarMul answers in each corner case, carried to the completion of PMUL. -/
theorem pmulCornerCases : Obligations.PmulCornerCases := by
  intro pd pa xk s
  refine ⟨fun hr => ?inf, fun x y hr hn => ⟨fun hk => ?zero, fun hk hp hy => ?one⟩, fun w hw =>
    ⟨fun hr => ?empty, fun x y hr h hn => ?badModulus, fun x y hr hn =>
      ⟨fun ⟨hk0, hkn⟩ hy hg => ?noDouble, fun h => ?fails⟩⟩⟩
  case inf => exact exec_pmul_ok (readPt_of_inf hr) (scalarMul_inf s _) rfl
  case zero =>
    have hzero := usedScalar_eq_zero_iff.2 (hk.imp_left (congrArg BitVec.toNat))
    exact exec_pmul_ok (readPt_of_aff hr) (scalarMul_eq_inf_of_usedScalar_zero hn hzero) rfl
  case one =>
    obtain ⟨c, hdouble⟩ := pointDouble_ok (x := x.toNat) s.curveA.toNat hp (hy.imp_left (congrArg BitVec.toNat))
    exact exec_pmul_ok (readPt_of_aff hr) (by rw [hk]; exact scalarMul_one hn hdouble) (toReg_aff_word x y)
  case empty => exact (exec_pmul_of_empty pd xk hr).trans (complete_of_error hw rfl)
  case badModulus => exact exec_pmul_error hw (readPt_of_aff hr) (scalarMul_badModulus h hn)
  case noDouble =>
    have hk : usedScalar s s.x[xk.val].toNat ≠ 0 := by
      rw [ne_eq, usedScalar_eq_zero_iff, not_or, not_and]
      exact ⟨mt (BitVec.eq_of_toNat_eq (y := 0#256)) hk0, hkn⟩
    have hdouble := pointDouble_error_of_gcd (a := s.curveA.toNat) (x := x.toNat)
      (mt (BitVec.eq_of_toNat_eq (y := 0#256)) hy) hg
    exact exec_pmul_error hw (readPt_of_aff hr) (scalarMul_of_double_error hn hk hdouble)
  case fails => exact exec_pmul_error hw (readPt_of_aff hr) h

end Sys2Proof.Proofs
end

section
/-! For a prime CURVE_P the scalar multiplier refines the multiple of Mathlib's group of the curve (spec/42_scalar.md
R200, R201). -/

namespace Sys2Proof.Machine

open Sys2Proof.Claims WeierstrassCurve

section
variable {s : State} [Fact s.curveP.toNat.Prime] {P R : (curveOf s).Point} {v : Point}

/-- One conditional addition adds the lowest bit of k times the current point. -/
theorem addIfOdd_standsFor {res cur : Point} (hp : 2 < s.curveP.toNat) (k : Nat) (hr : res.StandsFor s R)
    (hc : cur.StandsFor s P) : ∃ r, addIfOdd s.curveP.toNat s.curveA.toNat k res cur = .ok r ∧
      r.StandsFor s (R + (k % 2) • P) := by
  unfold addIfOdd
  split
  case isTrue hodd =>
    rw [hodd, one_nsmul]
    exact pointAdd_standsFor hp hr hc
  case isFalse heven =>
    rw [Nat.mod_two_ne_one.1 heven, zero_nsmul, add_zero]
    exact ⟨res, rfl, hr⟩

/-- What the loop keeps: it answers the running result plus what is left of the scalar times the current point. -/
theorem scalarLoop_standsFor (hp : 2 < s.curveP.toNat) :
    ∀ (fuel k : Nat) {res cur : Point} {R P : (curveOf s).Point}, k ≤ fuel → res.StandsFor s R → cur.StandsFor s P →
      ∃ r, scalarLoop s.curveP.toNat s.curveA.toNat fuel k res cur = .ok r ∧ r.StandsFor s (R + k • P)
  | 0, k, res, _, R, P, hk, hr, _ => by
    obtain rfl := Nat.le_zero.1 hk
    exact ⟨res, rfl, by rwa [zero_nsmul, add_zero]⟩
  | fuel + 1, k, res, cur, R, P, hk, hr, hc => by
    by_cases h0 : k = 0
    · subst h0
      exact ⟨res, scalarLoop_zero .., by rwa [zero_nsmul, add_zero]⟩
    obtain ⟨res', hres, hr'⟩ := addIfOdd_standsFor hp k hr hc
    obtain ⟨cur', hcur, hc'⟩ := pointAdd_standsFor hp hc hc
    obtain ⟨r, hloop, hstands⟩ := scalarLoop_standsFor hp fuel (k / 2) (by omega) hr' hc'
    refine ⟨r, ?_, ?_⟩
    · rw [scalarLoop, if_neg h0, hres, ok_bind, hcur, ok_bind, hloop]
    · have hsplit : R + (k % 2) • P + (k / 2) • (P + P) = R + k • P := by
        rw [← two_nsmul, ← mul_nsmul, add_assoc, ← add_nsmul, Nat.mod_add_div]
      rwa [hsplit] at hstands

/-- For a prime CURVE_P, ScalarMul never fails under a legal order, or none, and answers the multiple by the scalar it
uses (R201); for INF the reduction makes no difference. -/
theorem scalarMul_standsFor (hp : 2 < s.curveP.toNat) (hn : s.nvalid = true → 2 < s.curveN.toNat) (k : Nat)
    (h : v.StandsFor s P) : ∃ r, scalarMul s k v = .ok r ∧ r.StandsFor s (usedScalar s k • P) := by
  cases v with
  | inf =>
    subst h
    exact ⟨.inf, scalarMul_inf s k, nsmul_zero _⟩
  | aff x y =>
    rw [scalarMul_aff hn, ← zero_add (usedScalar s k • P)]
    exact scalarLoop_standsFor (res := .inf) hp _ _ le_rfl rfl h

end

end Sys2Proof.Machine

namespace Sys2Proof.Proofs

open Sys2Proof.Machine

/-- Settles O32: the multiple by the scalar used is the multiple by k itself where CURVE_N annihilates the point. -/
theorem pmulIsTheGroupMultiple : Obligations.PmulIsTheGroupMultiple := by
  intro pd pa xk s _ P hp hP hn
  obtain ⟨v, hv, hstands⟩ := readPt_of_stands hP
  obtain ⟨r, hmul, hr⟩ := scalarMul_standsFor hp hn s.x[xk.val].toNat hstands
  refine ⟨r.toReg, exec_pmul_ok hv hmul rfl, fun h => ?_, fun h => ?_, fun h hann => ?_⟩
  · rw [← usedScalar_of_unknown h s.x[xk.val].toNat]
    exact hr.toReg
  · rw [← usedScalar_of_known h]
    exact hr.toReg
  · rw [nsmul_eq_mod_nsmul _ hann, ← usedScalar_of_known h]
    exact hr.toReg

end Sys2Proof.Proofs
end

section
/-! The checks of the commands that need the group order, and key generation (spec/42_scalar.md R202, R204,
spec/41_point.md R171, spec/60_exceptions.md R277). -/

namespace Sys2Proof.Machine

open Sys2Proof.Claims

/-! ### The configuration -/

section
variable {s : State} {c : ErrCode}

theorem genOK_eq_checkedPoint (s : State) : genOK s = checkedPoint s s.curveGX.toNat s.curveGY.toNat := rfl

theorem genOK_of_genLegal (h : GenLegal s) : genOK s = .ok (.aff s.curveGX.toNat s.curveGY.toNat) := by
  obtain ⟨hl, hx, hy, he⟩ := h
  exact checkedPoint_ok hl hx hy he

/-- A configuration error is raised by OrderOK, or by GenOK after OrderOK has passed (R202, R171). -/
theorem orderOK_genOK_of_configError (h : ConfigError s c) :
    orderOK s = .error c ∨ ∃ n, orderOK s = .ok n ∧ genOK s = .error c := by
  have order : s.nvalid = true → 2 < s.curveN.toNat → orderOK s = .ok s.curveN.toNat :=
    fun hv hn => orderOK_ok_iff.2 ⟨hv, hn, rfl⟩
  cases c with
  | noOrder => exact .inl (orderOK_error_iff.2 (.inl ⟨h, rfl⟩))
  | badModulus =>
    obtain ⟨hv, hsmall⟩ := h
    by_cases hn : s.curveN.toNat ≤ 2
    · exact .inl (orderOK_error_iff.2 (.inr ⟨hv, hn, rfl⟩))
    · exact .inr ⟨_, order hv (by omega), checkedPoint_badModulus (hsmall.resolve_left hn)⟩
  | range =>
    obtain ⟨hv, hn, hp, hlarge⟩ := h
    exact .inr ⟨_, order hv hn, checkedPoint_range hp hlarge⟩
  | notOnCurve =>
    obtain ⟨hv, hn, hl, hx, hy, he⟩ := h
    exact .inr ⟨_, order hv hn, checkedPoint_notOnCurve hl hx hy he⟩
  | illegal | notInvertible | emptyPoint | infOperand | keyRange | nonce => exact h.elim

/-- What follows the checks of OrderOK and GenOK is not reached under a configuration error (R277). -/
theorem configChecks_of_configError {α : Type} (k : Nat → Point → Except ErrCode α) (h : ConfigError s c) :
    (do let n ← orderOK s; let g ← genOK s; k n g) = .error c := by
  obtain horder | ⟨n, horder, hgen⟩ := orderOK_genOK_of_configError h
  · rw [horder, error_bind]
  · rw [horder, ok_bind, hgen, error_bind]

theorem configChecks_of_genLegal {α : Type} (k : Nat → Point → Except ErrCode α) (hv : s.nvalid = true)
    (hn : 2 < s.curveN.toNat) (hg : GenLegal s) :
    (do let n ← orderOK s; let g ← genOK s; k n g) =
      k s.curveN.toNat (.aff s.curveGX.toNat s.curveGY.toNat) := by
  rw [orderOK_ok_iff.2 ⟨hv, hn, rfl⟩, ok_bind, genOK_of_genLegal hg, ok_bind]

/-! ### The commands under a configuration error -/

section
variable {w : BusWord} (hw : s.engine = .busy w)
include hw

theorem exec_keygen_of_configError (pd : PReg) (xs : XReg) (h : ConfigError s c) :
    exec (.keygen pd xs) s = .next (failed s w c) :=
  complete_of_error hw (configChecks_of_configError _ h)

/-- No nonce is drawn before the configuration is checked (R222). -/
theorem exec_esign_of_configError (xr xs xz xd xk : XReg) (h : ConfigError s c) :
    exec (.esign xr xs xz xd xk) s = .next (failed s w c) := by
  have hchecks : signChecks (s.getX xd) s = .error c := configChecks_of_configError _ h
  have hsig : signature (s.getX xz) (s.getX xd) (s.getX xk) s = (.error c, s.drawn) := by
    rw [signature, hchecks]
  rw [exec, execEsign, hsig]
  exact complete_of_error hw rfl

theorem exec_everify_of_configError (xz xr xs : XReg) {pq : PReg} (hq : s.pt[pq.val] ≠ .empty)
    (h : ConfigError s c) : exec (.everify xz xr xs pq) s = .next (failed s w c) := by
  obtain ⟨q, hread, -⟩ := readPt_of_ne_empty hq
  refine complete_of_error hw ?_
  rw [hread, ok_bind]
  exact configChecks_of_configError _ h

theorem exec_everify_of_empty (xz xr xs : XReg) {pq : PReg} (hq : s.pt[pq.val] = .empty) :
    exec (.everify xz xr xs pq) s = .next (failed s w .emptyPoint) := by
  refine complete_of_error hw ?_
  rw [readPt_of_empty hq, error_bind]

end

/-! ### Key generation -/

section
variable {xs : XReg} (pd : PReg) (hv : s.nvalid = true) (hn : 2 < s.curveN.toNat) (hg : GenLegal s)
include hv hn hg

/-- KEYGEN of a secret in range completes with what ScalarMul answers for the generator (R204). -/
theorem exec_keygen_eq (h1 : 1 ≤ s.x[xs.val].toNat) (hlt : s.x[xs.val].toNat < s.curveN.toNat) :
    exec (.keygen pd xs) s = complete s
      ((scalarMul s s.x[xs.val].toNat (.aff s.curveGX.toNat s.curveGY.toNat)).map (s.setPt pd)) := by
  have hsecret : secretOK (s.getX xs) s.curveN.toNat = .ok () := secretOK_ok_iff.2 ⟨h1, hlt⟩
  rw [exec, execKeygen, configChecks_of_genLegal _ hv hn hg, hsecret, ok_bind]
  rfl

theorem exec_keygen_keyRange (h : s.x[xs.val].toNat = 0 ∨ s.curveN.toNat ≤ s.x[xs.val].toNat) :
    exec (.keygen pd xs) s = complete s (.error .keyRange) := by
  have hsecret : secretOK (s.getX xs) s.curveN.toNat = .error .keyRange := secretOK_error_iff.2 ⟨h, rfl⟩
  rw [exec, execKeygen, configChecks_of_genLegal _ hv hn hg, hsecret, error_bind]

end

/-- A generator that stands for a point of the curve passes GenOK (R171). -/
theorem genLegal_of_stands {G : (curveOf s).Point} (hl : CurveLegal s) (h : Stands s (.aff s.curveGX s.curveGY) G) :
    GenLegal s ∧ Point.StandsFor s (.aff s.curveGX.toNat s.curveGY.toNat) G := by
  obtain ⟨hr, -⟩ | ⟨x, y, hns, hr, hx, hy, hG⟩ := h
  · cases hr
  · cases hr
    refine ⟨⟨hl, hx, hy, curveEquation_iff_zmod.2 ?_⟩, hx, hy, hns, hG⟩
    simpa [curveOf] using (WeierstrassCurve.Affine.equation_iff ..).1 hns.1

end

end Sys2Proof.Machine

namespace Sys2Proof.Proofs

open Sys2Proof.Machine

/-- Settles O35: OrderOK and then GenOK stand first in each of the three commands, after EVERIFY's read of the key. -/
theorem orderCommandsCheckTheConfiguration : Obligations.OrderCommandsCheckTheConfiguration := by
  intro s w c hw
  refine ⟨fun h => ⟨fun pd xs => ?_, fun xr xs xz xd xk _ => ?_, fun xz xr xs pq hq => ?_⟩, fun xz xr xs pq hq => ?_⟩
  · exact exec_keygen_of_configError hw pd xs h
  · exact exec_esign_of_configError hw xr xs xz xd xk h
  · exact exec_everify_of_configError hw xz xr xs hq h
  · exact exec_everify_of_empty hw xz xr xs hq

/-- Settles O33: after its checks KEYGEN computes what PMUL computes of a register that holds the generator. -/
theorem keygenMultipliesTheGenerator : Obligations.KeygenMultipliesTheGenerator := by
  intro pd xs s hv hn hg
  refine ⟨fun pa h1 hlt hr => ?_, fun w hw h => ?_⟩
  · rw [exec_keygen_eq pd hv hn hg h1 hlt, exec_pmul_eq pd xs (readPt_of_aff hr)]
  · rw [exec_keygen_keyRange pd hv hn hg (h.imp_left (congrArg BitVec.toNat))]
    exact complete_of_error hw rfl

/-- Settles O34: a secret in range is its own residue mod CURVE_N. -/
theorem keygenIsTheGroupMultipleOfG : Obligations.KeygenIsTheGroupMultipleOfG := by
  intro pd xs s _ G hv hn hp ha hb hG h1 hlt
  obtain ⟨hg, hstands⟩ := genLegal_of_stands ⟨hp, ha, hb⟩ hG
  obtain ⟨r, hmul, hr⟩ := scalarMul_standsFor hp (fun _ => hn) s.x[xs.val].toNat hstands
  rw [usedScalar_of_known hv, Nat.mod_eq_of_lt hlt] at hr
  exact ⟨r.toReg, hr.toReg, (exec_keygen_eq pd hv hn hg h1 hlt).trans (complete_map_setPt_ok hmul rfl)⟩

end Sys2Proof.Proofs
end

section
/-! Inverses mod n, as the two ECDSA engines use them (spec/00_scope.md R11, spec/43_ecdsa.md R222, R230, R231). -/

namespace Sys2Proof.Machine

section
variable {n v w : Nat}

/-- A residue that times v is 1 is what ModInv answers (R11). -/
theorem modInv_of_mul_mod (hn : 2 < n) (hw : w < n) (h : v * w % n = 1) : modInv v n = .ok w := by
  refine (modInv_ok_iff hn).2 ⟨Nat.pos_of_ne_zero fun h0 => ?_, hw, h⟩
  rw [h0, mul_zero, Nat.zero_mod] at h
  cases h

theorem exists_mul_mod_eq_one (hn : 2 < n) (h : Nat.gcd (v % n) n = 1) : ∃ w, 1 ≤ w ∧ w < n ∧ v * w % n = 1 := by
  have hinv := (modInv_ok_iff hn).1 (modInv_of_coprime (Nat.mod_lt v (by omega)) h)
  rw [Nat.mod_mul_mod] at hinv
  exact ⟨_, hinv⟩

/-- The inverse of n - v is n - w. -/
theorem sub_mul_sub_mod (hv : v ≤ n) (hw : w ≤ n) (h : v * w % n = 1) : (n - v) * (n - w) % n = 1 := by
  rw [← h]
  exact (ZMod.natCast_eq_natCast_iff' _ _ n).1 (by simp [hv, hw])

theorem gcd_sub_mod (hv : v ≤ n) : Nat.gcd ((n - v) % n) n = Nat.gcd (v % n) n := by
  rw [← Nat.gcd_rec, Nat.gcd_self_sub_right hv, Nat.gcd_rec]

/-- Where s is k^-1 e, its inverse w gives the nonce back: w e = k (mod n). -/
theorem inverse_mul_modEq {k inv e : Nat} (hk : k * inv % n = 1) (hw : inv * e % n * w % n = 1) :
    w * e ≡ k [MOD n] := by
  have h1 : (k * inv : ZMod n) = 1 := by simpa using congrArg (Nat.cast (R := ZMod n)) hk
  have h2 : (inv * e * w : ZMod n) = 1 := by simpa using congrArg (Nat.cast (R := ZMod n)) hw
  rw [← ZMod.natCast_eq_natCast_iff]
  push_cast
  linear_combination (-(w * e : ZMod n)) * h1 + (k : ZMod n) * h2

end

end Sys2Proof.Machine
end

section
/-! ESIGN: its checks, the nonce it signs with, and how it completes (spec/43_ecdsa.md R221 to R224). -/

namespace Sys2Proof.Machine

open Sys2Proof.Claims

/-! ### The checks and the nonce -/

/-- ESIGN of the secret d passes the checks that stand before any nonce is used (R222). -/
def SigningLegal (s : State) (d : Nat) : Prop :=
  s.nvalid = true ∧ 2 < s.curveN.toNat ∧ GenLegal s ∧ 1 ≤ d ∧ d < s.curveN.toNat

/-- One pass of ESIGN's loop over the configured order and generator (R222). -/
def signWith (s : State) (z d k : Nat) : Except ErrCode (Option (Nat × Nat)) :=
  signOnce s s.curveN.toNat (.aff s.curveGX.toNat s.curveGY.toNat) z d k

section
variable {s : State} {z d k r v j : Nat} {sig : Nat × Nat} {e : ErrCode}

theorem SigningLegal.order_pos (h : SigningLegal s d) : 0 < s.curveN.toNat := by
  obtain ⟨-, hn, -⟩ := h
  omega

theorem signChecks_of_signingLegal (h : SigningLegal s d) :
    signChecks d s = .ok (s.curveN.toNat, .aff s.curveGX.toNat s.curveGY.toNat) := by
  obtain ⟨hv, hn, hg, hd⟩ := h
  rw [signChecks, configChecks_of_genLegal _ hv hn hg, secretOK_ok_iff (u := ()) |>.2 hd, ok_bind, except_pure]

theorem signChecks_keyRange (hv : s.nvalid = true) (hn : 2 < s.curveN.toNat) (hg : GenLegal s)
    (hd : d = 0 ∨ s.curveN.toNat ≤ d) : signChecks d s = .error .keyRange := by
  rw [signChecks, configChecks_of_genLegal _ hv hn hg, secretOK_error_iff.2 ⟨hd, rfl⟩, error_bind]

theorem signingLegal_of_signChecks {c : Nat × Point} (h : signChecks d s = .ok c) : SigningLegal s d := by
  obtain ⟨n, horder, h⟩ := bind_ok_iff.1 h
  obtain ⟨g, hgen, h⟩ := bind_ok_iff.1 h
  obtain ⟨_, hsecret, -⟩ := bind_ok_iff.1 h
  obtain ⟨hv, hn, rfl⟩ := orderOK_ok_iff.1 horder
  obtain ⟨hl, hx, hy, he, -⟩ := genOK_ok_iff.1 hgen
  exact ⟨hv, hn, ⟨hl, hx, hy, he⟩, secretOK_ok_iff.1 hsecret⟩

/-- When the host's nonce gives a signature (R221). -/
theorem signHost_ok_iff {attempt : Nat → Except ErrCode (Option (Nat × Nat))} {n : Nat} :
    signHost attempt n k = .ok sig ↔ (1 ≤ k ∧ k < n) ∧ attempt k = .ok (some sig) := by
  unfold signHost
  split
  case isTrue h => exact iff_of_false (by simp) fun ⟨hk, _⟩ => by omega
  case isFalse h =>
    have hk : 1 ≤ k ∧ k < n := by omega
    rcases attempt k with e | _ | sig' <;> simp [hk]

/-- When the host's nonce gives an error, and which: it is out of range, or rejected, or its pass fails (R221). -/
theorem signHost_error_iff {attempt : Nat → Except ErrCode (Option (Nat × Nat))} {n : Nat} :
    signHost attempt n k = .error e ↔
      (k = 0 ∨ n ≤ k) ∧ e = .nonce ∨
      (1 ≤ k ∧ k < n) ∧ (attempt k = .ok none ∧ e = .nonce ∨ attempt k = .error e) := by
  unfold signHost
  split
  case isTrue h =>
    refine ⟨fun he => by cases he; exact .inl ⟨h, rfl⟩, ?_⟩
    rintro (⟨-, rfl⟩ | ⟨hk, -⟩)
    · rfl
    · omega
  case isFalse h =>
    have hk : 1 ≤ k ∧ k < n := by omega
    rcases attempt k with e' | _ | sig' <;> simp [hk, h, eq_comm]

/-! ### The signature and the completion -/

theorem signature_host (h : SigningLegal s d) (hsrc : s.ctrl.nsrc = true) :
    signature z d k s = (signHost (signWith s z d) s.curveN.toNat k, s.drawn) := by
  rw [signature, signChecks_of_signingLegal h]
  exact if_pos hsrc

theorem signature_internal (h : SigningLegal s d) (hsrc : s.ctrl.nsrc = false) :
    signature z d k s = signLoop (signWith s z d) (drawNonce s.curveN.toNat) Config.nonceRetryMax s.drawn := by
  rw [signature, signChecks_of_signingLegal h]
  exact if_neg (by simp [hsrc])

theorem signature_keyRange (hv : s.nvalid = true) (hn : 2 < s.curveN.toNat) (hg : GenLegal s)
    (hd : d = 0 ∨ s.curveN.toNat ≤ d) : signature z d k s = (.error .keyRange, s.drawn) := by
  rw [signature, signChecks_keyRange hv hn hg hd]

/-- A signature, from either source, is that of some nonce under a legal configuration and secret (R221, R222). -/
theorem signature_ok (h : signature z d k s = (.ok sig, j)) :
    SigningLegal s d ∧ ∃ k', signWith s z d k' = .ok (some sig) := by
  cases hc : signChecks d s with
  | error e =>
    rw [signature, hc] at h
    cases h
  | ok c =>
    have hl := signingLegal_of_signChecks hc
    refine ⟨hl, ?_⟩
    cases hsrc : s.ctrl.nsrc with
    | true =>
      rw [signature_host hl hsrc, Prod.mk.injEq] at h
      exact ⟨k, (signHost_ok_iff.1 h.1).2⟩
    | false =>
      rw [signature_internal hl hsrc] at h
      obtain ⟨m, -, -, ⟨sig', hsig, hloop⟩ | ⟨e, -, hloop⟩⟩ | ⟨-, hloop⟩ := signLoop_cases
        (attempt := signWith s z d) (draw := drawNonce s.curveN.toNat) Config.nonceRetryMax s.drawn
      · cases hloop.symm.trans h
        exact ⟨_, hsig⟩
      · cases hloop.symm.trans h
      · cases hloop.symm.trans h

variable {xr xs xz xd xk : XReg}

/-- ESIGN completes with what `signature` answers, and counts its draws (R222; log 2). -/
theorem exec_esign_eq {q : Except ErrCode (Nat × Nat)}
    (h : signature s.x[xz.val].toNat s.x[xd.val].toNat s.x[xk.val].toNat s = (q, j)) :
    exec (.esign xr xs xz xd xk) s = complete { s with drawn := j }
      (q.map fun sig => ({ s with drawn := j }.setX xr sig.1).setX xs sig.2) := by
  have hsig : signature (s.getX xz) (s.getX xd) (s.getX xk) s = (q, j) := h
  rw [exec, execEsign, hsig]
  rfl

theorem exec_esign_ok (h : signature s.x[xz.val].toNat s.x[xd.val].toNat s.x[xk.val].toNat s = (.ok (r, v), j)) :
    exec (.esign xr xs xz xd xk) s = .next (succeeded { s with
      x := (s.x.set xr.val (BitVec.ofNat 256 r)).set xs.val (BitVec.ofNat 256 v), drawn := j }) :=
  exec_esign_eq h

theorem exec_esign_error {w : BusWord} (hw : s.engine = .busy w)
    (h : signature s.x[xz.val].toNat s.x[xd.val].toNat s.x[xk.val].toNat s = (.error e, j)) :
    exec (.esign xr xs xz xd xk) s = .next { failed s w e with drawn := j } :=
  (exec_esign_eq h).trans (complete_of_error (s := { s with drawn := j }) hw rfl)

/-- With a host nonce ESIGN draws nothing, and its one pass decides (R221). -/
theorem exec_esign_host_ok (hl : SigningLegal s s.x[xd.val].toNat) (hsrc : s.ctrl.nsrc = true)
    (h : signHost (signWith s s.x[xz.val].toNat s.x[xd.val].toNat) s.curveN.toNat s.x[xk.val].toNat = .ok (r, v)) :
    exec (.esign xr xs xz xd xk) s = .next (succeeded { s with
      x := (s.x.set xr.val (BitVec.ofNat 256 r)).set xs.val (BitVec.ofNat 256 v) }) :=
  exec_esign_ok ((signature_host hl hsrc).trans (congrArg (·, s.drawn) h))

theorem exec_esign_host_error {w : BusWord} (hw : s.engine = .busy w) (hl : SigningLegal s s.x[xd.val].toNat)
    (hsrc : s.ctrl.nsrc = true)
    (h : signHost (signWith s s.x[xz.val].toNat s.x[xd.val].toNat) s.curveN.toNat s.x[xk.val].toNat = .error e) :
    exec (.esign xr xs xz xd xk) s = .next (failed s w e) :=
  exec_esign_error hw ((signature_host hl hsrc).trans (congrArg (·, s.drawn) h))

/-- The bounds of a signature (R223). -/
theorem signWith_bounds (hn : 0 < s.curveN.toNat) (h : signWith s z d k = .ok (some (r, v))) :
    1 ≤ r ∧ r ≤ s.curveN.toNat - 1 ∧ 1 ≤ v ∧ v ≤ s.curveN.toNat / 2 := by
  obtain ⟨rx, ry, inv, -, rfl, hr, -, hv, rfl⟩ := signOnce_some_iff.1 h
  have hlt := Nat.mod_lt rx hn
  exact ⟨by omega, by omega, lowS_bounds (by omega) (Nat.mod_lt _ hn)⟩

/-- An ESIGN that ends without error leaves a signature of some nonce in its two destinations (R222). -/
theorem exec_esign_inversion {t : State} (hne : xr ≠ xs) (h : exec (.esign xr xs xz xd xk) s = .next t)
    (ht : t.status.err = false) :
    SigningLegal s s.x[xd.val].toNat ∧ ∃ (k j : Nat) (x : Vector Word 16),
      signWith s s.x[xz.val].toNat s.x[xd.val].toNat k = .ok (some (x[xr.val].toNat, x[xs.val].toNat)) ∧
      (∀ i : XReg, i ≠ xr → i ≠ xs → x[i.val] = s.x[i.val]) ∧ t = succeeded { s with x := x, drawn := j } := by
  rcases hsig : signature s.x[xz.val].toNat s.x[xd.val].toNat s.x[xk.val].toNat s with ⟨e | ⟨r, v⟩, j⟩
  · cases (exec_esign_eq hsig).symm.trans h
    cases ht
  obtain ⟨hl, k, hk⟩ := signature_ok hsig
  obtain ⟨-, hr, -, hv⟩ := signWith_bounds hl.order_pos hk
  have hfit := s.curveN.isLt
  refine ⟨hl, k, j, (s.setX xr r |>.setX xs v).x, ?_, fun i hr hs => ?_,
    Host.Outcome.next.inj (h.symm.trans (exec_esign_ok hsig))⟩
  · rw [setX_x_of_ne _ v hne, State.setX_x, Vector.getElem_set_self, State.setX_x, Vector.getElem_set_self,
      ofNat_toNat_of_lt (by omega), ofNat_toNat_of_lt (by omega)]
    exact hk
  · rw [setX_x_of_ne _ v hs, setX_x_of_ne s r hr]

end

end Sys2Proof.Machine

namespace Sys2Proof.Proofs

open Sys2Proof.Machine Sys2Proof.Claims

/-- Settles O36: the host's nonce has the inverse v, so its one pass gives a signature. -/
theorem esignSignsWithTheHostNonce : Obligations.EsignSignsWithTheHostNonce := by
  intro xr xs xz xd xk s rx ry v _ hsrc hv hn hg hd hdn hk hkn hmul hr hlt hinv hs
  have hpass := signOnce_some_iff.2
    ⟨rx, ry, v, hmul, rfl, hr, modInv_of_mul_mod hn hlt hinv, (Nat.mul_mod_mod ..).trans_ne hs, rfl⟩
  rw [Nat.mul_mod_mod] at hpass
  exact exec_esign_host_ok ⟨hv, hn, hg, hd, hdn⟩ hsrc (signHost_ok_iff.2 ⟨⟨hk, hkn⟩, hpass⟩)

/-- Settles O37: a secret out of range is refused before any nonce; then the host's nonce is out of range, or rejected in
its one pass, or that pass fails. -/
theorem esignRefusesBadSecretsAndNonces : Obligations.EsignRefusesBadSecretsAndNonces := by
  intro xr xs xz xd xk s w _ hw hv hn hg
  refine ⟨fun hd => ?keyRange,
    fun hd hdn hsrc h => exec_esign_host_error hw ⟨hv, hn, hg, hd, hdn⟩ hsrc (signHost_error_iff.2 ?nonce),
    fun hd hdn hsrc hk hkn h => exec_esign_host_error hw ⟨hv, hn, hg, hd, hdn⟩ hsrc
      (signHost_error_iff.2 (.inr ⟨⟨hk, hkn⟩, .inr ?notInvertible⟩))⟩
  case keyRange => exact exec_esign_error hw (signature_keyRange hv hn hg (hd.imp_left (congrArg BitVec.toNat)))
  case nonce =>
    by_cases hrange : s.x[xk.val].toNat = 0 ∨ s.curveN.toNat ≤ s.x[xk.val].toNat
    · exact .inl ⟨hrange, rfl⟩
    refine .inr ⟨by omega, .inl ⟨signOnce_none_iff.2 ?_, rfl⟩⟩
    obtain h | h | hinf | ⟨rx, ry, hr, hmul⟩ | ⟨rx, ry, v, hr, hmul, hlt, hinv, hs⟩ := h
    · exact absurd (.inl (congrArg BitVec.toNat h)) hrange
    · exact absurd (.inr h) hrange
    · exact .inl hinf
    · exact .inr ⟨rx, ry, hmul, .inl hr⟩
    · exact .inr ⟨rx, ry, hmul, .inr ⟨v, modInv_of_mul_mod hn hlt hinv, (Nat.mul_mod_mod ..).trans hs⟩⟩
  case notInvertible =>
    obtain hmul | ⟨rx, ry, hr, hmul, hg⟩ := h
    · exact signOnce_error_iff.2 (.inl hmul)
    · exact signOnce_error_iff.2 (.inr ⟨rx, ry, hmul, hr, modInv_of_not_coprime hkn hg⟩)

/-- Settles O38: what is written is a signature of some nonce, whatever its source. -/
theorem esignWritesLowSSignatures : Obligations.EsignWritesLowSSignatures := by
  intro xr xs xz xd xk s t hne _ h ht
  obtain ⟨hl, k, j, x, hsig, -, rfl⟩ := exec_esign_inversion hne h ht
  exact signWith_bounds hl.order_pos hsig

/-- Settles O39: the loop stops at the first draw that is not rejected, or after its last one. -/
theorem esignOutcomesWithInternalNonces : Obligations.EsignOutcomesWithInternalNonces := by
  intro xr xs xz xd xk s w _ hw hsrc hv hn hg hd hdn
  have hsig := signature_internal (z := s.x[xz.val].toNat) (k := s.x[xk.val].toNat) ⟨hv, hn, hg, hd, hdn⟩ hsrc
  have hdraws := fun i => drawNonce_bounds (n := s.curveN.toNat) (by omega) i
  obtain ⟨m, hm, hrejected, ⟨⟨r, v⟩, hpass, hloop⟩ | ⟨e, hpass, hloop⟩⟩ | ⟨hrejected, hloop⟩ := signLoop_cases
    (attempt := signWith s s.x[xz.val].toNat s.x[xd.val].toNat) (draw := drawNonce s.curveN.toNat)
    Config.nonceRetryMax s.drawn
  · exact ⟨_, m + 1, exec_esign_ok (hsig.trans hloop), by omega, hm, rfl, hdraws,
      fun i hi => hrejected i (by omega), .inl ⟨r, v, hpass, rfl⟩⟩
  · obtain rfl : e = .notInvertible := by
      obtain hmul | ⟨_, _, -, -, hinv⟩ := signOnce_error_iff.1 hpass
      · exact scalarMul_error (fun _ => hn) hmul
      · exact (modInv_error_iff.1 hinv).2
    exact ⟨_, m + 1, exec_esign_error hw (hsig.trans hloop), by omega, hm, rfl, hdraws,
      fun i hi => hrejected i (by omega), .inr (.inr ⟨hpass, rfl⟩)⟩
  · exact ⟨_, Config.nonceRetryMax, exec_esign_error hw (hsig.trans hloop), Nat.succ_pos _, le_rfl, rfl, hdraws,
      fun i hi => hrejected i (by omega), .inr (.inl ⟨rfl, hrejected _ (Nat.sub_one_lt (Nat.succ_ne_zero _)), rfl⟩)⟩

end Sys2Proof.Proofs
end

section
/-! EVERIFY: how it completes, with its errors, for any modulus (spec/43_ecdsa.md R230). -/

namespace Sys2Proof.Machine

open Sys2Proof.Claims

/-- The acceptance test of EVERIFY on the sum T: T is affine and T.x = r (mod n) (R230). -/
def Point.hasAbscissa (n r : Nat) : Point → Bool
  | .inf => false
  | .aff x _ => decide (x % n = r % n)

section
variable {s : State} {g q : Point} {n z r v w : Nat}

theorem verifySig_of_not_coprime (h : Nat.gcd (v % n) n ≠ 1) : verifySig s n g q z r v = .ok false := if_pos h

section
variable (hn : 2 < n) (hw : w < n) (h : v * w % n = 1)
include hn hw h

/-- Where s has the inverse w, the answer rests on the sum T alone (R230). -/
theorem verifySig_of_inverse :
    verifySig s n g q z r v = (do
      let t1 ← scalarMul s (z * w % n) g
      let t2 ← scalarMul s (r * w % n) q
      let t ← pointAdd s.curveP.toNat s.curveA.toNat t1 t2
      return t.hasAbscissa n r) := by
  have hinv : modInv (v % n) n = .ok w := modInv_of_mul_mod hn hw (by rwa [Nat.mod_mul_mod])
  have hg : ¬ Nat.gcd (v % n) n ≠ 1 := fun hg => by
    rw [modInv_of_not_coprime (Nat.mod_lt _ (by omega)) hg] at hinv
    cases hinv
  rw [verifySig, if_neg hg, hinv, ok_bind]
  refine bind_congr fun t1 => bind_congr fun t2 => bind_congr fun t => ?_
  cases t <;> rfl

theorem verifySig_of_sum {t1 t2 t : Point} (h1 : scalarMul s (z * w % n) g = .ok t1)
    (h2 : scalarMul s (r * w % n) q = .ok t2) (hT : pointAdd s.curveP.toNat s.curveA.toNat t1 t2 = .ok t) :
    verifySig s n g q z r v = .ok (t.hasAbscissa n r) := by
  rw [verifySig_of_inverse hn hw h, h1, ok_bind, h2, ok_bind, hT, ok_bind, except_pure]

end

end

theorem complete_map_setVOK_x {s t : State} {b : Except ErrCode Bool} (h : complete s (b.map s.setVOK) = .next t)
    (x : Vector Word 16) :
    complete { s with x := x } (b.map { s with x := x }.setVOK) = .next { t with x := x } := by
  cases b <;> cases h <;> rfl

/-- The verification over the configured order and generator (R230). -/
def verifyWith (s : State) (q : Point) (z r v : Nat) : Except ErrCode Bool :=
  verifySig s s.curveN.toNat (.aff s.curveGX.toNat s.curveGY.toNat) q z r v

/-- The verification computes with the curve alone, not with the integer registers. -/
theorem verifyWith_x (s : State) (x : Vector Word 16) : verifyWith { s with x := x } = verifyWith s := rfl

section
variable {s : State} {q : Point} {xz xr xs : XReg} {pq : PReg} {w : BusWord} {c : ErrCode} {b : Bool}
variable (hv : s.nvalid = true) (hn : 2 < s.curveN.toNat) (hg : GenLegal s) (hq : readPt s pq = .ok q)
include hv hn hg hq

/-- EVERIFY under a legal configuration completes with what `verifySig` answers (R230). -/
theorem exec_everify_eq : exec (.everify xz xr xs pq) s =
    complete s ((verifyWith s q s.x[xz.val].toNat s.x[xr.val].toNat s.x[xs.val].toNat).map s.setVOK) := by
  rw [exec, execEverify, hq, ok_bind, configChecks_of_genLegal _ hv hn hg]
  rfl

theorem exec_everify_ok (h : verifyWith s q s.x[xz.val].toNat s.x[xr.val].toNat s.x[xs.val].toNat = .ok b) :
    exec (.everify xz xr xs pq) s = .next (succeeded { s with status := { s.status with vok := b } }) := by
  rw [exec_everify_eq hv hn hg hq, h]
  rfl

theorem exec_everify_error (hw : s.engine = .busy w)
    (h : verifyWith s q s.x[xz.val].toNat s.x[xr.val].toNat s.x[xs.val].toNat = .error c) :
    exec (.everify xz xr xs pq) s = .next (failed s w c) :=
  (exec_everify_eq hv hn hg hq).trans (complete_of_error hw (by rw [h]; rfl))

/-- Other integer registers that verify alike make no other difference to EVERIFY (R230). -/
theorem exec_everify_x {t : State} {x : Vector Word 16} (h : exec (.everify xz xr xs pq) s = .next t)
    (hx : verifyWith s q x[xz.val].toNat x[xr.val].toNat x[xs.val].toNat =
      verifyWith s q s.x[xz.val].toNat s.x[xr.val].toNat s.x[xs.val].toNat) :
    exec (.everify xz xr xs pq) { s with x := x } = .next { t with x := x } := by
  rw [exec_everify_eq hv hn hg hq, ← hx] at h
  rw [exec_everify_eq (s := { s with x := x }) hv hn hg hq, verifyWith_x]
  exact complete_map_setVOK_x h x

end

/-- A point value whose coordinates fit is read back from its register. -/
theorem readPt_of_toReg {s : State} {i : PReg} {q : Point} (h : s.pt[i.val] = q.toReg)
    (hfit : ∀ x y, q = .aff x y → x < 2 ^ 256 ∧ y < 2 ^ 256) : readPt s i = .ok q := by
  cases q with
  | inf => exact readPt_of_inf h
  | aff x y =>
    obtain ⟨hx, hy⟩ := hfit x y rfl
    rw [readPt_of_aff h, ofNat_toNat_of_lt hx, ofNat_toNat_of_lt hy]

end Sys2Proof.Machine

namespace Sys2Proof.Proofs

open Sys2Proof.Machine

/-- Settles O40: with an inverse w of s the answer is the test of T, or the error of the first of T1, T2 and T to fail. -/
theorem everifyComparesTheXCoordinate : Obligations.EverifyComparesTheXCoordinate := by
  intro xz xr xs pq s q hr hfit hv hn hg
  have hq := readPt_of_toReg hr hfit
  refine ⟨fun hgcd => exec_everify_ok hv hn hg hq (verifySig_of_not_coprime hgcd),
    fun w t1 t2 hw hinv h1 h2 =>
      ⟨fun hT => exec_everify_ok hv hn hg hq (verifySig_of_sum hn hw hinv h1 h2 hT),
       fun tx ty hT => exec_everify_ok hv hn hg hq (verifySig_of_sum hn hw hinv h1 h2 hT)⟩,
    fun c w hc hw hinv h => exec_everify_error hv hn hg hq hc ?fails⟩
  case fails =>
    rw [verifyWith, verifySig_of_inverse hn hw hinv]
    obtain h1 | h2 | ⟨t1, t2, h1, h2, hT⟩ := h
    · rw [h1, error_bind]
    · cases h1 : scalarMul s (s.x[xz.val].toNat * w % s.curveN.toNat)
        (.aff s.curveGX.toNat s.curveGY.toNat) with
      | error e => rw [error_bind, scalarMul_error (fun _ => hn) h1]
      | ok t1 => rw [ok_bind, h2, error_bind]
    · rw [h1, ok_bind, h2, ok_bind, hT, error_bind]

end Sys2Proof.Proofs
end

section
/-! For a prime CURVE_P: the verification as one multiple in Mathlib's group of the curve, the round trip of signature and
verification, and the two forms of s (spec/43_ecdsa.md R231). -/

namespace Sys2Proof.Machine

open Sys2Proof.Claims WeierstrassCurve

/-! ### Abscissas -/

section
variable {s : State} {P P' : (curveOf s).Point} {t t' : Point}

theorem Point.StandsFor.fits (h : t.StandsFor s P) (x y : Nat) (ht : t = .aff x y) : x < 2 ^ 256 ∧ y < 2 ^ 256 := by
  subst ht
  obtain ⟨hx, hy, -⟩ := h
  exact ⟨hx.trans s.curveP.isLt, hy.trans s.curveP.isLt⟩

/-- Values that stand for one point, or for two that are mutually inverse, pass the same test of the abscissa. -/
theorem hasAbscissa_congr [Fact s.curveP.toNat.Prime] (h : t.StandsFor s P) (h' : t'.StandsFor s P')
    (hP : P = P' ∨ P = -P') (n r : Nat) : t.hasAbscissa n r = t'.hasAbscissa n r := by
  rcases t with _ | ⟨x, y⟩ <;> rcases t' with _ | ⟨x', y'⟩
  · rfl
  · obtain ⟨-, -, hns', rfl⟩ := h'
    obtain rfl : P = 0 := h
    rcases hP with hP | hP <;> cases hP
  · obtain ⟨-, -, hns, rfl⟩ := h
    obtain rfl : P' = 0 := h'
    rcases hP with hP | hP <;> cases hP
  · obtain ⟨hx, -, hns, rfl⟩ := h
    obtain ⟨hx', -, hns', rfl⟩ := h'
    obtain rfl := (natCast_inj_of_lt hx hx').1 (Affine.Point.X_eq_iff.2 hP)
    rfl

end

/-! ### The verified multiple -/

section
variable {s : State} [Fact s.curveP.toNat.Prime] {G Q : (curveOf s).Point} {g q : Point} {z r v w : Nat}
variable (hp : 2 < s.curveP.toNat) (hv : s.nvalid = true) (hn : 2 < s.curveN.toNat)
variable (hG : g.StandsFor s G) (hQ : q.StandsFor s Q) (hGn : s.curveN.toNat • G = 0) (hQn : s.curveN.toNat • Q = 0)
include hp hv hn

/-- A known order that annihilates P makes no difference to its multiples (R201). -/
theorem scalarMul_annihilated_standsFor {P : (curveOf s).Point} {p : Point} (h : p.StandsFor s P)
    (hP : s.curveN.toNat • P = 0) (k : Nat) : ∃ t, scalarMul s k p = .ok t ∧ t.StandsFor s (k • P) := by
  obtain ⟨t, hmul, ht⟩ := scalarMul_standsFor hp (fun _ => hn) k h
  rw [usedScalar_of_known hv, ← nsmul_eq_mod_nsmul k hP] at ht
  exact ⟨t, hmul, ht⟩

include hG hQ hGn hQn

/-- The sum T of R230 stands for w (z G + r Q). -/
theorem verifySig_standsFor (hw : w < s.curveN.toNat) (h : v * w % s.curveN.toNat = 1) :
    ∃ t : Point, t.StandsFor s (w • (z • G + r • Q)) ∧
      verifySig s s.curveN.toNat g q z r v = .ok (t.hasAbscissa s.curveN.toNat r) := by
  obtain ⟨t1, h1, ht1⟩ := scalarMul_annihilated_standsFor hp hv hn hG hGn (z * w % s.curveN.toNat)
  obtain ⟨t2, h2, ht2⟩ := scalarMul_annihilated_standsFor hp hv hn hQ hQn (r * w % s.curveN.toNat)
  obtain ⟨t, hadd, ht⟩ := pointAdd_standsFor hp ht1 ht2
  rw [← nsmul_eq_mod_nsmul _ hGn, ← nsmul_eq_mod_nsmul _ hQn, mul_nsmul, mul_nsmul, ← nsmul_add] at ht
  exact ⟨t, ht, verifySig_of_sum hn hw h h1 h2 hadd⟩

/-- EVERIFY's answer is the same for s and n - s: negating s negates w and with it T (R231). -/
theorem verifySig_sub (hle : v ≤ s.curveN.toNat) :
    verifySig s s.curveN.toNat g q z r (s.curveN.toNat - v) = verifySig s s.curveN.toNat g q z r v := by
  by_cases hg : Nat.gcd (v % s.curveN.toNat) s.curveN.toNat = 1
  · obtain ⟨w, hw1, hw, hinv⟩ := exists_mul_mod_eq_one hn hg
    have hinv' := sub_mul_sub_mod hle hw.le hinv
    obtain ⟨t, ht, hver⟩ := verifySig_standsFor (z := z) (r := r) hp hv hn hG hQ hGn hQn hw hinv
    obtain ⟨t', ht', hver'⟩ := verifySig_standsFor (z := z) (r := r) hp hv hn hG hQ hGn hQn (by omega) hinv'
    have hann : s.curveN.toNat • (z • G + r • Q) = 0 := by
      rw [nsmul_add, nsmul_left_comm, hGn, nsmul_left_comm, hQn, nsmul_zero, nsmul_zero, add_zero]
    have hneg : (s.curveN.toNat - w) • (z • G + r • Q) = -(w • (z • G + r • Q)) := by
      rw [eq_neg_iff_add_eq_zero, ← add_nsmul, Nat.sub_add_cancel hw.le, hann]
    rw [hver, hver', hasAbscissa_congr ht' ht (.inr hneg)]
  · rw [verifySig_of_not_coprime hg, verifySig_of_not_coprime ((gcd_sub_mod hle).trans_ne hg)]

theorem verifySig_lowS (hle : v ≤ s.curveN.toNat) :
    verifySig s s.curveN.toNat g q z r (lowS s.curveN.toNat v) = verifySig s s.curveN.toNat g q z r v := by
  unfold lowS
  split
  · exact verifySig_sub hp hv hn hG hQ hGn hQn hle
  · rfl

end

/-- The signature of a nonce k verifies under d G: w z + w r d is k mod n, so T is R or, after low-S, its inverse (R231). -/
theorem verifySig_of_signWith {s : State} [Fact s.curveP.toNat.Prime] {G : (curveOf s).Point} {q : Point}
    {z d k r v : Nat} (hp : 2 < s.curveP.toNat) (hv : s.nvalid = true) (hn : 2 < s.curveN.toNat)
    (hprime : s.curveN.toNat.Prime) (hG : Point.StandsFor s (.aff s.curveGX.toNat s.curveGY.toNat) G)
    (hGn : s.curveN.toNat • G = 0) (hQ : q.StandsFor s (d • G))
    (h : signWith s z d k = .ok (some (r, v))) :
    verifyWith s q z r v = .ok true := by
  obtain ⟨rx, ry, inv, hmul, rfl, -, hinv, hs, rfl⟩ := signOnce_some_iff.1 h
  obtain ⟨-, -, hkinv⟩ := (modInv_ok_iff hn).1 hinv
  rw [Nat.mul_mod_mod] at hs ⊢
  have hQn : s.curveN.toNat • (d • G) = 0 := by rw [nsmul_left_comm, hGn, nsmul_zero]
  have hlt := Nat.mod_lt (inv * (z + rx % s.curveN.toNat * d)) (Nat.zero_lt_of_lt hn)
  rw [verifyWith, verifySig_lowS hp hv hn hG hQ hGn hQn hlt.le]
  obtain ⟨w, -, hw, hsw⟩ := exists_mul_mod_eq_one (v := inv * (z + rx % s.curveN.toNat * d) % s.curveN.toNat) hn
    (by rw [Nat.mod_mod]; exact (Nat.coprime_of_lt_prime hs hlt hprime).symm)
  obtain ⟨t, ht, hver⟩ := verifySig_standsFor (z := z) (r := rx % s.curveN.toNat) hp hv hn hG hQ hGn hQn hw hsw
  obtain ⟨R, hR, hstands⟩ := scalarMul_annihilated_standsFor hp hv hn hG hGn k
  cases hmul.symm.trans hR
  have hT : w • (z • G + (rx % s.curveN.toNat) • d • G) = k • G := by
    rw [← mul_nsmul', ← add_nsmul, ← mul_nsmul']
    exact nsmul_eq_nsmul_of_modEq (inverse_mul_modEq hkinv hsw) hGn
  rw [hver, hasAbscissa_congr ht hstands (.inl hT)]
  simp [Point.hasAbscissa]

end Sys2Proof.Machine

namespace Sys2Proof.Proofs

open Sys2Proof.Machine Sys2Proof.Claims

/-- Settles O41: KEYGEN stands for d G, and no command of the three changes the curve or a register that a later one
reads. -/
theorem esignedSignaturesVerify : Obligations.EsignedSignaturesVerify := by
  intro xr xs xz xd xk pd s t u _ G hp hprime hGn hG hne hzr hzs hdr hds _ hsign ht hkeygen
  obtain ⟨⟨hv, hn, ⟨hl, -⟩, hd, hdn⟩, k, j, x, hsig, hx, rfl⟩ := exec_esign_inversion hne hsign ht
  obtain ⟨hgen, hstands⟩ := genLegal_of_stands hl hG
  rw [← hx xd hdr hds] at hd hdn hsig
  rw [← hx xz hzr hzs] at hsig
  obtain ⟨q, hmul, hq⟩ := scalarMul_annihilated_standsFor hp hv hn hstands hGn x[xd.val].toNat
  have hver := verifySig_of_signWith hp hv hn hprime hstands hGn hq hsig
  have hkey := (exec_keygen_eq (s := succeeded { s with x := x, drawn := j }) pd hv hn hgen hd hdn).trans
    (complete_map_setPt_ok hmul rfl)
  cases hkey.symm.trans hkeygen
  exact exec_everify_ok hv hn hgen (readPt_of_toReg (Vector.getElem_set_self ..) hq.fits) hver

/-- Settles O42: `verifySig` answers the same for both forms of s. -/
theorem everifyAcceptsHighS : Obligations.EverifyAcceptsHighS := by
  intro xz xr xs pq s t _ G Q hp hv hn ha hb hGn hG hQn hQ hzs hrs hs hsn h
  obtain ⟨hgen, hg⟩ := genLegal_of_stands ⟨hp, ha, hb⟩ hG
  obtain ⟨q, hread, hq⟩ := readPt_of_stands hQ
  have hsub := verifySig_sub (z := s.x[xz.val].toNat) (r := s.x[xr.val].toNat) hp hv hn hg hq hGn hQn hsn.le
  have hfit : s.curveN.toNat - s.x[xs.val].toNat < 2 ^ 256 := (Nat.sub_le ..).trans_lt s.curveN.isLt
  refine exec_everify_x hv hn hgen hread h ?_
  rw [Vector.getElem_set_ne _ _ fun hx => hzs (Fin.ext hx.symm),
    Vector.getElem_set_ne _ _ fun hx => hrs (Fin.ext hx.symm), Vector.getElem_set_self, ofNat_toNat_of_lt hfit]
  exact hsub

end Sys2Proof.Proofs
end

section
/-! The strings of DERENC and SECENC as byte lists, and the completion of a command that writes one to the output buffer
(spec/44_serialize.md R250 to R257). -/

namespace Sys2Proof.Machine

open Sys2Proof.Claims

/-! ### Integers as byte strings -/

/-- The W-bit value comes back from its 32 bytes (R12, R257). -/
theorem bytesValue_be_word (v : Word) : bytesValue (be v.toNat 32) = v.toNat := by
  rw [bytesValue_be, Nat.mod_eq_of_lt (v.isLt.trans_eq (by norm_num))]

theorem bytesValue_zero_cons (bs : List Byte) : bytesValue (0#8 :: bs) = bytesValue bs := by
  simp [bytesValue_cons]

/-- Leading zero bytes do not change the integer that a string stands for. -/
theorem bytesValue_dropWhile_zero (bs : List Byte) : bytesValue (bs.dropWhile (· = 0#8)) = bytesValue bs := by
  induction bs with
  | nil => rfl
  | cons b bs ih =>
    by_cases hb : b = 0#8
    · rw [List.dropWhile_cons_of_pos (by simp [hb]), ih, hb, bytesValue_zero_cons]
    · rw [List.dropWhile_cons_of_neg (by simp [hb])]

/-- `minbe` keeps the value, and a zero byte stands in front only as the one byte of 0 (R12, R251). -/
theorem minbe_cases (v : Word) :
    ∃ b bs, minbe v = b :: bs ∧ bytesValue (b :: bs) = v.toNat ∧ (b = 0#8 → bs = []) := by
  have hval := (bytesValue_dropWhile_zero (be v.toNat 32)).trans (bytesValue_be_word v)
  unfold minbe
  cases hd : (be v.toNat 32).dropWhile (· = 0#8) with
  | nil =>
    rw [hd] at hval
    exact ⟨0#8, [], rfl, hval, fun _ => rfl⟩
  | cons b bs =>
    rw [hd] at hval
    have hb := List.dropWhile_get_zero_not (· = 0#8) (be v.toNat 32) (by simp [hd])
    simp only [hd, List.get_eq_getElem, List.getElem_cons_zero, decide_eq_true_eq] at hb
    exact ⟨b, bs, rfl, hval, fun h => absurd h hb⟩

/-- The content bytes that the encoder writes are those of the DER INTEGER (R250, R251). -/
theorem derInt_isDerInt (v : Word) : IsDerInt v.toNat (derInt v) := by
  obtain ⟨b, bs, hmin, hval, hzero⟩ := minbe_cases v
  simp only [derInt, hmin]
  split
  case isTrue hb =>
    refine ⟨(bytesValue_zero_cons _).trans hval, List.cons_ne_nil _ _, by simp, ?_⟩
    rintro b0 b1 rest ⟨⟩ -
    exact hb
  case isFalse hb =>
    refine ⟨hval, List.cons_ne_nil _ _, by simpa using hb, ?_⟩
    rintro b0 b1 rest ⟨⟩ h0
    cases hzero h0

/-! ### The strings -/

theorem derSignature_length_eq (r s : Word) :
    (derSignature r s).length = (derInt r).length + (derInt s).length + 6 := by
  simp only [derSignature, derTlv_length, List.length_append]
  omega

/-- The three nested elements, written out with their lengths (R250). -/
theorem derSignature_eq (r s : Word) :
    derSignature r s =
      0x30#8 :: BitVec.ofNat 8 ((derInt r).length + (derInt s).length + 4) ::
        0x02#8 :: BitVec.ofNat 8 (derInt r).length ::
          (derInt r ++ 0x02#8 :: BitVec.ofNat 8 (derInt s).length :: derInt s) := by
  have hlen : (derTlv 0x02#8 (derInt r) ++ derTlv 0x02#8 (derInt s)).length =
      (derInt r).length + (derInt s).length + 4 := by
    rw [List.length_append, derTlv_length, derTlv_length]
    omega
  rw [derSignature, derTlv, hlen]
  rfl

/-- The prefix byte of the compressed form tells the parity of y (R256). -/
theorem secPoint_compressed (x y : Nat) :
    secPoint true x y = (if y % 2 = 0 then 0x02#8 else 0x03#8) :: be x 32 := by
  obtain h | h := Nat.mod_two_eq_zero_or_one y <;> simp [secPoint, h]

/-! ### Completion -/

/-- A command that writes a string of n bytes succeeds with the string in OBUF and its length in OLEN (R49, R274). -/
theorem complete_setOutput (s : State) {out : List Byte} {n : Nat} (b : Bool) (h : out.length = n) :
    complete s (.ok ((s.setOutput out).setOINF b)) =
      .next (succeeded { s with
        obuf := fillObuf out, olen := BitVec.ofNat 7 n, status := { s.status with oinf := b } }) := by
  subst h
  rfl

section
variable {s : State} {pp : PReg} {c : Bool}

theorem exec_secenc_of_aff {x y : Word} (h : s.pt[pp.val] = .aff x y) :
    exec (.secenc c pp) s = complete s (.ok ((s.setOutput (secPoint c x.toNat y.toNat)).setOINF false)) := by
  rw [exec, execSecenc, readPt_of_aff h]
  rfl

theorem exec_secenc_of_inf (h : s.pt[pp.val] = .inf) :
    exec (.secenc c pp) s = complete s (.ok ((s.setOutput []).setOINF true)) := by
  rw [exec, execSecenc, readPt_of_inf h]
  rfl

theorem exec_secenc_of_empty {w : BusWord} (hw : s.engine = .busy w) (h : s.pt[pp.val] = .empty) :
    exec (.secenc c pp) s = .next (failed s w .emptyPoint) :=
  complete_of_error hw (by rw [readPt_of_empty h, error_bind])

end

end Sys2Proof.Machine

namespace Sys2Proof.Proofs

open Sys2Proof.Machine

/-- Settles O43: the contents of the two INTEGERs are `derInt` of the registers, and the whole is `derSignature`. -/
theorem derencWritesTheDerString : Obligations.DerencWritesTheDerString := by
  intro xr xs s
  obtain ⟨hlow, hhigh⟩ := derSignature_length s.x[xr.val] s.x[xs.val]
  have holen : (BitVec.ofNat 7 (derSignature s.x[xr.val] s.x[xs.val]).length).toNat =
      (derSignature s.x[xr.val] s.x[xs.val]).length := by
    rw [BitVec.toNat_ofNat, Nat.mod_eq_of_lt (by omega)]
  refine ⟨_, _, fillObuf (derSignature s.x[xr.val] s.x[xs.val]), _, derInt_isDerInt _, derInt_isDerInt _,
    (derInt_length _).2, (derInt_length _).2, holen.trans (derSignature_length_eq _ _),
    hlow.trans_eq holen.symm, holen.trans_le hhigh, fun j => ?_, complete_setOutput s false rfl⟩
  rw [fillObuf_getElem _ j.val j.isLt, derSignature_eq]

/-- Settles O44, by the value of the register. -/
theorem secencWritesTheSecString : Obligations.SecencWritesTheSecString := by
  refine fun pp s => ⟨fun x y h => ?aff, fun c h => ?inf, fun c w hw h => exec_secenc_of_empty hw h⟩
  case aff =>
    refine ⟨be x.toNat 32, be y.toNat 32, fillObuf (secPoint false x.toNat y.toNat),
      fillObuf (secPoint true x.toNat y.toNat), be_length _ _, bytesValue_be_word x, be_length _ _,
      bytesValue_be_word y, fun j => fillObuf_getElem _ j.val j.isLt, fun j => ?_,
      (exec_secenc_of_aff h).trans (complete_setOutput s false (secPoint_length false _ _)),
      (exec_secenc_of_aff h).trans (complete_setOutput s false (secPoint_length true _ _))⟩
    rw [fillObuf_getElem _ j.val j.isLt, secPoint_compressed]
  case inf =>
    exact ⟨fillObuf [], fun j => fillObuf_getElem [] j.val j.isLt,
      (exec_secenc_of_inf h).trans (complete_setOutput s true rfl)⟩

end Sys2Proof.Proofs
end

section
/-! Acceptance of a command word and its completion: what a write to CMD does, how a command ends, and that a BUSY
engine gets there whatever turns are pending (spec/20_memory.md R87, spec/60_exceptions.md R272, R274 to R276). -/

namespace Sys2Proof.Machine

open Sys2Proof.Claims

/-! ### Acceptance -/

section
variable {s : State} (w : BusWord)

/-- While BUSY or ERR a word written to CMD is discarded (R272). -/
theorem issue_dropped (h : (∃ v, s.engine = .busy v) ∨ s.status.err = true) : s.issue w = s.setDrop := by
  obtain ⟨v, hb⟩ | herr := h
  · simp [State.issue, State.busy, hb]
  · simp [State.issue, herr]

/-- An IDLE engine with ERR = 0 takes the word written to CMD (R272). -/
theorem issue_accepted (hidle : s.engine = .idle) (herr : s.status.err = false) :
    s.issue w = { s with engine := .busy w, status := { s.status with done := false } } := by
  simp [State.issue, State.busy, hidle, herr]

end

/-! ### Completion -/

/-- A successful command, once finished, keeps ERR, ERRCODE, ERRCMD and CTRL (R274). -/
theorem Writes.finish_keeps {s u : State} {i : Instr} (h : Writes s i u) :
    u.finish.status.err = s.status.err ∧ u.finish.status.errcode = s.status.errcode ∧
      u.finish.errcmd = s.errcmd ∧ u.finish.ctrl = s.ctrl := by
  rw [h.frame]
  exact ⟨rfl, rfl, rfl, rfl⟩

/-- Every command completes with the engine IDLE, DONE set and CTRL as it was (R274). -/
theorem exec_completes (i : Instr) (s : State) :
    ∃ t, exec i s = .next t ∧ t.engine = .idle ∧ t.status.done = true ∧ t.ctrl = s.ctrl := by
  obtain ⟨d, -, ⟨c, he⟩ | ⟨u, hw, he⟩⟩ := exec_cases i s
  · exact ⟨_, he, rfl, rfl, rfl⟩
  · obtain ⟨-, -, -, hctrl⟩ := hw.finish_keeps
    exact ⟨_, he, rfl, rfl, hctrl⟩

/-- A BUSY engine that moves is IDLE after that step, whether its word is legal or not (R114, R274). -/
theorem step_completes {s u : State} {w : BusWord} (h : s.nextMove = (.command w, u)) :
    ∃ t, step s = .next t ∧ t.engine = .idle := by
  cases hw : decode w with
  | ok i =>
    obtain ⟨t, ht, hidle, -⟩ := exec_completes i u
    exact ⟨t, (step_command h hw).trans ht, hidle⟩
  | error e => exact ⟨_, step_illegal h hw, rfl⟩

/-! ### Pending turns -/

theorem HostEffect.turns {s t : State} (h : HostEffect s t) : t.turns = s.turns := by
  cases h with
  | curve r v => simp
  | _ => rfl

/-- An engine that moves next when it is BUSY is IDLE after at most one step. -/
theorem run_idle_of_engine_moves {s : State} (h : ∀ w, s.engine = .busy w → ∃ u, s.nextMove = (.command w, u)) :
    ∃ (k : Nat) (t : State), k ≤ 1 ∧ core.run k s = .next t ∧ t.engine = .idle := by
  cases he : s.engine with
  | idle => exact ⟨0, s, Nat.zero_le 1, rfl, he⟩
  | busy w =>
    obtain ⟨u, hmove⟩ := h w he
    obtain ⟨t, hstep, hidle⟩ := step_completes hmove
    exact ⟨1, t, le_rfl, (run_one s).trans hstep, hidle⟩

/-- From any state the engine is IDLE within one step more than the pending turns: a host access uses up its turn, and
the engine's turn, a reset, or the end of the turns makes a BUSY engine IDLE. -/
theorem run_reaches_idle {turns : List Turn} {s : State} (ht : s.turns = turns) :
    ∃ (k : Nat) (t : State), k ≤ turns.length + 1 ∧ core.run k s = .next t ∧ t.engine = .idle := by
  induction turns generalizing s with
  | nil => exact run_idle_of_engine_moves fun w hb => ⟨s, nextMove_busy_nil hb ht⟩
  | cons turn rest ih =>
    cases turn with
    | host a =>
      obtain ⟨k, t, hk, hrun, hidle⟩ := ih (hostAccess_effect { s with turns := rest } a).turns
      exact ⟨k + 1, t, Nat.succ_le_succ hk, (run_succ_of_step k (step_host ht)).trans hrun, hidle⟩
    | engine =>
      obtain ⟨k, t, hk, hrun⟩ := run_idle_of_engine_moves fun w hb => ⟨_, nextMove_busy_engine hb ht⟩
      exact ⟨k, t, hk.trans (Nat.le_add_left 1 _), hrun⟩
    | reset => exact ⟨1, _, Nat.le_add_left 1 _, (run_one s).trans (step_reset ht), rfl⟩

/-- Host accesses that do not reset are used up one by one, and leave a BUSY engine its word, x and pt (R87). -/
theorem run_host_accesses_busy {turns : List Turn} {s : State} {w : BusWord} (hb : s.engine = .busy w)
    (ht : s.turns = turns) (hhost : ∀ turn ∈ turns, ∃ a, turn = .host a ∧ ¬ IsSoftReset a) :
    ∃ t : State, core.run turns.length s = .next t ∧ t.engine = .busy w ∧ t.turns = [] ∧ t.x = s.x ∧
      t.pt = s.pt ∧ core.run (turns.length + 1) s = step t := by
  induction turns generalizing s with
  | nil => exact ⟨s, rfl, hb, ht, rfl, rfl, run_one s⟩
  | cons turn rest ih =>
    obtain ⟨⟨a, rfl, hno⟩, hrest⟩ := List.forall_mem_cons.1 hhost
    have hstep := step_host ht
    obtain ⟨hsame, -⟩ := hostAccess_busy_onlyFlagsChanged (s := { s with turns := rest }) hb hno
    generalize hostAccess { s with turns := rest } a = s' at hstep hsame
    obtain ⟨t, hrun, hbusy, hnil, hx, hpt, hlast⟩ := ih (s := s') (by rw [hsame]; exact hb) (by rw [hsame]) hrest
    refine ⟨t, (run_succ_of_step _ hstep).trans hrun, hbusy, hnil, hx.trans ?_, hpt.trans ?_,
      (run_succ_of_step _ hstep).trans hlast⟩ <;> rw [hsame]

end Sys2Proof.Machine

namespace Sys2Proof.Proofs

open Sys2Proof.Machine Sys2Proof.Claims

/-- Settles O7: the next move is the command, with or without the engine's turn. -/
theorem stepRunsTheDecodedCommand : Obligations.StepRunsTheDecodedCommand :=
  fun _ _ _ hb hw => ⟨fun ht => step_command (nextMove_busy_nil hb ht) hw,
    fun _ ht => step_command (nextMove_busy_engine hb ht) hw⟩

/-- Settles O8, by the two branches of a write to CMD. -/
theorem acceptanceOfACommandWord : Obligations.AcceptanceOfACommandWord := by
  intro s w rest ht
  rw [step_write_loc (l := .cmd) ht, writeLoc]
  refine ⟨fun h => ?_, fun hidle herr => ?_⟩
  · rw [issue_dropped (s := { s with turns := rest }) w h]
    rfl
  · rw [issue_accepted (s := { s with turns := rest }) w hidle herr]

/-- Settles O54: the write to STATUS clears ERR and ERRCODE, and R272 accepts the next word. -/
theorem clearingErrAdmitsCommandsAgain : Obligations.ClearingErrAdmitsCommandsAgain := by
  intro s w v rest hidle herr
  refine ⟨fun ht => (acceptanceOfACommandWord s w rest ht).1 (.inr herr), fun hv ht => ?_⟩
  have hclear := statusWritesClearFlags s v _ ht
  rw [run_succ_of_step 1 hclear, run_one]
  refine ⟨_, (acceptanceOfACommandWord _ w rest rfl).2 hidle (by simp [hv]), rfl, ?_, ?_, rfl, rfl⟩
  · simp [hv]
  · simp [hv]

/-- Settles O9: a command ends in the error entry, or succeeds and keeps the error fields. -/
theorem errorsWriteNothingElse : Obligations.ErrorsWriteNothingElse := by
  intro i s w hb
  obtain ⟨d, -, ⟨c, he⟩ | ⟨u, hw, he⟩⟩ := exec_cases i s
  · exact ⟨_, d, he, .inl ⟨c, errorEntry_eq_failed (s := { s with drawn := d }) c hb⟩⟩
  · obtain ⟨herr, hcode, hcmd, -⟩ := hw.finish_keeps
    exact ⟨_, d, he, .inr ⟨rfl, rfl, herr, hcode, hcmd⟩⟩

/-- Settles O12, by induction on the pending turns in both parts. -/
theorem theEngineAlwaysCompletes : Obligations.TheEngineAlwaysCompletes :=
  ⟨fun _ => run_reaches_idle rfl, fun _ _ hb hhost => run_host_accesses_busy hb rfl hhost⟩

end Sys2Proof.Proofs
end

section
/-! The interrupt output is a level: DONE rises only by a completion, and IRQ is 0 wherever DONE or IE is
(spec/60_exceptions.md R283). -/

namespace Sys2Proof.Machine

theorem irq_eq_false_iff {s : State} : s.irq = false ↔ s.ctrl.ie = false ∨ s.status.done = false :=
  Bool.and_eq_false_iff

/-- No host access sets DONE. -/
theorem HostEffect.done_eq_false {s t : State} (h : HostEffect s t) (hs : s.status.done = false) :
    t.status.done = false := by
  cases h with
  | reset | accepted => rfl
  | cleared v => simp [Status.clear_eq, hs]
  | curve r v => simpa using hs
  | _ => exact hs

/-- A CTRL write with bit 0 = 0 takes IE away from an IDLE block, by itself or by the soft reset it asks for (R34,
R35). -/
theorem writeCtrl_irq {s : State} {v : BusWord} (hidle : s.engine = .idle) (hv : v.getLsbD 0 = false) :
    (s.writeCtrl v).irq = false := by
  unfold State.writeCtrl
  split
  · rfl
  · rw [unlessBusy_idle _ hidle]
    exact irq_eq_false_iff.2 (.inl hv)

/-- DONE rises only where a BUSY engine completes (R274, R283). -/
theorem busy_of_done_rises {s t : State} (h : step s = .next t) (hs : s.status.done = false)
    (ht : t.status.done = true) : (∃ w, s.engine = .busy w) ∧ t.engine = .idle := by
  have unchanged : t.status.done = false → (∃ w, s.engine = .busy w) ∧ t.engine = .idle := fun hf => by
    rw [hf] at ht
    cases ht
  obtain ⟨-, -, rfl⟩ | ⟨rest, -, -, rfl⟩ | ⟨a, rest, -, rfl⟩ | ⟨rest, -, rfl⟩ |
    ⟨w, rest, hb, -, ⟨i, -, hi⟩ | ⟨_, -, rfl⟩⟩ := step_cases h
  · exact unchanged hs
  · exact unchanged hs
  · exact unchanged ((hostAccess_effect { s with turns := rest } a).done_eq_false hs)
  · exact unchanged rfl
  · obtain ⟨t', ht', hidle, -⟩ := exec_completes i { s with turns := rest }
    cases ht'.symm.trans hi
    exact ⟨⟨w, hb⟩, hidle⟩
  · exact ⟨⟨w, hb⟩, rfl⟩

end Sys2Proof.Machine

namespace Sys2Proof.Proofs

open Sys2Proof.Machine

/-- Settles O55: a completion sets DONE and keeps IE, and each of the four clearing events takes DONE or IE away. -/
theorem irqIsALevelOfCompletion : Obligations.IrqIsALevelOfCompletion := by
  refine ⟨fun s => Bool.and_eq_true_iff, fun i s t h => ?_, fun s t v rest h hclear => ?_,
    fun _ _ => busy_of_done_rises⟩
  · obtain ⟨t', ht', -, hdone, hctrl⟩ := exec_completes i s
    cases ht'.symm.trans h
    rw [State.irq, hdone, hctrl, Bool.and_true]
  · obtain ⟨ht, hv⟩ | ⟨ht, hidle, hv⟩ | ⟨ht, hidle, herr⟩ | ht := hclear
    · cases (statusWritesClearFlags s v rest ht).symm.trans h
      exact irq_eq_false_iff.2 (.inr (by simp [hv]))
    · cases (step_write_loc (l := .ctrl) ht).symm.trans h
      exact writeCtrl_irq hidle hv
    · cases ((acceptanceOfACommandWord s v rest ht).2 hidle herr).symm.trans h
      exact irq_eq_false_iff.2 (.inr rfl)
    · cases (step_reset ht).symm.trans h
      rfl

end Sys2Proof.Proofs
end

section
/-! Which error codes an execution can end in, said once per check and per operation, and from that once per command
(spec/60_exceptions.md R270). -/

namespace Sys2Proof.Machine

open Sys2Proof.Claims

/-! ### The error codes of a sequence -/

/-- An execution that fails ends in a code that meets `P`; one that succeeds answers a value that meets `Q`. -/
def Ends {α : Type} (P : ErrCode → Prop) (Q : α → Prop) : Except ErrCode α → Prop
  | .ok a => Q a
  | .error c => P c

/-- Every code the execution can fail with meets `P`; nothing is said of what it answers. -/
abbrev Raises {α : Type} (P : ErrCode → Prop) (r : Except ErrCode α) : Prop := Ends P (fun _ => True) r

section
variable {α β : Type} {P : ErrCode → Prop} {Q : β → Prop} {r : Except ErrCode α}

theorem raises_of_error (h : ∀ c, r = .error c → P c) : Raises P r := by
  cases r with
  | ok a => trivial
  | error c => exact h c rfl

theorem Ends.of_error {Q : α → Prop} {c : ErrCode} (hr : Ends P Q r) (h : r = .error c) : P c := by
  rw [h] at hr
  exact hr

theorem ends_bind {f : α → Except ErrCode β} (hr : Raises P r) (hf : ∀ a, Ends P Q (f a)) : Ends P Q (r >>= f) := by
  cases r with
  | ok a => exact hf a
  | error c => exact hr

theorem ends_map {g : α → β} (hr : Raises P r) (hg : ∀ a, Q (g a)) : Ends P Q (r.map g) := by
  cases r with
  | ok a => exact hg a
  | error c => exact hr

theorem ends_ok {b : β} (h : Q b) : Ends P Q (.ok b) := h

theorem ends_error {c : ErrCode} (h : P c) : Ends P Q (.error c) := h

end

/-! ### The checks and the operations -/

section
variable {P : ErrCode → Prop} {s : State}

theorem selMod_raises {ms : ModSel} (hmod : P .badModulus) (horder : ms = .n → P .noOrder) :
    Raises P (selMod s ms) := by
  refine raises_of_error fun c h => ?_
  obtain ⟨hn, -, rfl⟩ | ⟨-, -, rfl⟩ := selMod_error_iff.1 h
  · exact horder hn
  · exact hmod

theorem elem_raises {v m : Nat} (h : P .range) : Raises P (elem v m) :=
  raises_of_error fun _ he => (elem_error_iff.1 he).2 ▸ h

theorem readPt_raises {i : PReg} (h : P .emptyPoint) : Raises P (readPt s i) :=
  raises_of_error fun _ he => (readPt_error_iff.1 he).2 ▸ h

theorem modInv_raises {a m : Nat} (h : P .notInvertible) : Raises P (modInv a m) :=
  raises_of_error fun _ he => (modInv_error_iff.1 he).2 ▸ h

theorem secretOK_raises {d n : Nat} (h : P .keyRange) : Raises P (secretOK d n) :=
  raises_of_error fun _ he => (secretOK_error_iff.1 he).2 ▸ h

theorem pointDouble_raises {p a : Nat} {v : Point} (h : P .notInvertible) : Raises P (pointDouble p a v) :=
  raises_of_error fun _ he => pointDouble_error he ▸ h

theorem pointAdd_raises {p a : Nat} {v1 v2 : Point} (h : P .notInvertible) : Raises P (pointAdd p a v1 v2) :=
  raises_of_error fun _ he => pointAdd_error he ▸ h

theorem reduceScalar_raises {k : Nat} {v : Point} (h : P .badModulus) : Raises P (reduceScalar s k v) := by
  unfold reduceScalar
  split
  · split
    · exact ends_error h
    · exact ends_ok trivial
  · exact ends_ok trivial

theorem orderOK_raises (horder : P .noOrder) (hmod : P .badModulus) : Raises P (orderOK s) := by
  refine raises_of_error fun c h => ?_
  obtain ⟨-, rfl⟩ | ⟨-, -, rfl⟩ := orderOK_error_iff.1 h
  · exact horder
  · exact hmod

theorem curveOK_raises (hmod : P .badModulus) (hrange : P .range) : Raises P (curveOK s) := by
  refine raises_of_error fun c h => ?_
  obtain ⟨-, rfl⟩ | ⟨-, -, rfl⟩ := curveOK_error_iff.1 h
  · exact hmod
  · exact hrange

/-- ScalarMul fails by the order it reduces with, or by ModInv (R200). -/
theorem scalarMul_raises {k : Nat} {v : Point} (hmod : P .badModulus) (hinv : P .notInvertible) :
    Raises P (scalarMul s k v) :=
  ends_bind (reduceScalar_raises hmod) fun _ => raises_of_error fun _ he => scalarLoop_error _ _ _ _ he ▸ hinv

theorem checkedPoint_raises {x y : Nat} (hmod : P .badModulus) (hrange : P .range) (hcurve : P .notOnCurve) :
    Raises P (checkedPoint s x y) := by
  refine ends_bind (curveOK_raises hmod hrange) fun _ => ends_bind (elem_raises hrange) fun x' =>
    ends_bind (elem_raises hrange) fun y' => ?_
  split
  · exact ends_ok trivial
  · exact ends_error hcurve

/-- OrderOK and then GenOK, before anything that rests on them. -/
theorem configChecks_end {α : Type} {Q : α → Prop} {k : Nat → Point → Except ErrCode α} (horder : P .noOrder)
    (hmod : P .badModulus) (hrange : P .range) (hcurve : P .notOnCurve) (hk : ∀ n g, Ends P Q (k n g)) :
    Ends P Q (do let n ← orderOK s; let g ← genOK s; k n g) :=
  ends_bind (orderOK_raises horder hmod) fun n => ends_bind (checkedPoint_raises hmod hrange hcurve) (hk n)

/-- SelMod and the range checks of two operands, before the arithmetic. -/
theorem binaryOperands_end {α : Type} {Q : α → Prop} {ms : ModSel} {xa xb : XReg}
    {k : Nat → Nat → Nat → Except ErrCode α} (hmod : P .badModulus) (horder : ms = .n → P .noOrder)
    (hrange : P .range) (hk : ∀ m a b, Ends P Q (k m a b)) :
    Ends P Q (do let m ← selMod s ms; let a ← elem (s.getX xa) m; let b ← elem (s.getX xb) m; k m a b) :=
  ends_bind (selMod_raises hmod horder) fun m => ends_bind (elem_raises hrange) fun a =>
    ends_bind (elem_raises hrange) (hk m a)

/-! ### ECDSA -/

theorem signOnce_raises {n z d k : Nat} {g : Point} (hmod : P .badModulus) (hinv : P .notInvertible) :
    Raises P (signOnce s n g z d k) := by
  refine raises_of_error fun c h => ?_
  obtain h | ⟨-, -, -, -, h⟩ := signOnce_error_iff.1 h
  · exact (scalarMul_raises hmod hinv).of_error h
  · exact (modInv_error_iff.1 h).2 ▸ hinv

section
variable {attempt : Nat → Except ErrCode (Option (Nat × Nat))} (hnonce : P .nonce)
  (hpass : ∀ k, Raises P (attempt k))
include hnonce hpass

/-- The host's nonce ends in E_NONCE or as its one pass fails (R221). -/
theorem signHost_raises {n k : Nat} : Raises P (signHost attempt n k) := by
  refine raises_of_error fun c h => ?_
  obtain ⟨-, rfl⟩ | ⟨-, ⟨-, rfl⟩ | h⟩ := signHost_error_iff.1 h
  · exact hnonce
  · exact hnonce
  · exact (hpass k).of_error h

/-- Drawn nonces end in E_NONCE or as one of the passes fails (R221). -/
theorem signLoop_raises {draw : Nat → Nat} {tries i : Nat} : Raises P (signLoop attempt draw tries i).1 := by
  obtain ⟨m, -, -, ⟨sig, -, h⟩ | ⟨e, he, h⟩⟩ | ⟨-, h⟩ :=
    signLoop_cases (attempt := attempt) (draw := draw) tries i
  · rw [h]
    exact ends_ok trivial
  · rw [h]
    exact (hpass _).of_error he
  · rw [h]
    exact ends_error hnonce

end

theorem signature_raises {z d k : Nat} (horder : P .noOrder) (hmod : P .badModulus) (hrange : P .range)
    (hcurve : P .notOnCurve) (hkey : P .keyRange) (hnonce : P .nonce) (hinv : P .notInvertible) :
    Raises P (signature z d k s).1 := by
  have hchecks : Raises P (signChecks d s) := configChecks_end horder hmod hrange hcurve fun _ _ =>
    ends_bind (secretOK_raises hkey) fun _ => ends_ok trivial
  unfold signature
  split
  case h_1 e he => exact ends_error (hchecks.of_error he)
  case h_2 n g _ =>
    have hpass : ∀ k, Raises P (signOnce s n g z d k) := fun _ => signOnce_raises hmod hinv
    split
    · exact signHost_raises hnonce hpass
    · exact signLoop_raises hnonce hpass

theorem verifySig_raises {n z r v : Nat} {g q : Point} (hmod : P .badModulus) (hinv : P .notInvertible) :
    Raises P (verifySig s n g q z r v) := by
  simp only [verifySig]
  split
  · exact ends_ok trivial
  · refine ends_bind (modInv_raises hinv) fun _ => ends_bind (scalarMul_raises hmod hinv) fun _ =>
      ends_bind (scalarMul_raises hmod hinv) fun _ => ends_bind (pointAdd_raises hinv) fun t => ?_
    cases t with
    | inf => exact ends_ok trivial
    | aff x y => exact ends_ok trivial

end

/-! ### The commands -/

/-- How every command ends: in a code of its row of R270, or with ERR as it was. -/
theorem exec_ends (i : Instr) (s : State) : ∃ (d : Nat) (r : Except ErrCode State),
    exec i s = complete { s with drawn := d } r ∧
      Ends (fun c => mayRaise i c = true) (fun u => u.status.err = s.status.err) r := by
  cases i with
  | fred => exact ⟨s.drawn, _, rfl, ends_bind (selMod_raises rfl (by rintro rfl; rfl)) fun _ => ends_ok rfl⟩
  | fadd | fsub | fmul | fpow | feq =>
    exact ⟨s.drawn, _, rfl, binaryOperands_end rfl (by rintro rfl; rfl) rfl fun _ _ _ => ends_ok rfl⟩
  | fdiv =>
    exact ⟨s.drawn, _, rfl, binaryOperands_end rfl (by rintro rfl; rfl) rfl fun _ _ _ =>
      ends_bind (ends_bind (modInv_raises rfl) fun _ => ends_ok trivial) fun _ => ends_ok rfl⟩
  | finv =>
    exact ⟨s.drawn, _, rfl, ends_bind (selMod_raises rfl (by rintro rfl; rfl)) fun _ =>
      ends_bind (elem_raises rfl) fun _ => ends_bind (modInv_raises rfl) fun _ => ends_ok rfl⟩
  | pset pd xx xy =>
    exact ⟨s.drawn, _, exec_pset_eq pd xx xy s, ends_map (checkedPoint_raises rfl rfl rfl) fun _ => rfl⟩
  | pgen pd => exact ⟨s.drawn, _, exec_pgen_eq pd s, ends_map (checkedPoint_raises rfl rfl rfl) fun _ => rfl⟩
  | pinf | derenc =>
    refine ⟨s.drawn, _, rfl, ends_ok ?_⟩
    rfl
  | pget =>
    refine ⟨s.drawn, _, rfl, ends_bind (readPt_raises rfl) fun v => ?_⟩
    cases v with
    | inf => exact ends_error rfl
    | aff x y => exact ends_ok rfl
  | secenc =>
    refine ⟨s.drawn, _, rfl, ends_bind (readPt_raises rfl) fun v => ?_⟩
    cases v with
    | inf => exact ends_ok rfl
    | aff x y => exact ends_ok rfl
  | peq =>
    exact ⟨s.drawn, _, rfl, ends_bind (readPt_raises rfl) fun _ => ends_bind (readPt_raises rfl) fun _ => ends_ok rfl⟩
  | padd =>
    exact ⟨s.drawn, _, rfl, ends_bind (readPt_raises rfl) fun _ => ends_bind (readPt_raises rfl) fun _ =>
      ends_bind (pointAdd_raises rfl) fun _ => ends_ok rfl⟩
  | pdbl =>
    exact ⟨s.drawn, _, rfl, ends_bind (readPt_raises rfl) fun _ =>
      ends_bind (pointDouble_raises rfl) fun _ => ends_ok rfl⟩
  | pmul =>
    exact ⟨s.drawn, _, rfl, ends_bind (readPt_raises rfl) fun _ =>
      ends_bind (scalarMul_raises rfl rfl) fun _ => ends_ok rfl⟩
  | keygen =>
    exact ⟨s.drawn, _, rfl, configChecks_end rfl rfl rfl rfl fun _ _ => ends_bind (secretOK_raises rfl) fun _ =>
      ends_bind (scalarMul_raises rfl rfl) fun _ => ends_ok rfl⟩
  | esign xr xs xz xd xk =>
    exact ⟨_, _, exec_esign_eq rfl, ends_map (signature_raises rfl rfl rfl rfl rfl rfl rfl) fun _ => rfl⟩
  | everify =>
    exact ⟨s.drawn, _, rfl, ends_bind (readPt_raises rfl) fun _ => configChecks_end rfl rfl rfl rfl fun _ _ =>
      ends_bind (verifySig_raises rfl rfl) fun _ => ends_ok rfl⟩

end Sys2Proof.Machine

namespace Sys2Proof.Proofs

open Sys2Proof.Machine

/-- Settles O11: a success leaves ERR at 0, so a command that ends with ERR = 1 failed, and its code is ERRCODE. -/
theorem commandsRaiseOnlyTheirErrorCodes : Obligations.CommandsRaiseOnlyTheirErrorCodes := by
  intro i s t c hs h ht hc
  obtain ⟨d, r, he, hr⟩ := exec_ends i s
  obtain ⟨u, rfl, rfl⟩ | ⟨c', rfl, rfl⟩ := complete_cases (he.symm.trans h)
  · have herr : u.status.err = false := hr.trans hs
    cases ht.symm.trans herr
  · cases hc
    exact hr

end Sys2Proof.Proofs
end

section
/-! The two resets: each is one step to `State.doReset`, which gives every register its value in the reset table, and
the values of that table meet every invariant (spec/10_state.md R35, spec/70_reset_and_hazards.md R300). -/

namespace Sys2Proof.Machine

open Sys2Proof.Claims

/-! ### The reset table -/

theorem isReset_reset : IsReset State.reset := by
  refine ⟨fun i => ?_, fun i => ?_, rfl, rfl, rfl, rfl, rfl, rfl, rfl, rfl, rfl, rfl, rfl, rfl, fun j => ?_, rfl⟩
  · exact Vector.getElem_replicate i.isLt
  · exact Vector.getElem_replicate i.isLt
  · exact Vector.getElem_replicate j.isLt

/-- What a reset keeps, the table does not speak of: turns, answers and draws are the model's own (log 5). -/
theorem isReset_doReset (s : State) : IsReset s.doReset := isReset_reset

/-- The table alone gives the invariants: no point is AFF, no flag is set, the engine is IDLE and the buffer is 0. -/
theorem invariant_of_isReset {t : State} (h : IsReset t) : Invariant t := by
  obtain ⟨-, hpt, -, -, -, -, -, -, -, -, -, hstatus, -, holen, hobuf, hidle⟩ := h
  refine ⟨fun i => ?_, ?_, busyFlags_of_idle hidle, ?_, fun j _ => hobuf j, fun _ => holen⟩
  · rw [hpt i]
    trivial
  · rw [ErrorLatch, hstatus]
    rfl
  · rw [holen]
    exact Nat.zero_le 72

/-- IRQ is 0 because the table gives IE = 0 (R34, R283). -/
theorem irq_eq_false_of_isReset {t : State} (h : IsReset t) : t.irq = false := by
  obtain ⟨-, -, -, -, -, -, -, -, -, -, hctrl, -⟩ := h
  exact irq_eq_false_iff.2 (.inl (by rw [hctrl]))

/-! ### The soft reset -/

/-- A write of CTRL with SRST = 1 is the reset step in every state, BUSY or not (R35). -/
theorem step_softReset {s : State} {v : BusWord} {rest : List Turn} (hv : v.getLsbD 2 = true)
    (h : s.turns = writeTurn 0x008#12 v :: rest) : step s = .next ({ s with turns := rest } : State).doReset := by
  rw [step_write_loc (l := .ctrl) h, writeLoc, State.writeCtrl, if_pos hv]

end Sys2Proof.Machine

namespace Sys2Proof.Proofs

open Sys2Proof.Machine Sys2Proof.Claims

/-- Settles O16: the reset state has the values of the reset table, and they meet every invariant. -/
theorem resetMeetsTheInvariant : Obligations.ResetMeetsTheInvariant :=
  invariant_of_isReset isReset_reset

/-- Settles O17: each of the two resets is one step to `doReset`. -/
theorem bothResetsGiveTheResetValues : Obligations.BothResetsGiveTheResetValues := by
  refine ⟨isReset_reset, fun s v rest h => ?_⟩
  have hstep : step s = .next ({ s with turns := rest } : State).doReset := by
    obtain hhard | ⟨hv, hsoft⟩ := h
    · exact step_reset hhard
    · exact step_softReset hv hsoft
  have hreset := isReset_doReset { s with turns := rest }
  exact ⟨_, hstep, hreset, irq_eq_false_of_isReset hreset⟩

end Sys2Proof.Proofs
end
